-- ==== Sys2Proof/Word.lean ====
section
/-! DEFINITION. The two bit-vector types of the block: a byte (u8) and a 32-bit word (u32, bits32), spec/00_scope.md R11. -/

namespace Sys2Proof

/-- A byte, a natural number 0..255 (00_scope.md R11). Addition and subtraction wrap modulo 256, as the filters require
(43_filter_decode.md R255). -/
abbrev Byte := BitVec 8

/-- A 32-bit value: chunk lengths and types, image dimensions, the gamma integer and the CRC (00_scope.md R10, R11). -/
abbrev Word := BitVec 32

end Sys2Proof
end

