-- ==== Sys2Proof/Config.lean ====
section
/-! DEFINITION. What an instance of the block fixes (spec/00_scope.md R10) and the free values. The instance's parameters
are plain data held in `State.par`, so that a statement about every state is a statement about every choice of them; the
free values have no body, so that nothing can be proved of them. -/

namespace Sys2Proof.Config

/-- What a rule reads from an address of `PIX` that no rule has written: any value (10_state.md R43, 93 U22). A free value:
it has no body (log 8). -/
opaque freePixel : Nat → Byte

/-- What a rule reads from an address of `PAL` that no rule has written (10_state.md R53, "unspecified"). A free value
(log 8). -/
opaque freePalette : Nat → Byte

/-- What a command of port CRCC reads from `CRC.acc` before the first `CRC.INIT`: any value, the register having "no defined
value" then (10_state.md R21, R53). A free value (log 7). -/
opaque freeCrc : BitVec 32

/-- How many bytes an at-most read delivers (`TAKE`, 41_demand_buffer.md R162). `firstBlock` is the spec's default; the
others are other choices inside the spec's range. DESIGN CHOICE (log 10): a fixed menu, with every other cut reached
through the label `K.IDAT(data)`. -/
inductive TakePolicy where
  | firstBlock
  | buffered
  | upTo (c : Nat)
deriving DecidableEq, Repr

/-- The three readings of the encoder's per-byte cost (`COST`, 44_filter_encode.md R293); `unwrapped` is the default. -/
inductive CostReading where
  | unwrapped
  | storedUnsigned
  | storedSigned
deriving DecidableEq, Repr

/-- One point of the function `DEFLATE_STREAM(cfg, in, ended)` (20_memory.md R77). -/
structure DeflPoint where
  chunkSize : Nat
  level : Nat
  strategy : Nat
  input : List Byte
  ended : Bool
  output : List Byte
deriving DecidableEq, Repr

/-- The parameters of an instance (00_scope.md R10): capacities (`none` is unbounded), `TAKE`, `COST`, and the external
transforms as finite graphs, with the inputs each transform rejects (93 U14). No operation writes them (log 10, 11, 13). -/
structure Params where
  capacity : Option Nat
  maxReads : Option Nat
  maxPixels : Option Nat
  take : TakePolicy
  cost : CostReading
  inflate : List (List Byte × List Byte)
  inflRejects : List (List Byte)
  deflate : List DeflPoint
  deflRejects : List (List Byte)
deriving DecidableEq, Repr

/-- The defaults of 00_scope.md R10: unbounded, `TAKE` from the first block, `COST` unwrapped, no rejection. The transforms
have no default in the spec: no output is given until a graph is (DESIGN CHOICE, log 10). -/
def Params.initial : Params where
  capacity := none
  maxReads := none
  maxPixels := none
  take := .firstBlock
  cost := .unwrapped
  inflate := []
  inflRejects := []
  deflate := []
  deflRejects := []

end Sys2Proof.Config
end

