-- ==== Sys2Proof/Syntax.lean ====
section
/-! DEFINITION. The operations of spec/opcode_table.json, one constructor of `Instr` per row, with their operands, and the
closed sets of names they use: continuation tags, filter types, error kinds. -/

namespace Sys2Proof

/-- A continuation tag, the 4-bit code a read request carries in place of a callback (30_encoding.md R115). -/
inductive Tag where
  | sig | hdr | ihdr | plte | trns | gama | idat | iend | skip | crc
  | user0 | user1 | user2 | user3 | user4 | user5
deriving DecidableEq, Repr

/-- The five filter types, codes 0 to 4 (30_encoding.md R106). -/
inductive FilterType where
  | none | sub | up | average | paeth
deriving DecidableEq, Repr

/-- The fifteen error kinds, in the order of their codes 1 to 15 (60_exceptions.md R351). -/
inductive ErrorKind where
  | invalidSignature | missingHeader | unsupportedBitDepth | unsupportedColorType
  | unsupportedCompressionMethod | unsupportedFilterMethod | unsupportedInterlaceMethod
  | unsupportedChunk | crcMismatch | missingPalette | transparencyBeforePalette
  | tooManyTransparentEntries | pendingReadsOnClose | writeAfterClose | readAfterDispose
deriving DecidableEq, Repr

/-- The operations of the block (30_encoding.md R118). An operation that the spec runs inside another step carries that
step's values as operands: a `K.*` rule the bytes delivered to it, a `CHUNK.*` row the declared length, a `DEFILT.*` row
the scanline's data, a `FILT.*` row the row number (log 5). -/
inductive Instr where
  -- chunk types, selected by `P.type` in `K.HDR` (30 R97, R98; 42 R195, R213, R214)
  | chunkIhdr (length : Word)
  | chunkPlte (length : Word)
  | chunkTrns (length : Word)
  | chunkGama (length : Word)
  | chunkIdat (length : Word)
  | chunkIend (length : Word)
  | chunkAncillaryUnknown (ty length : Word)
  | chunkCriticalUnknown (ty length : Word)
  -- filter-type bytes, decode direction (43 R261 to R265)
  | defiltNone (data : List Byte)
  | defiltSub (data : List Byte)
  | defiltUp (data : List Byte)
  | defiltAvg (data : List Byte)
  | defiltPaeth (data : List Byte)
  -- filter-type bytes, encode direction (44 R295 to R299)
  | filtNone (y : Nat)
  | filtSub (y : Nat)
  | filtUp (y : Nat)
  | filtAvg (y : Nat)
  | filtPaeth (y : Nat)
  -- continuation tags (42 R193 to R219; 41 R175)
  | kSig (data : List Byte)
  | kHdr (data : List Byte)
  | kIhdr (data : List Byte)
  | kPlte (data : List Byte)
  | kTrns (data : List Byte)
  | kGama (data : List Byte)
  | kIdat (data : List Byte)
  | kIend (data : List Byte)
  | kSkip (data : List Byte)
  | kCrc (data : List Byte)
  | kUser0 (data : List Byte)
  | kUser1 (data : List Byte)
  | kUser2 (data : List Byte)
  | kUser3 (data : List Byte)
  | kUser4 (data : List Byte)
  | kUser5 (data : List Byte)
  -- the Demand Buffer's command port (30 R109); an empty `last` is an absent one (41 R165)
  | dbPush (bytes : List Byte)
  | dbRequest (length : Nat) (allowLess : Bool) (tag : Tag)
  | dbClose (last : List Byte)
  | dbDispose
  -- the CRC Engine's command port (30 R110)
  | crcInit
  | crcUpdate (bytes : List Byte)
  | crcFinal
  -- the session ports (30 R111)
  | decPush (bytes : List Byte)
  | decClose (last : List Byte)
  | decDispose
  | encStart (width height : Word) (pixels : List Byte)
  | encDispose
  -- internal steps
  | pStart
  | dbServe
  | dbDrainend
  | inflOut (k : Nat)
  | feFeed (bytes : List Byte)
  | feLine
  | feFinish
  | pkSig
  | pkIhdr
  | feEncline
  | deflOut (k : Nat)
  | pkIdat (block : List Byte)
  | deflDone
  | pkIend
  -- functions
  | crc32 (bytes : List Byte)
  | tbl (n : Byte)
  | paeth (left above upLeft : Byte)
  | pred (f : FilterType) (left up upLeft : Byte)
  | pkChunk (ty : Word) (payload : List Byte)
  | finalize
  | teardown (kind : ErrorKind) (info : List Word)
deriving DecidableEq, Repr

/-- The six known chunk types, 32-bit values (30_encoding.md R97). -/
def tyIHDR : Word := 0x49484452
def tyPLTE : Word := 0x504C5445
def tyTRNS : Word := 0x74524E53
def tyGAMA : Word := 0x67414D41
def tyIDAT : Word := 0x49444154
def tyIEND : Word := 0x49454E44

end Sys2Proof
end

