-- ==== Sys2Proof/WellFormed.lean ====
section
/-! DEFINITION. Which operations are well formed: the checks on an operation's own fields, before any state is looked at.
What the state decides (an empty push, a zero-length at-most read, a wrong pixel count) is decided in the meanings. -/

namespace Sys2Proof

/-- Is the type none of the six known ones (30_encoding.md R98)? -/
def unknownType (ty : Word) : Bool :=
  !(ty == tyIHDR || ty == tyPLTE || ty == tyTRNS || ty == tyGAMA || ty == tyIDAT || ty == tyIEND)

/-- Bit 5 of the type's first byte, `P.type[29]`: the ancillary bit (30_encoding.md R98). -/
def ancillaryBit (ty : Word) : Bool := ty.getLsbD 29

/-- The checks on an operation's fields: an unknown chunk row carries a type of its own class (30 R98); a chunk's payload
fits its 32-bit length field (45 R324, R327); every other operation is well formed. -/
def Instr.wf : Instr → Bool
  | .chunkAncillaryUnknown ty _ => unknownType ty && ancillaryBit ty
  | .chunkCriticalUnknown ty _ => unknownType ty && !ancillaryBit ty
  | .pkIdat block => decide (block.length < 2 ^ 32)
  | .pkChunk _ payload => decide (payload.length < 2 ^ 32)
  | _ => true

/-- `Instr.wf` as a proposition. -/
abbrev Instr.WellFormed (i : Instr) : Prop := i.wf = true

end Sys2Proof
end

