-- ==== Sys2Proof/Decode.lean ====
section
/-! DEFINITION. Decoding. The byte-order helpers; the decoders of the spec's own codes (chunk type, filter-type byte,
continuation tag); the decoder of one whole operation offered to the block, total on any bytes and rejecting by name; and
after it the encoder. The codes of chunk types, filter bytes, tags and port commands are the spec's (30_encoding.md R97,
R98, R106, R109 to R111, R115); the selector byte in front of them, the codes of the internal steps and functions and the
layout of operands are the model's (log 3). -/

namespace Sys2Proof

/-! ### Byte order (00_scope.md R12) -/

/-- `be32(b0,b1,b2,b3) = b0*2^24 + b1*2^16 + b2*2^8 + b3`, `b0` the byte that comes first in the stream. -/
def be32 (b0 b1 b2 b3 : Byte) : Word := b0 ++ b1 ++ b2 ++ b3

/-- `bytes32(v)`, the four bytes of `v`, most significant first. -/
def bytes32 (v : Word) : List Byte :=
  [v.extractLsb' 24 8, v.extractLsb' 16 8, v.extractLsb' 8 8, v.extractLsb' 0 8]

/-- A natural operand from all the bytes of its field, least significant first (log 3). -/
def natOfBytes : List Byte → Nat
  | [] => 0
  | b :: bs => b.toNat + 256 * natOfBytes bs

/-- The bytes of a natural, least significant first, none for 0; the first argument bounds their number. -/
def natBytesUpTo : Nat → Nat → List Byte
  | 0, _ => []
  | fuel + 1, n => if n = 0 then [] else BitVec.ofNat 8 (n % 256) :: natBytesUpTo fuel (n / 256)

/-- The bytes of a natural operand, least significant first, without trailing zeros (log 3). -/
def natBytes (n : Nat) : List Byte := natBytesUpTo n n

/-! ### The spec's codes -/

/-- What a chunk type selects (30_encoding.md R97, R98; the rows of format `chunk_type`). -/
inductive ChunkClass where
  | ihdr | plte | trns | gama | idat | iend | ancillary | critical
deriving DecidableEq, Repr

/-- The six exact types before the two masked classes (30_encoding.md R98, R118). -/
def classify (ty : Word) : ChunkClass :=
  if ty = tyIHDR then .ihdr
  else if ty = tyPLTE then .plte
  else if ty = tyTRNS then .trns
  else if ty = tyGAMA then .gama
  else if ty = tyIDAT then .idat
  else if ty = tyIEND then .iend
  else if ancillaryBit ty then .ancillary
  else .critical

/-- The filter-type byte: all eight bits are compared, 5 to 255 select no filter (30_encoding.md R106). -/
def filterOfByte (b : Byte) : Option FilterType :=
  match b.toNat with
  | 0 => some .none
  | 1 => some .sub
  | 2 => some .up
  | 3 => some .average
  | 4 => some .paeth
  | _ => none

/-- The filter-type byte of a filter type (30_encoding.md R106). -/
def FilterType.byte : FilterType → Byte
  | .none => 0
  | .sub => 1
  | .up => 2
  | .average => 3
  | .paeth => 4

/-- The tag of a 4-bit code; a code that needs more than four bits is no tag (30_encoding.md R115). -/
def tagOfByte (b : Byte) : Option Tag :=
  match b.toNat with
  | 0 => some .sig
  | 1 => some .hdr
  | 2 => some .ihdr
  | 3 => some .plte
  | 4 => some .trns
  | 5 => some .gama
  | 6 => some .idat
  | 7 => some .iend
  | 8 => some .skip
  | 9 => some .crc
  | 10 => some .user0
  | 11 => some .user1
  | 12 => some .user2
  | 13 => some .user3
  | 14 => some .user4
  | 15 => some .user5
  | _ => none

/-- The 4-bit code of a tag (30_encoding.md R115). -/
def Tag.byte : Tag → Byte
  | .sig => 0
  | .hdr => 1
  | .ihdr => 2
  | .plte => 3
  | .trns => 4
  | .gama => 5
  | .idat => 6
  | .iend => 7
  | .skip => 8
  | .crc => 9
  | .user0 => 10
  | .user1 => 11
  | .user2 => 12
  | .user3 => 13
  | .user4 => 14
  | .user5 => 15

/-- The code of an error kind (60_exceptions.md R351). -/
def ErrorKind.code : ErrorKind → Nat
  | .invalidSignature => 1
  | .missingHeader => 2
  | .unsupportedBitDepth => 3
  | .unsupportedColorType => 4
  | .unsupportedCompressionMethod => 5
  | .unsupportedFilterMethod => 6
  | .unsupportedInterlaceMethod => 7
  | .unsupportedChunk => 8
  | .crcMismatch => 9
  | .missingPalette => 10
  | .transparencyBeforePalette => 11
  | .tooManyTransparentEntries => 12
  | .pendingReadsOnClose => 13
  | .writeAfterClose => 14
  | .readAfterDispose => 15

/-- The error kind of a code 1 to 15. -/
def errorOfByte (b : Byte) : Option ErrorKind :=
  match b.toNat with
  | 1 => some .invalidSignature
  | 2 => some .missingHeader
  | 3 => some .unsupportedBitDepth
  | 4 => some .unsupportedColorType
  | 5 => some .unsupportedCompressionMethod
  | 6 => some .unsupportedFilterMethod
  | 7 => some .unsupportedInterlaceMethod
  | 8 => some .unsupportedChunk
  | 9 => some .crcMismatch
  | 10 => some .missingPalette
  | 11 => some .transparencyBeforePalette
  | 12 => some .tooManyTransparentEntries
  | 13 => some .pendingReadsOnClose
  | 14 => some .writeAfterClose
  | 15 => some .readAfterDispose
  | _ => none

/-! ### Decoding one operation -/

/-- Why the decoder rejects an operation. -/
inductive Reject where
  /-- No bytes, or a selector byte that names no decoder. -/
  | noFormat
  /-- The selected decoder has no row with this code (CRCC 3, DEC 1, ENC 1 and 2, a tag above 15, and so on). -/
  | noSuchCode
  /-- A filter-type byte 5 to 255 (30_encoding.md R106). -/
  | noSuchFilter
  /-- An operand field is too short, too long or holds no value of its type. -/
  | badOperands
deriving DecidableEq, Repr

/-- A run of 32-bit words, big-endian. -/
def wordsOfBytes : List Byte → Option (List Word)
  | [] => some []
  | b0 :: b1 :: b2 :: b3 :: rest => (wordsOfBytes rest).map (be32 b0 b1 b2 b3 :: ·)
  | _ => none

/-- The decoder of format `chunk_type`: the type, then the declared length, as a chunk header's two fields (30 R92, R118). -/
def decodeChunk : List Byte → Except Reject Instr
  | [t0, t1, t2, t3, l0, l1, l2, l3] =>
    let ty := be32 t0 t1 t2 t3
    let len := be32 l0 l1 l2 l3
    match classify ty with
    | .ihdr => .ok (.chunkIhdr len)
    | .plte => .ok (.chunkPlte len)
    | .trns => .ok (.chunkTrns len)
    | .gama => .ok (.chunkGama len)
    | .idat => .ok (.chunkIdat len)
    | .iend => .ok (.chunkIend len)
    | .ancillary => .ok (.chunkAncillaryUnknown ty len)
    | .critical => .ok (.chunkCriticalUnknown ty len)
  | _ => .error .badOperands

/-- The decoder of format `filter_byte`, decode direction: the filter-type byte, then the scanline's data. -/
def decodeDefilt : List Byte → Except Reject Instr
  | c :: data =>
    match filterOfByte c with
    | some .none => .ok (.defiltNone data)
    | some .sub => .ok (.defiltSub data)
    | some .up => .ok (.defiltUp data)
    | some .average => .ok (.defiltAvg data)
    | some .paeth => .ok (.defiltPaeth data)
    | none => .error .noSuchFilter
  | [] => .error .noSuchFilter

/-- The decoder of format `filter_byte`, encode direction: the filter-type byte, then the row number. -/
def decodeFilt : List Byte → Except Reject Instr
  | c :: row =>
    match filterOfByte c with
    | some .none => .ok (.filtNone (natOfBytes row))
    | some .sub => .ok (.filtSub (natOfBytes row))
    | some .up => .ok (.filtUp (natOfBytes row))
    | some .average => .ok (.filtAvg (natOfBytes row))
    | some .paeth => .ok (.filtPaeth (natOfBytes row))
    | none => .error .noSuchFilter
  | [] => .error .noSuchFilter

/-- The decoder of format `tag`: the tag, then the delivered bytes. -/
def decodeTag : List Byte → Except Reject Instr
  | c :: data =>
    match tagOfByte c with
    | some .sig => .ok (.kSig data)
    | some .hdr => .ok (.kHdr data)
    | some .ihdr => .ok (.kIhdr data)
    | some .plte => .ok (.kPlte data)
    | some .trns => .ok (.kTrns data)
    | some .gama => .ok (.kGama data)
    | some .idat => .ok (.kIdat data)
    | some .iend => .ok (.kIend data)
    | some .skip => .ok (.kSkip data)
    | some .crc => .ok (.kCrc data)
    | some .user0 => .ok (.kUser0 data)
    | some .user1 => .ok (.kUser1 data)
    | some .user2 => .ok (.kUser2 data)
    | some .user3 => .ok (.kUser3 data)
    | some .user4 => .ok (.kUser4 data)
    | some .user5 => .ok (.kUser5 data)
    | none => .error .noSuchCode
  | [] => .error .noSuchCode

/-- An operation that takes no operand bytes. -/
def plain (i : Instr) : List Byte → Except Reject Instr
  | [] => .ok i
  | _ :: _ => .error .badOperands

/-- The operands of `DB.REQUEST`: `allowLess` (0 or 1), `tag`, then `length`. -/
def decodeRequest : List Byte → Except Reject Instr
  | al :: tag :: length =>
    match al.toNat, tagOfByte tag with
    | 0, some t => .ok (.dbRequest (natOfBytes length) false t)
    | 1, some t => .ok (.dbRequest (natOfBytes length) true t)
    | _, _ => .error .badOperands
  | _ => .error .badOperands

/-- The decoder of port `DBC` (30_encoding.md R109). -/
def decodeDbc : List Byte → Except Reject Instr
  | c :: ops =>
    match c.toNat with
    | 0 => .ok (.dbPush ops)
    | 1 => decodeRequest ops
    | 2 => .ok (.dbClose ops)
    | 3 => plain .dbDispose ops
    | _ => .error .noSuchCode
  | [] => .error .noSuchCode

/-- The decoder of port `CRCC` (30_encoding.md R110): code 3 is no command. -/
def decodeCrcc : List Byte → Except Reject Instr
  | c :: ops =>
    match c.toNat with
    | 0 => plain .crcInit ops
    | 1 => .ok (.crcUpdate ops)
    | 2 => plain .crcFinal ops
    | _ => .error .noSuchCode
  | [] => .error .noSuchCode

/-- The decoder of the decode session's port (30_encoding.md R111): code 1 is no command. -/
def decodeDec : List Byte → Except Reject Instr
  | c :: ops =>
    match c.toNat with
    | 0 => .ok (.decPush ops)
    | 2 => .ok (.decClose ops)
    | 3 => plain .decDispose ops
    | _ => .error .noSuchCode
  | [] => .error .noSuchCode

/-- The operands of `ENC.START`: width, height, then the pixels. -/
def decodeStart : List Byte → Except Reject Instr
  | w0 :: w1 :: w2 :: w3 :: h0 :: h1 :: h2 :: h3 :: pixels =>
    .ok (.encStart (be32 w0 w1 w2 w3) (be32 h0 h1 h2 h3) pixels)
  | _ => .error .badOperands

/-- The decoder of the encode session's port (30_encoding.md R111): codes 1 and 2 are no commands. -/
def decodeEnc : List Byte → Except Reject Instr
  | c :: ops =>
    match c.toNat with
    | 0 => decodeStart ops
    | 3 => plain .encDispose ops
    | _ => .error .noSuchCode
  | [] => .error .noSuchCode

/-- `i` where it is well formed, a rejection where it is not. -/
def checked (i : Instr) : Except Reject Instr := if i.wf then .ok i else .error .badOperands

/-- The decoder of the internal steps: which agent's step the schedule takes. The codes are the model's, in the table's
order (log 3). -/
def decodeInternal : List Byte → Except Reject Instr
  | c :: ops =>
    match c.toNat with
    | 0 => plain .pStart ops
    | 1 => plain .dbServe ops
    | 2 => plain .dbDrainend ops
    | 3 => .ok (.inflOut (natOfBytes ops))
    | 4 => .ok (.feFeed ops)
    | 5 => plain .feLine ops
    | 6 => plain .feFinish ops
    | 7 => plain .pkSig ops
    | 8 => plain .pkIhdr ops
    | 9 => plain .feEncline ops
    | 10 => .ok (.deflOut (natOfBytes ops))
    | 11 => checked (.pkIdat ops)
    | 12 => plain .deflDone ops
    | 13 => plain .pkIend ops
    | _ => .error .noSuchCode
  | [] => .error .noSuchCode

/-- The operand of `TBL`: one byte. -/
def decodeTbl : List Byte → Except Reject Instr
  | [n] => .ok (.tbl n)
  | _ => .error .badOperands

/-- The operands of `PAETH`: left, above, upLeft. -/
def decodePaeth : List Byte → Except Reject Instr
  | [l, a, u] => .ok (.paeth l a u)
  | _ => .error .badOperands

/-- The operands of `PRED`: a filter type, left, up, upLeft; `PRED` is not defined for a type above 4 (43 R254). -/
def decodePred : List Byte → Except Reject Instr
  | [f, l, u, ul] =>
    match filterOfByte f with
    | some t => .ok (.pred t l u ul)
    | none => .error .noSuchFilter
  | _ => .error .badOperands

/-- The operands of `PK.CHUNK`: the type, then the payload. -/
def decodePkChunk : List Byte → Except Reject Instr
  | t0 :: t1 :: t2 :: t3 :: payload => checked (.pkChunk (be32 t0 t1 t2 t3) payload)
  | _ => .error .badOperands

/-- The operands of `teardown`: the error code, then the info as 32-bit words. -/
def decodeTeardown : List Byte → Except Reject Instr
  | e :: info =>
    match errorOfByte e, wordsOfBytes info with
    | some k, some ws => .ok (.teardown k ws)
    | _, _ => .error .badOperands
  | [] => .error .badOperands

/-- The decoder of the functions, codes in the table's order (log 3). -/
def decodeFunction : List Byte → Except Reject Instr
  | c :: ops =>
    match c.toNat with
    | 0 => .ok (.crc32 ops)
    | 1 => decodeTbl ops
    | 2 => decodePaeth ops
    | 3 => decodePred ops
    | 4 => decodePkChunk ops
    | 5 => plain .finalize ops
    | 6 => decodeTeardown ops
    | _ => .error .noSuchCode
  | [] => .error .noSuchCode

/-- The decoder of one operation: a selector byte that says which decoder reads the rest (log 3). -/
def decode : List Byte → Except Reject Instr
  | f :: rest =>
    match f.toNat with
    | 0 => decodeChunk rest
    | 1 => decodeDefilt rest
    | 2 => decodeFilt rest
    | 3 => decodeTag rest
    | 4 => decodeDbc rest
    | 5 => decodeCrcc rest
    | 6 => decodeDec rest
    | 7 => decodeEnc rest
    | 8 => decodeInternal rest
    | 9 => decodeFunction rest
    | _ => .error .noFormat
  | [] => .error .noFormat

/-! ### The encoder -/

/-- One byte for a 1-bit operand. -/
def boolByte (b : Bool) : Byte := if b then 1 else 0

/-- The bytes of an operation, from the spec's codes and the model's layout of operands. -/
def encode : Instr → List Byte
  | .chunkIhdr len => 0 :: (bytes32 tyIHDR ++ bytes32 len)
  | .chunkPlte len => 0 :: (bytes32 tyPLTE ++ bytes32 len)
  | .chunkTrns len => 0 :: (bytes32 tyTRNS ++ bytes32 len)
  | .chunkGama len => 0 :: (bytes32 tyGAMA ++ bytes32 len)
  | .chunkIdat len => 0 :: (bytes32 tyIDAT ++ bytes32 len)
  | .chunkIend len => 0 :: (bytes32 tyIEND ++ bytes32 len)
  | .chunkAncillaryUnknown ty len => 0 :: (bytes32 ty ++ bytes32 len)
  | .chunkCriticalUnknown ty len => 0 :: (bytes32 ty ++ bytes32 len)
  | .defiltNone data => 1 :: FilterType.none.byte :: data
  | .defiltSub data => 1 :: FilterType.sub.byte :: data
  | .defiltUp data => 1 :: FilterType.up.byte :: data
  | .defiltAvg data => 1 :: FilterType.average.byte :: data
  | .defiltPaeth data => 1 :: FilterType.paeth.byte :: data
  | .filtNone y => 2 :: FilterType.none.byte :: natBytes y
  | .filtSub y => 2 :: FilterType.sub.byte :: natBytes y
  | .filtUp y => 2 :: FilterType.up.byte :: natBytes y
  | .filtAvg y => 2 :: FilterType.average.byte :: natBytes y
  | .filtPaeth y => 2 :: FilterType.paeth.byte :: natBytes y
  | .kSig data => 3 :: Tag.sig.byte :: data
  | .kHdr data => 3 :: Tag.hdr.byte :: data
  | .kIhdr data => 3 :: Tag.ihdr.byte :: data
  | .kPlte data => 3 :: Tag.plte.byte :: data
  | .kTrns data => 3 :: Tag.trns.byte :: data
  | .kGama data => 3 :: Tag.gama.byte :: data
  | .kIdat data => 3 :: Tag.idat.byte :: data
  | .kIend data => 3 :: Tag.iend.byte :: data
  | .kSkip data => 3 :: Tag.skip.byte :: data
  | .kCrc data => 3 :: Tag.crc.byte :: data
  | .kUser0 data => 3 :: Tag.user0.byte :: data
  | .kUser1 data => 3 :: Tag.user1.byte :: data
  | .kUser2 data => 3 :: Tag.user2.byte :: data
  | .kUser3 data => 3 :: Tag.user3.byte :: data
  | .kUser4 data => 3 :: Tag.user4.byte :: data
  | .kUser5 data => 3 :: Tag.user5.byte :: data
  | .dbPush bytes => 4 :: 0 :: bytes
  | .dbRequest length allowLess tag => 4 :: 1 :: boolByte allowLess :: tag.byte :: natBytes length
  | .dbClose last => 4 :: 2 :: last
  | .dbDispose => [4, 3]
  | .crcInit => [5, 0]
  | .crcUpdate bytes => 5 :: 1 :: bytes
  | .crcFinal => [5, 2]
  | .decPush bytes => 6 :: 0 :: bytes
  | .decClose last => 6 :: 2 :: last
  | .decDispose => [6, 3]
  | .encStart width height pixels => 7 :: 0 :: (bytes32 width ++ bytes32 height ++ pixels)
  | .encDispose => [7, 3]
  | .pStart => [8, 0]
  | .dbServe => [8, 1]
  | .dbDrainend => [8, 2]
  | .inflOut k => 8 :: 3 :: natBytes k
  | .feFeed bytes => 8 :: 4 :: bytes
  | .feLine => [8, 5]
  | .feFinish => [8, 6]
  | .pkSig => [8, 7]
  | .pkIhdr => [8, 8]
  | .feEncline => [8, 9]
  | .deflOut k => 8 :: 10 :: natBytes k
  | .pkIdat block => 8 :: 11 :: block
  | .deflDone => [8, 12]
  | .pkIend => [8, 13]
  | .crc32 bytes => 9 :: 0 :: bytes
  | .tbl n => [9, 1, n]
  | .paeth left above upLeft => [9, 2, left, above, upLeft]
  | .pred f left up upLeft => [9, 3, f.byte, left, up, upLeft]
  | .pkChunk ty payload => 9 :: 4 :: (bytes32 ty ++ payload)
  | .finalize => [9, 5]
  | .teardown kind info => 9 :: 6 :: BitVec.ofNat 8 kind.code :: info.flatMap bytes32

/-! ### A table row's word -/

/-- How many operand bytes, all zero, a tag row's word is given: what the tag's rule is written for (42 R193 to R219). -/
def Tag.zeroOperand : Tag → Nat
  | .sig => 8
  | .hdr => 8
  | .ihdr => 13
  | .plte => 3
  | .gama => 4
  | .idat => 1
  | .skip => 4
  | .crc => 4
  | _ => 0

/-- The bytes of an operation whose table bits are `w`, its operands all zero. A 32-bit word is a chunk type; of the rows
with codes of at most eight bits, which overlap (a filter byte, a tag and the four ports' codes all use 0), it is read as a
continuation tag (log 4). -/
def tableWord (nbits w : Nat) : Option (List Byte) :=
  if nbits = 32 then some (0 :: (bytes32 (BitVec.ofNat 32 w) ++ bytes32 0))
  else if nbits = 8 ∧ w < 256 then
    match tagOfByte (BitVec.ofNat 8 w) with
    | some t => some (3 :: t.byte :: List.replicate t.zeroOperand 0)
    | none => none
  else none

/-- The operation the decoder reads from a table row's bits. -/
def decodeTableWord (nbits w : Nat) : Option Instr :=
  match tableWord nbits w with
  | some bytes =>
    match decode bytes with
    | .ok i => some i
    | .error _ => none
  | none => none

end Sys2Proof
end

