-- ==== Sys2Proof/Machine/State.lean ====
section
/-! DEFINITION. The state of one session (spec/10_state.md R20), as plain data; the reasons a step can stop; and the state
right after reset, the construction of a session (spec/70_reset_and_hazards.md R400 to R403). -/

namespace Sys2Proof.Machine

/-- The kinds of instance: a decode session, an encode session (00_scope.md R9), a Demand Buffer or a CRC Engine used on
its own (70 R403). -/
inductive Kind where
  | decode | encode | buffer | crc
deriving DecidableEq, Repr

/-- A byte-addressed memory: the bytes that have been written, addresses strictly rising. An address that is not listed
holds no value (log 8). -/
abbrev Memory := List Host.Cell

/-- The CRC Engine (10_state.md R21). `seeded` is the model's own: `acc` has been written, and is what a command of port CRCC
reads; before that a command reads a free value (log 7). -/
structure Crc where
  acc : Word
  seeded : Bool
deriving DecidableEq, Repr

/-- A read request (10_state.md R24). -/
structure Request where
  length : Nat
  allowLess : Bool
  tag : Tag
deriving DecidableEq, Repr

/-- `DB.phase` (10_state.md R26). -/
inductive DbPhase where
  | opened | closing | finalized | disposed
deriving DecidableEq, Repr

/-- The Demand Buffer (10_state.md R22 to R26), blocks and requests oldest first. -/
structure Db where
  blocks : List (List Byte)
  reads : List Request
  paused : Bool
  phase : DbPhase
deriving DecidableEq, Repr

/-- `P.state` (10_state.md R27). -/
inductive PState where
  | awaitSignature | awaitChunkHeader | dispatchChunk | awaitChunkCRC | terminated | failed
deriving DecidableEq, Repr

/-- `P.kind` (10_state.md R28). -/
inductive ChunkKind where
  | ihdr | plte | trns | gama | idat | iend | skip
deriving DecidableEq, Repr

/-- The Chunk Parser's registers (10_state.md R27 to R32, R36). -/
structure Parser where
  state : PState
  kind : ChunkKind
  length : Word
  type : Word
  remaining : Nat
  hasIHDR : Bool
  hasIEND : Bool
  gamma : Word
  gammaValid : Bool
deriving DecidableEq, Repr

/-- The header registers `H.*` (10_state.md R33). -/
structure Header where
  width : Word
  height : Word
  bitDepth : Byte
  colorType : Byte
  compression : Byte
  filter : Byte
  interlace : Byte
deriving DecidableEq, Repr

/-- The palette: `PAL.size` and the memory `PAL` (10_state.md R37, 20_memory.md R63). -/
structure Palette where
  size : Nat
  mem : Memory
deriving DecidableEq, Repr

/-- `FE.mode` (10_state.md R38). -/
inductive FeMode where
  | decode | encode
deriving DecidableEq, Repr

/-- The Filter Engine's registers (10_state.md R38 to R42). -/
structure Fe where
  live : Bool
  mode : FeMode
  width : Nat
  height : Nat
  bpp : Nat
  row : Nat
  inq : List Byte
  done : Bool
deriving DecidableEq, Repr

/-- The configuration registers (10_state.md R44 to R46). `candidates` holds any bytes; which lists are legal is R45. The
types of `chunkSize`, `level` and `strategy` are open in the spec; naturals are the model's choice (log 19). -/
structure Cfg where
  checkCRC : Bool
  candidates : List Byte
  chunkSize : Nat
  level : Nat
  strategy : Nat
deriving DecidableEq, Repr

/-- `PK.phase` (10_state.md R47). -/
inductive PkPhase where
  | idle | sig | ihdr | data | done | failed
deriving DecidableEq, Repr

/-- The model state of an external transform, `INFL` or `DEFL` (10_state.md R51, R52). -/
structure Transform where
  input : List Byte
  ended : Bool
  emitted : Nat
  live : Bool
deriving DecidableEq, Repr

/-- The events of 60_exceptions.md R380. The info of `error` is a list of 32-bit words (log 20). -/
inductive Event where
  | drain
  | finished
  | deliver (tag : Tag) (bytes : List Byte)
  | metadata (width height : Word) (palette color alpha : Bool)
  | gamma (value : Word)
  | complete (width height : Nat) (pixels : List Byte)
  | error (code : Nat) (info : List Word)
  | data (bytes : List Byte)
  | endOfStream
deriving DecidableEq, Repr

/-- The value an operation returned at its port (`CRC.FINAL` 40 R134, the functions). The model's own register (log 9). -/
inductive Result where
  | nothing
  | bits (v : Word)
  | byte (v : Byte)
  | bytes (v : List Byte)
deriving DecidableEq, Repr

/-- One entry of the agenda: an operation, as the bytes offered to the decoder; a configuration write (70 R405); or the
construction of a session (70 R400) (log 2, log 19, log 22). -/
inductive Input where
  | op (word : List Byte)
  | cfgCheckCRC (on : Bool)
  | cfgCandidates (types : List Byte)
  | cfgTransform (chunkSize level strategy : Nat)
  | construct (kind : Kind) (par : Config.Params)
deriving DecidableEq, Repr

/-- The state of one session (10_state.md R20): the units' registers and memories, the configuration, `S.err`, `LOG`, the
external transforms' model state; and the model's own fields `started`, `result`, `par`, `agenda`. -/
structure State where
  /-- which units the instance has (00 R9, 70 R403) -/
  kind : Kind
  crc : Crc
  db : Db
  p : Parser
  h : Header
  pal : Palette
  fe : Fe
  /-- the pixel memory (10 R43, 20 R60) -/
  pix : Memory
  cfg : Cfg
  /-- `PK.phase` -/
  pk : PkPhase
  /-- `S.err`, `none` for 0 (10 R49) -/
  err : Option ErrorKind
  /-- `LOG`, oldest first (10 R50) -/
  log : List Event
  infl : Transform
  defl : Transform
  /-- the session's first command has been given (70 R405); the model's own -/
  started : Bool
  result : Result
  /-- the instance's parameters (00 R10), which no operation writes -/
  par : Config.Params
  /-- what the schedule and the HOST still have to offer, oldest first; the model's own -/
  agenda : List Input
deriving DecidableEq, Repr

/-- `S.err` as a number: 0, or the code of the error (10_state.md R49, 60 R351). -/
def State.errCode (s : State) : Nat :=
  match s.err with
  | none => 0
  | some e => e.code

/-- Faults: a byte stream the block accepted leads a rule outside its defined domain (93_implementation_defined.md,
treatment "fault"). All are safe: the model stops where the source is silent. -/
inductive Fault where
  /-- U4: `K.IHDR`, `K.GAMA` or `K.IEND` is delivered a payload of another length than 13, 4, 0. Safe. -/
  | payloadLength
  /-- U5: `K.PLTE` is delivered a length that is no multiple of 3. Safe. -/
  | paletteLength
  /-- U6: `K.PLTE` would bring `PAL.size` above 256. Safe. -/
  | paletteOverflow
  /-- U7: `K.HDR` dispatches an IHDR with `P.hasIHDR` already true. Safe. -/
  | secondHeader
  /-- U11: `FE.LINE` meets a filter-type byte 5 to 255. Safe. -/
  | filterType
  /-- U12: `K.IHDR` accepts a header with width or height zero. Safe. -/
  | zeroDimension
  /-- U13: `FE.FINISH` meets a palette index that is not below `PAL.size`. Safe. -/
  | paletteIndex
  /-- U14: by parameter, `INFL` or `DEFL` rejects what it has been given. Safe. -/
  | transformRejected
  /-- A continuation is delivered another number of bytes than its own request asks for: excluded by 42 R192, raised by
  `K.HDR` and `K.CRC` in states no run reaches. Safe (log 18). -/
  | deliveredLength
  /-- `INFL.PUSH` on a transform that is not live or has been told the end of its input: excluded by 20 R76, raised in
  states no run reaches. Safe (log 17). -/
  | transformClosed
deriving DecidableEq, Repr

/-- Refusals: a command the spec gives no meaning (93_implementation_defined.md, treatment "refuse"), a unit the session
does not have, or bytes the decoder rejects. All are safe: the model says nothing of what follows. -/
inductive Refusal where
  /-- An operation of the table that has no meaning yet; raised by `exec` only. Safe. -/
  | notModelled (mnemonic : String)
  /-- `step`: the decoder rejects the bytes of the agenda's next operation. Safe. -/
  | undecodable (why : Reject)
  /-- U1: a push of no bytes. Safe. -/
  | emptyPush
  /-- U2: an at-most read of length 0. Safe. -/
  | emptyAtMostRead
  /-- U3: a command at a port, or a parser tag, that the session owns internally. Safe. -/
  | ownedBySession
  /-- A command for a unit or port that this kind of session does not have (00 R9, 30 R111). Safe. -/
  | unitAbsent
  /-- U12: `ENC.START` with width or height zero. Safe. -/
  | zeroDimension
  /-- U17: `CFG.candidates` is neither `[0,1,2,3,4]` nor one type 0 to 4. Safe. -/
  | illegalCandidates
  /-- U18: `ENC.START` on a session that is not `Idle`. Safe. -/
  | notIdle
  /-- U18: `ENC.START` with another number of pixel bytes than width*height*4. Safe. -/
  | pixelCount
  /-- U19: a configuration write after the session's first command. Safe. -/
  | lateConfiguration
  /-- U21: a push beyond `DB_CAPACITY`. Safe. -/
  | bufferFull
  /-- U21: a request beyond `DB_MAXREADS`, the first read of a decode session under construction included (log 25). Safe. -/
  | readsFull
  /-- U21: an image beyond `MAX_PIXELS`. Safe. -/
  | tooManyPixels
  /-- A chunk payload of 2^32 bytes or more (45 R327, log 21). Safe. -/
  | chunkTooLong
deriving DecidableEq, Repr

/-- What a step answers. -/
abbrev Out := Host.Outcome State Fault Refusal

/-- A freshly constructed session of the given kind before its last act of reset (10_state.md R53; 70 R401 to R403). The
registers R53 leaves unspecified hold the values of log 6. -/
def State.fresh (kind : Kind) (par : Config.Params) : State where
  kind := kind
  crc := { acc := 0, seeded := false }
  db := { blocks := [], reads := [], paused := false, phase := .opened }
  p := { state := .awaitSignature, kind := .ihdr, length := 0, type := 0, remaining := 0, hasIHDR := false,
         hasIEND := false, gamma := 0, gammaValid := false }
  h := { width := 0, height := 0, bitDepth := 0, colorType := 0, compression := 0, filter := 0, interlace := 0 }
  pal := { size := 0, mem := [] }
  fe := { live := false, mode := .decode, width := 0, height := 0, bpp := 0, row := 0, inq := [], done := false }
  pix := []
  cfg := { checkCRC := true, candidates := [0, 1, 2, 3, 4], chunkSize := 0, level := 0, strategy := 0 }
  pk := .idle
  err := none
  log := []
  infl := { input := [], ended := false, emitted := 0, live := true }
  defl := { input := [], ended := false, emitted := 0, live := true }
  started := false
  result := .nothing
  par := par
  agenda := []

/-- The first read of a decode session, placed by `P.START` as the last act of its reset (42 R191, 70 R401). -/
def firstReads : Kind → List Request
  | .decode => [{ length := 8, allowLess := false, tag := .sig }]
  | _ => []

/-- A constructed session (70_reset_and_hazards.md R400 to R403), its first read placed as R401 gives it. On an instance with
`DB_MAXREADS` 0, where 20_memory.md R78 refuses that request, the spec does not say what reset does: `constructSession`
refuses the construction (DESIGN CHOICE, log 25), and this state is not reached. -/
def State.construct (kind : Kind) (par : Config.Params) : State :=
  { State.fresh kind par with
    db := { blocks := [], reads := firstReads kind, paused := false, phase := .opened } }

/-- The machine right after reset: a decode session (R401) with the default parameters and nothing on its agenda. That the
instance after reset is a decode session is a DESIGN CHOICE (log 1). -/
def State.reset : State := State.construct .decode Config.Params.initial

end Sys2Proof.Machine
end

