-- ==== Sys2Proof/Machine/Operands.lean ====
section
/-! DEFINITION. The operand forms: the front of the block store, the length of an at-most read, the values derived from the
header, addresses and channels of the pixel memory, the legal candidate lists, and the external transforms' streams. -/

namespace Sys2Proof.Machine

/-! ### The block store (41_demand_buffer.md) -/

/-- `DB.buffered`: the bytes pushed and not yet delivered or discarded (10_state.md R23). -/
def buffered (blocks : List (List Byte)) : Nat := (blocks.map List.length).sum

/-- `takefront(blocks, k)`: the first `k` bytes, and what is left; a block the read ends inside is cut (41 R161, R163). -/
def takefront : List (List Byte) → Nat → List Byte × List (List Byte)
  | [], _ => ([], [])
  | b :: bs, k =>
    if k = 0 then ([], b :: bs)
    else if b.length ≤ k then
      let r := takefront bs (k - b.length)
      (b ++ r.1, r.2)
    else (b.take k, b.drop k :: bs)

/-- `TAKE(n, blocks)`: how many bytes an at-most read of `n` delivers (41 R162). -/
def takeCount (policy : Config.TakePolicy) (n : Nat) (blocks : List (List Byte)) : Nat :=
  match policy with
  | .firstBlock => min n (blocks.headD []).length
  | .buffered => min n (buffered blocks)
  | .upTo c => max 1 (min c (min n (buffered blocks)))

/-- How many bytes `DB.SERVE` delivers to a request (41 R160). -/
def serveCount (policy : Config.TakePolicy) (r : Request) (blocks : List (List Byte)) : Nat :=
  if r.allowLess then takeCount policy r.length blocks else r.length

/-- May a delivery of `k` bytes answer the request, `blocks` being buffered? Exactly `length` bytes, or for an at-most read
any number in the range of `TAKE` (41 R160, R162). -/
def answers (r : Request) (k : Nat) (blocks : List (List Byte)) : Bool :=
  if r.allowLess then decide (1 ≤ k ∧ k ≤ r.length ∧ k ≤ buffered blocks)
  else decide (k = r.length ∧ k ≤ buffered blocks)

/-- A tag of the parser, 0 to 9; the others belong to an outside client (30_encoding.md R115). -/
def isParserTag : Tag → Bool
  | .sig | .hdr | .ihdr | .plte | .trns | .gama | .idat | .iend | .skip | .crc => true
  | .user0 | .user1 | .user2 | .user3 | .user4 | .user5 => false

/-! ### The header (10_state.md R34) -/

/-- `H.bpp` from the colour type, bytes per pixel in the filtered representation (10_state.md R34). -/
def bppOf (colorType : Byte) : Nat :=
  match colorType.toNat with
  | 0 => 1
  | 2 => 3
  | 3 => 1
  | 4 => 2
  | 6 => 4
  | _ => 0

/-- The colour types of the list in 42 R205. -/
def legalColorType (ct : Byte) : Bool := ct == 0 || ct == 2 || ct == 3 || ct == 4 || ct == 6

/-- `validate`: the first of the five checks that fails, with the byte it fails on (42_chunk_parser.md R205). -/
def validate (bd ct cm fm il : Byte) : Option (ErrorKind × Byte) :=
  if bd ≠ 8 then some (.unsupportedBitDepth, bd)
  else if ¬ legalColorType ct then some (.unsupportedColorType, ct)
  else if cm ≠ 0 then some (.unsupportedCompressionMethod, cm)
  else if fm ≠ 0 then some (.unsupportedFilterMethod, fm)
  else if il ≠ 0 then some (.unsupportedInterlaceMethod, il)
  else none

/-- The eight signature bytes (30_encoding.md R91). -/
def signature : List Byte := [0x89, 0x50, 0x4E, 0x47, 0x0D, 0x0A, 0x1A, 0x0A]

/-! ### The pixel memory (20_memory.md R60) -/

/-- `PIXADDR(y,x,c)` for an image of the given width (20_memory.md R60). -/
def pixAddr (width y x c : Nat) : Nat := (y * width + x) * 4 + c

/-- `CHANMAP[bpp]`, the source channel of each output channel, `none` for ABSENT (43_filter_decode.md R253). -/
def chanMap (bpp : Nat) : List (Option Nat) :=
  match bpp with
  | 1 => [some 0, some 0, some 0, none]
  | 2 => [some 0, some 0, some 0, some 1]
  | 3 => [some 0, some 1, some 2, none]
  | 4 => [some 0, some 1, some 2, some 3]
  | _ => [none, none, none, none]

/-- `CHANMAP[bpp][c]`. -/
def channel (bpp c : Nat) : Option Nat := ((chanMap bpp)[c]?).getD none

/-- The five filter types in the order the default candidate list tries them (44_filter_encode.md R301, D15). -/
def allFilters : List FilterType := [.none, .sub, .up, .average, .paeth]

/-- The candidates of a legal `CFG.candidates`: `[0,1,2,3,4]`, or one type 0 to 4 (10_state.md R45); `none` otherwise. -/
def candidateTypes (l : List Byte) : Option (List FilterType) :=
  if l = [0, 1, 2, 3, 4] then some allFilters
  else match l with
    | [t] => (filterOfByte t).map ([·])
    | _ => none

/-! ### The external transforms (20_memory.md R76, R77) -/

/-- The point of a graph for the longest input that is a prefix of `x`; no input and no output where there is none. -/
def longestPrefix (x : List Byte) : List (List Byte × List Byte) → List Byte × List Byte
  | [] => ([], [])
  | e :: es =>
    let best := longestPrefix x es
    if e.1.isPrefixOf x = true ∧ best.1.length ≤ e.1.length then e else best

/-- `INFLATE_STREAM(x)`: what the instance's graph gives for the longest listed prefix of `x` (log 11). -/
def inflateStream (par : Config.Params) (x : List Byte) : List Byte := (longestPrefix x par.inflate).2

/-- Does the point belong to this configuration of `DEFL`? -/
def deflPointFor (cfg : Cfg) (e : Config.DeflPoint) : Bool :=
  e.chunkSize == cfg.chunkSize && e.level == cfg.level && e.strategy == cfg.strategy

/-- What `DEFL` can have produced before the end of its input: the longest listed prefix (log 11). -/
def deflOpenStream (par : Config.Params) (cfg : Cfg) (x : List Byte) : List Byte :=
  (longestPrefix x ((par.deflate.filter (fun e => deflPointFor cfg e && !e.ended)).map
    (fun e => (e.input, e.output)))).2

/-- `DEFLATE_STREAM(cfg, x, ended)`: after the end of input, the point listed for exactly `x`, and where there is none what
the open stream gives (log 11). -/
def deflateStream (par : Config.Params) (cfg : Cfg) (x : List Byte) (ended : Bool) : List Byte :=
  match par.deflate.find? (fun e => ended && e.ended && deflPointFor cfg e && e.input == x) with
  | some e => e.output
  | none => deflOpenStream par cfg x

/-- The output `INFL` has for the bytes pushed so far and has not handed over (20 R76). -/
def inflPending (s : State) : List Byte := (inflateStream s.par s.infl.input).drop s.infl.emitted

/-- The output `DEFL` has for the bytes pushed so far and has not handed over (20 R77). -/
def deflPending (s : State) : List Byte :=
  (deflateStream s.par s.cfg s.defl.input s.defl.ended).drop s.defl.emitted

/-- Does a limit, where there is one, forbid `n` (20_memory.md R78)? -/
def exceeds (limit : Option Nat) (n : Nat) : Bool :=
  match limit with
  | none => false
  | some m => decide (m < n)

end Sys2Proof.Machine
end

