-- ==== Sys2Proof/Machine/Flags.lean ====
section
/-! DEFINITION. The flag computations: the pause rule, the colour flags, and when each internal step is enabled. -/

namespace Sys2Proof.Machine

/-- `DB.paused` after an accepted push: set when no read is queued, else as it was (41_demand_buffer.md R151, R153). -/
def pausedAfterPush (db : Db) : Bool := if db.reads = [] then true else db.paused

/-- The colour flags palette, color, alpha: bits 0, 1, 2 of the colour type (10_state.md R35). -/
def colorFlags (ct : Byte) : Bool × Bool × Bool := (ct.getLsbD 0, ct.getLsbD 1, ct.getLsbD 2)

/-- Does the instance have a Demand Buffer (00_scope.md R9, 70 R403)? -/
def hasBuffer : Kind → Bool
  | .decode => true
  | .buffer => true
  | .encode => false
  | .crc => false

/-- A phase in which reads are served (41 R160). -/
def servingPhase : DbPhase → Bool
  | .opened => true
  | .closing => true
  | .finalized => false
  | .disposed => false

/-- Can the request be served from what is buffered (41 R160)? -/
def servable (r : Request) (blocks : List (List Byte)) : Bool :=
  if r.allowLess then decide (0 < buffered blocks) else decide (r.length ≤ buffered blocks)

/-- The session has a Demand Buffer that serves reads, and is not dead (41 R160, 60 R373). -/
def serving (s : State) : Bool := hasBuffer s.kind && s.err.isNone && servingPhase s.db.phase

/-- `DB.SERVE` is enabled (41 R160). -/
def serveEnabled (s : State) : Bool :=
  serving s && match s.db.reads with
    | [] => false
    | r :: _ => servable r s.db.blocks

/-- `DB.DRAINEND` is enabled (41 R167). -/
def drainEnabled (s : State) : Bool :=
  hasBuffer s.kind && s.err.isNone && s.db.phase == .closing && !serveEnabled s

/-- The step "`DB.SERVE` delivers `data` to `tag`" is enabled: the head request carries the tag, `data` is what is buffered
first, and its length answers the request (41 R160 to R162). -/
def delivers (tag : Tag) (data : List Byte) (s : State) : Bool :=
  serving s && match s.db.reads with
    | [] => false
    | r :: _ => r.tag == tag && answers r data.length s.db.blocks
        && (takefront s.db.blocks data.length).1 == data

/-- `LINE`, the length of one filtered scanline (10_state.md R39). -/
def lineLength (fe : Fe) : Nat := 1 + fe.width * fe.bpp

/-- The Filter Engine of a decode session that is not dead is live and in decode mode. -/
def defilterLive (s : State) : Bool :=
  s.kind == .decode && s.err.isNone && s.fe.live && s.fe.mode == .decode

/-- `FE.LINE` is enabled (43_filter_decode.md R259). -/
def lineEnabled (s : State) : Bool :=
  defilterLive s && !s.fe.done && decide (s.fe.row < s.fe.height) && decide (lineLength s.fe ≤ s.fe.inq.length)

/-- `FE.FINISH` is enabled (43_filter_decode.md R269). -/
def finishEnabled (s : State) : Bool :=
  defilterLive s && !s.fe.done && decide (s.fe.row = s.fe.height)

/-- `INFL.OUT` handing over `k` bytes is enabled (20_memory.md R76), with `FE.FEED`'s condition (43 R258). -/
def inflOutEnabled (k : Nat) (s : State) : Bool :=
  defilterLive s && s.infl.live && decide (1 ≤ k ∧ k ≤ (inflPending s).length)

/-- An encode session that is not dead, in the given packer phase. -/
def packing (phase : PkPhase) (s : State) : Bool := s.kind == .encode && s.err.isNone && s.pk == phase

/-- `FE.ENCLINE` is enabled (44_filter_encode.md R300), with `DEFL.PUSH`'s condition (20 R77). -/
def enclineEnabled (s : State) : Bool :=
  packing .data s && s.fe.live && s.fe.mode == .encode && decide (s.fe.row < s.fe.height) && !s.defl.ended
    && s.defl.live

/-- `DEFL.OUT` handing over `k` bytes is enabled (20 R77), with `PK.IDAT`'s conditions (45 R324). -/
def deflOutEnabled (k : Nat) (s : State) : Bool :=
  packing .data s && s.defl.live && decide (1 ≤ k ∧ k ≤ (deflPending s).length ∧ k < 2 ^ 32)

/-- `DEFL.DONE` is enabled (20 R77), once because of `PK.IEND`'s phase (45 R325). A transform without output is done at
once: what excludes it is an assumption on the transform (20 R77, 45 R331, log 24). -/
def deflDoneEnabled (s : State) : Bool :=
  packing .data s && s.defl.live && s.defl.ended
    && decide (s.defl.emitted = (deflateStream s.par s.cfg s.defl.input true).length)

/-- `P.START` has not run yet: a decode session before the last act of its reset (42 R191, 70 R401). -/
def startPending (s : State) : Bool :=
  s.kind == .decode && s.err.isNone && s.db.phase == .opened && s.p.state == .awaitSignature && s.db.reads == []

end Sys2Proof.Machine
end

