-- ==== Sys2Proof/Machine/Ops.lean ====
section
/-! DEFINITION. The named operations over memory and registers that the instructions share: the byte memories, the event
log, raising an error (the block's exception entry, teardown), and the Demand Buffer's push, request, close and dispose. -/

namespace Sys2Proof.Machine

/-! ### Byte memories -/

/-- The byte at an address, `none` where nothing has been written. -/
def Memory.read : Memory → Nat → Option Byte
  | [], _ => none
  | (b, v) :: rest, a => if b = a then some v else Memory.read rest a

/-- The memory with one byte written; addresses stay strictly rising. -/
def Memory.write : Memory → Nat → Byte → Memory
  | [], a, v => [(a, v)]
  | (b, w) :: rest, a, v =>
    if a < b then (a, v) :: (b, w) :: rest
    else if a = b then (a, v) :: rest
    else (b, w) :: Memory.write rest a v

/-- `MemWrite(SPACE, a, n, v)`: the bytes written from address `a` on, lowest address first (00_scope.md R15). -/
def Memory.writeBytes : Memory → Nat → List Byte → Memory
  | m, _, [] => m
  | m, a, v :: vs => Memory.writeBytes (Memory.write m a v) (a + 1) vs

/-- The canonical form: addresses strictly rising. An unlisted address holds no value, so no entry can equal it. -/
def Memory.wf : Memory → Bool
  | [] => true
  | [_] => true
  | (a, _) :: (b, w) :: rest => decide (a < b) && Memory.wf ((b, w) :: rest)

/-- A byte of `PIX` as a rule reads it (10_state.md R43): a free value where none has been written (log 8). -/
def pixRead (m : Memory) (a : Nat) : Byte := (m.read a).getD (Config.freePixel a)

/-- A byte of `PAL` as a rule reads it (log 8). -/
def palRead (m : Memory) (a : Nat) : Byte := (m.read a).getD (Config.freePalette a)

/-- The first `n` bytes of `PIX`, as `EV_COMPLETE` carries them. -/
def pixContents (m : Memory) (n : Nat) : List Byte := (List.range n).map (pixRead m)

/-! ### Outcomes, events and results -/

/-- Go on from a next state; a fault or a refusal ends the step. -/
def andThen (o : Out) (f : State → Out) : Out :=
  match o with
  | .next s => f s
  | .fault r => .fault r
  | .refused r => .refused r

/-- `emit EV(args)` (00_scope.md R15). -/
def emit (e : Event) (s : State) : State := { s with log := s.log ++ [e] }

/-- An operation returns a value at its port (log 9). -/
def reply (v : Result) (s : State) : State := { s with result := v }

/-! ### The end of a session (60_exceptions.md) -/

/-- The three writes of `DB.DISPOSE`; `DB.paused` stays (41_demand_buffer.md R169). -/
def disposeBuffer (s : State) : State :=
  { s with db := { s.db with blocks := [], reads := [], phase := .disposed } }

/-- The writes of teardown apart from `S.err` and the event, by kind of session (60_exceptions.md R371, R376). -/
def stop (s : State) : State :=
  match s.kind with
  | .decode =>
    { s with
      db := { s.db with blocks := [], reads := [], phase := .disposed }
      p := { s.p with state := .failed }
      fe := { s.fe with live := false }
      infl := { s.infl with live := false } }
  | .encode =>
    { s with
      pk := .failed
      fe := { s.fe with live := false }
      defl := { s.defl with live := false } }
  | .buffer => { s with db := { s.db with blocks := [], reads := [], phase := .disposed } }
  | .crc => s

/-- `teardown(E, info)`: the one exception entry. It latches the code, emits `EV_ERROR` and stops the units (60 R371). -/
def teardown (e : ErrorKind) (info : List Word) (s : State) : State :=
  stop (emit (.error e.code info) { s with err := some e })

/-- `raise E(info)`: the rule stops and teardown runs in the same step (00_scope.md R15, 60 R371). A next state: the
block's exception is taken. -/
def raise (e : ErrorKind) (info : List Word) (s : State) : Out := .next (teardown e info s)

/-! ### The Demand Buffer's operations -/

/-- `finalize()` (41_demand_buffer.md R166). -/
def finalizeBuffer (s : State) : State :=
  emit .finished { s with db := { s.db with blocks := [], reads := [], phase := .finalized } }

/-- `DB.PUSH(bytes)` (41 R151): `WriteAfterClose` unless `Open`, then the block and the pause rule. No bytes are refused
(U1), and a push beyond the capacity (U21). -/
def pushBlock (bytes : List Byte) (s : State) : Out :=
  if s.db.phase ≠ .opened then raise .writeAfterClose [] s
  else if bytes = [] then .refused .emptyPush
  else if exceeds s.par.capacity (buffered s.db.blocks + bytes.length) then .refused .bufferFull
  else .next { s with db := { s.db with blocks := s.db.blocks ++ [bytes], paused := pausedAfterPush s.db } }

/-- A queued read resumes a paused buffer and signals drain (41 R156, R157). -/
def resume (s : State) : State :=
  if s.db.paused then emit .drain { s with db := { s.db with paused := false } } else s

/-- `DB.REQUEST(length, allowLess, tag)` (41 R156). An at-most read of 0 is refused (U2), and a request beyond the depth of
the read queue (U21). -/
def request (length : Nat) (allowLess : Bool) (tag : Tag) (s : State) : Out :=
  if s.db.phase = .disposed ∨ s.db.phase = .finalized then raise .readAfterDispose [] s
  else if allowLess = true ∧ length = 0 then .refused .emptyAtMostRead
  else if exceeds s.par.maxReads (s.db.reads.length + 1) then .refused .readsFull
  else .next (resume { s with
    db := { s.db with reads := s.db.reads ++ [{ length := length, allowLess := allowLess, tag := tag }] } })

/-- The end of `DB.CLOSE` on an open buffer: it finalizes when no read is pending, else it closes (41 R164). -/
def closeOpen (s : State) : State :=
  if s.db.reads = [] then finalizeBuffer s else { s with db := { s.db with phase := .closing } }

/-- `DB.CLOSE(final?)`, an empty `last` being an absent one (41 R164, R165). -/
def closeBuffer (last : List Byte) (s : State) : Out :=
  if s.db.phase ≠ .opened then
    if last = [] then .next s else raise .writeAfterClose [] s
  else if last = [] then .next (closeOpen s)
  else andThen (pushBlock last s) (fun t => .next (closeOpen t))

/-- The state in which a continuation runs: the head request removed and `k` bytes taken from the front (41 R160). -/
def served (k : Nat) (s : State) : State :=
  { s with db := { s.db with reads := s.db.reads.tail, blocks := (takefront s.db.blocks k).2 } }

/-! ### Commands -/

/-- A command at a port: a dead session ignores it (60 R373); otherwise the session has had its first command (70 R405). -/
def command (s : State) (f : State → Out) : Out :=
  if s.err.isSome then .next s else f { s with started := true }

/-- An internal step: where it is not enabled, its agent waits and the state stays (60 R389, log 5). -/
def whenEnabled (enabled : Bool) (s : State) (o : Out) : Out := if enabled then o else .next s

end Sys2Proof.Machine
end

