-- ==== Sys2Proof/Machine/Crc.lean ====
section
/-! DEFINITION. The CRC Engine (spec/40_crc.md): the table, the byte step, and the commands of port CRCC. The algorithm is
the spec's, which marks it as taken from general knowledge (G1, log 23). -/

namespace Sys2Proof.Machine

/-- One of the eight rounds of `TBL` (40_crc.md R131). -/
def tblRound (c : Word) : Word := if c.getLsbD 0 then 0xEDB88320 ^^^ (c >>> 1) else c >>> 1

/-- `n` rounds. -/
def tblRounds : Nat → Word → Word
  | 0, c => c
  | n + 1, c => tblRounds n (tblRound c)

/-- `TBL(n)` (40_crc.md R131). -/
def tblEntry (n : Byte) : Word := tblRounds 8 (n.setWidth 32)

/-- The byte step (40_crc.md R133). -/
def crcByte (acc : Word) (b : Byte) : Word := tblEntry ((acc ^^^ b.setWidth 32).setWidth 8) ^^^ (acc >>> 8)

/-- Folding a byte sequence into the accumulator, first byte first (40_crc.md R133). -/
def crcFold (acc : Word) (bytes : List Byte) : Word := bytes.foldl crcByte acc

/-- The value of `CRC.INIT` (40_crc.md R132). -/
def crcStart : Word := 0xFFFFFFFF

/-- The value of `CRC.FINAL` (40_crc.md R134). -/
def crcValue (acc : Word) : Word := acc ^^^ 0xFFFFFFFF

/-- `CRC32(s)` (40_crc.md R135). -/
def crcOf (bytes : List Byte) : Word := crcValue (crcFold crcStart bytes)

/-- `CRC.INIT ; CRC.UPDATE(bytes)` inside a session (42 R199, 45 R327). -/
def crcSeed (bytes : List Byte) (s : State) : State :=
  { s with crc := { acc := crcFold crcStart bytes, seeded := true } }

/-- `CRC.UPDATE(bytes)` inside a session. -/
def crcAdd (bytes : List Byte) (s : State) : State :=
  { s with crc := { s.crc with acc := crcFold s.crc.acc bytes } }

/-- A command of port CRCC: of an engine on its own; a session owns its engine (U3). -/
def crcCommand (s : State) (f : State → Out) : Out :=
  command s (fun t =>
    match t.kind with
    | .crc => f t
    | .decode => .refused .ownedBySession
    | .encode => .refused .ownedBySession
    | .buffer => .refused .unitAbsent)

/-- `CRC.INIT` (40_crc.md R132). -/
def execCrcInit (s : State) : Out :=
  crcCommand s (fun t => .next { t with crc := { acc := crcStart, seeded := true } })

/-- `CRC.acc` as a command of port CRCC reads it: before the first `CRC.INIT` it has no defined value (10_state.md R21), and
the read gives a free value (DESIGN CHOICE, log 7). -/
def readAcc (c : Crc) : Word := if c.seeded then c.acc else Config.freeCrc

/-- The engine after `CRC.UPDATE(bytes)` at its port. An empty update reads nothing and leaves `CRC.acc` unchanged
(40_crc.md R133). -/
def crcUpdated (bytes : List Byte) (c : Crc) : Crc :=
  if bytes = [] then c else { acc := crcFold (readAcc c) bytes, seeded := true }

/-- `CRC.UPDATE(bytes)` (40_crc.md R133). -/
def execCrcUpdate (bytes : List Byte) (s : State) : Out :=
  crcCommand s (fun t => .next { t with crc := crcUpdated bytes t.crc })

/-- `CRC.FINAL` (40_crc.md R134): the value is returned, the accumulator stays. -/
def execCrcFinal (s : State) : Out :=
  crcCommand s (fun t => .next (reply (.bits (crcValue (readAcc t.crc))) t))

/-- The function `CRC32` (40_crc.md R135). -/
def execCrc32 (bytes : List Byte) (s : State) : Out := .next (reply (.bits (crcOf bytes)) s)

/-- The function `TBL` (40_crc.md R131). -/
def execTbl (n : Byte) (s : State) : Out := .next (reply (.bits (tblEntry n)) s)

end Sys2Proof.Machine
end

