-- ==== Sys2Proof/Machine/Parser.lean ====
section
/-! DEFINITION. The Chunk Parser (spec/42_chunk_parser.md): the dispatch on the chunk type inside `K.HDR`, the continuation
rules `K.*`, the delivery that runs them (41 R175), and, as operations of their own, each chunk-type row and each tag row:
the step "`DB.SERVE` delivers these bytes to this tag", taken where the state allows it (log 5). -/

namespace Sys2Proof.Machine

/-! ### Pieces the rules share -/

/-- The last lines of a handler: await the chunk's CRC with a 4-byte exact read (42 R204 to R217). -/
def awaitCrc (s : State) : Out := request 4 false .crc { s with p := { s.p with state := .awaitChunkCRC } }

/-- The last lines of `K.SIG`, `K.SKIP` and `K.CRC`: await the next chunk header (42 R193, R218, R219). -/
def awaitHeader (s : State) : Out := request 8 false .hdr { s with p := { s.p with state := .awaitChunkHeader } }

/-- Dispatch to a handler that reads its declared payload in one exact read (42 R195, R200). -/
def awaitPayload (k : ChunkKind) (tag : Tag) (s : State) : Out :=
  request s.p.length.toNat false tag { s with p := { s.p with kind := k, state := .dispatchChunk } }

/-- `INFL.PUSH(bytes)` (20_memory.md R76); by parameter the transform rejects what it has then been given (U14, log 13). -/
def inflPush (bytes : List Byte) (s : State) : Out :=
  if s.infl.live = true ∧ s.infl.ended = false then
    let t := { s with infl := { s.infl with input := s.infl.input ++ bytes } }
    if s.par.inflRejects.contains t.infl.input then .fault .transformRejected else .next t
  else .fault .transformClosed

/-! ### Dispatch inside `K.HDR` (42 R195, R213, R214) -/

/-- IHDR: a second one is outside the defined inputs (U7). -/
def dispatchIhdr (s : State) : Out := if s.p.hasIHDR then .fault .secondHeader else awaitPayload .ihdr .ihdr s

/-- PLTE. A second PLTE, or one after an IDAT, is dispatched like the first (93 U8, log 12). -/
def dispatchPlte (s : State) : Out := awaitPayload .plte .plte s

/-- tRNS. One after an IDAT is dispatched like any other (93 U9, log 12). -/
def dispatchTrns (s : State) : Out := awaitPayload .trns .trns s

/-- gAMA. -/
def dispatchGama (s : State) : Out := awaitPayload .gama .gama s

/-- IDAT (42 R213): the palette must not be empty for colour type 3; a declared length of 0 goes straight to the CRC. -/
def dispatchIdat (s : State) : Out :=
  if s.h.colorType = 3 ∧ s.pal.size = 0 then raise .missingPalette [] s
  else
    let t := { s with p := { s.p with kind := .idat, remaining := s.p.length.toNat } }
    if t.p.remaining = 0 then awaitCrc t
    else request t.p.remaining true .idat { t with p := { t.p with state := .dispatchChunk } }

/-- IEND. -/
def dispatchIend (s : State) : Out := awaitPayload .iend .iend s

/-- An unknown ancillary chunk is skipped with its CRC; `P.length + 4` does not wrap (42 R214). -/
def dispatchAncillary (s : State) : Out :=
  request (s.p.length.toNat + 4) false .skip { s with p := { s.p with kind := .skip, state := .dispatchChunk } }

/-- An unknown critical chunk (42 R214). -/
def dispatchCritical (s : State) : Out := raise .unsupportedChunk [s.p.type] s

/-- The dispatch on the chunk's class (30_encoding.md R97, R98). -/
def dispatchClass (c : ChunkClass) (s : State) : Out :=
  match c with
  | .ihdr => dispatchIhdr s
  | .plte => dispatchPlte s
  | .trns => dispatchTrns s
  | .gama => dispatchGama s
  | .idat => dispatchIdat s
  | .iend => dispatchIend s
  | .ancillary => dispatchAncillary s
  | .critical => dispatchCritical s

/-! ### The continuation rules -/

/-- `K.SIG(data)` (42_chunk_parser.md R193). -/
def kSig (data : List Byte) (s : State) : Out :=
  if data ≠ signature then raise .invalidSignature [] s else awaitHeader s

/-- `K.HDR(data)` (42 R195): the header registers, the first-chunk check (R196), the CRC seed (R199), the dispatch. -/
def kHdr (data : List Byte) (s : State) : Out :=
  match data with
  | [l0, l1, l2, l3, t0, t1, t2, t3] =>
    let ty := be32 t0 t1 t2 t3
    let s1 := { s with p := { s.p with length := be32 l0 l1 l2 l3, type := ty } }
    if s1.p.hasIHDR = false ∧ ty ≠ tyIHDR then raise .missingHeader [ty] s1
    else dispatchClass (classify ty) (crcSeed [t0, t1, t2, t3] s1)
  | _ => .fault .deliveredLength

/-- `construct_and_announce(w, h, ct)` (42 R206): the pixel memory is allocated, contents unspecified; the Filter Engine is
constructed in decode mode; the metadata event is emitted. -/
def constructAndAnnounce (w h : Word) (ct : Byte) (s : State) : State :=
  emit (.metadata w h (colorFlags ct).1 (colorFlags ct).2.1 (colorFlags ct).2.2)
    { s with
      pix := []
      fe := { live := true, mode := .decode, width := w.toNat, height := h.toNat, bpp := bppOf ct, row := 0,
              inq := [], done := false } }

/-- `K.IHDR(data)` (42 R204, R205). A payload that is not 13 bytes is a fault (U4), a zero dimension of a header that
passes the checks likewise (U12), an image beyond `MAX_PIXELS` is refused (U21). -/
def kIhdr (data : List Byte) (s : State) : Out :=
  match data with
  | [w0, w1, w2, w3, h0, h1, h2, h3, bd, ct, cm, fm, il] =>
    let s1 := crcAdd data s
    match validate bd ct cm fm il with
    | some (e, b) => raise e [b.setWidth 32] s1
    | none =>
      let w := be32 w0 w1 w2 w3
      let h := be32 h0 h1 h2 h3
      if w = 0 ∨ h = 0 then .fault .zeroDimension
      else if exceeds s.par.maxPixels (w.toNat * h.toNat) then .refused .tooManyPixels
      else
        awaitCrc (constructAndAnnounce w h ct
          { s1 with
            h := { width := w, height := h, bitDepth := bd, colorType := ct, compression := cm, filter := fm,
                   interlace := il }
            p := { s1.p with hasIHDR := true } })
  | _ => .fault .payloadLength

/-- The entries of a PLTE payload, alpha defaulted to 0xFF (42 R208). -/
def paletteBytes : List Byte → List Byte
  | r :: g :: b :: rest => r :: g :: b :: 0xFF :: paletteBytes rest
  | _ => []

/-- `K.PLTE(data)` (42 R208): entries appended at `PAL.size`. Faults U5, U6. -/
def kPlte (data : List Byte) (s : State) : Out :=
  if data.length % 3 ≠ 0 then .fault .paletteLength
  else if 256 < s.pal.size + data.length / 3 then .fault .paletteOverflow
  else
    let s1 := crcAdd data s
    awaitCrc { s1 with
      pal := { size := s.pal.size + data.length / 3
               mem := Memory.writeBytes s.pal.mem (4 * s.pal.size) (paletteBytes data) } }

/-- The alpha bytes of entries `i`, `i+1`, ... replaced (42 R210). -/
def patchAlpha : Memory → Nat → List Byte → Memory
  | m, _, [] => m
  | m, i, b :: bs => patchAlpha (Memory.write m (4 * i + 3) b) (i + 1) bs

/-- `K.TRNS(data)` (42 R210, R211). -/
def kTrns (data : List Byte) (s : State) : Out :=
  let s1 := crcAdd data s
  if s.h.colorType = 3 then
    if s.pal.size = 0 then raise .transparencyBeforePalette [] s1
    else if s.pal.size < data.length then
      raise .tooManyTransparentEntries [BitVec.ofNat 32 data.length, BitVec.ofNat 32 s.pal.size] s1
    else awaitCrc { s1 with pal := { s1.pal with mem := patchAlpha s1.pal.mem 0 data } }
  else awaitCrc s1

/-- `K.GAMA(data)` (42 R212). A payload that is not 4 bytes is a fault (U4). -/
def kGama (data : List Byte) (s : State) : Out :=
  match data with
  | [b0, b1, b2, b3] =>
    let s1 := crcAdd data s
    awaitCrc (emit (.gamma (be32 b0 b1 b2 b3))
      { s1 with p := { s1.p with gamma := be32 b0 b1 b2 b3, gammaValid := true } })
  | _ => .fault .payloadLength

/-- `K.IDAT(data)` (42 R215): to the CRC and to `INFL`, then the rest of the payload or the CRC. -/
def kIdat (data : List Byte) (s : State) : Out :=
  andThen (inflPush data (crcAdd data s)) (fun t =>
    let u := { t with p := { t.p with remaining := t.p.remaining - data.length } }
    if 0 < u.p.remaining then request u.p.remaining true .idat u else awaitCrc u)

/-- `K.IEND(data)` (42 R217), with `INFL.END` (20 R76). A payload that is not empty is a fault (U4). -/
def kIend (data : List Byte) (s : State) : Out :=
  match data with
  | [] =>
    let s1 := crcAdd data s
    awaitCrc { s1 with p := { s1.p with hasIEND := true }, infl := { s1.infl with ended := true } }
  | _ :: _ => .fault .payloadLength

/-- `K.SKIP(data)` (42 R218): the bytes are discarded. -/
def kSkip (_data : List Byte) (s : State) : Out := awaitHeader s

/-- `K.CRC(data)` (42 R219 to R221). -/
def kCrc (data : List Byte) (s : State) : Out :=
  match data with
  | [b0, b1, b2, b3] =>
    let fileCrc := be32 b0 b1 b2 b3
    let computed := crcValue s.crc.acc
    if s.cfg.checkCRC = true ∧ computed ≠ fileCrc then raise .crcMismatch [fileCrc, computed] s
    else if s.p.hasIEND then closeBuffer [] { s with p := { s.p with state := .terminated } }
    else awaitHeader s
  | _ => .fault .deliveredLength

/-- A user tag: the event and nothing else (41 R175). -/
def kUser (tag : Tag) (data : List Byte) (s : State) : Out := .next (emit (.deliver tag data) s)

/-- `deliver(tag, data)` (41 R175). A parser tag on a Demand Buffer of its own has no parser to run (U3). -/
def deliver (tag : Tag) (data : List Byte) (s : State) : Out :=
  if isParserTag tag = true ∧ s.kind ≠ .decode then .refused .ownedBySession
  else
    match tag with
    | .sig => kSig data s
    | .hdr => kHdr data s
    | .ihdr => kIhdr data s
    | .plte => kPlte data s
    | .trns => kTrns data s
    | .gama => kGama data s
    | .idat => kIdat data s
    | .iend => kIend data s
    | .skip => kSkip data s
    | .crc => kCrc data s
    | .user0 => kUser .user0 data s
    | .user1 => kUser .user1 data s
    | .user2 => kUser .user2 data s
    | .user3 => kUser .user3 data s
    | .user4 => kUser .user4 data s
    | .user5 => kUser .user5 data s

/-! ### The tag rows: a delivery with its bytes spelled out -/

/-- The step "`DB.SERVE` delivers `data` to `tag`", for the parser's tags in a decode session. -/
def parserStep (tag : Tag) (rule : List Byte → State → Out) (data : List Byte) (s : State) : Out :=
  whenEnabled (s.kind == .decode && delivers tag data s) s (rule data (served data.length s))

/-- The step "`DB.SERVE` delivers `data` to a user tag". -/
def userStep (tag : Tag) (data : List Byte) (s : State) : Out :=
  whenEnabled (delivers tag data s) s (kUser tag data (served data.length s))

/-- `K.SIG` (42 R193). -/
def execKSig (data : List Byte) (s : State) : Out := parserStep .sig kSig data s
/-- `K.HDR` (42 R195). -/
def execKHdr (data : List Byte) (s : State) : Out := parserStep .hdr kHdr data s
/-- `K.IHDR` (42 R204). -/
def execKIhdr (data : List Byte) (s : State) : Out := parserStep .ihdr kIhdr data s
/-- `K.PLTE` (42 R208). -/
def execKPlte (data : List Byte) (s : State) : Out := parserStep .plte kPlte data s
/-- `K.TRNS` (42 R210). -/
def execKTrns (data : List Byte) (s : State) : Out := parserStep .trns kTrns data s
/-- `K.GAMA` (42 R212). -/
def execKGama (data : List Byte) (s : State) : Out := parserStep .gama kGama data s
/-- `K.IDAT` (42 R215); the length of `data` is the transform-free choice of `TAKE` (41 R162). -/
def execKIdat (data : List Byte) (s : State) : Out := parserStep .idat kIdat data s
/-- `K.IEND` (42 R217). -/
def execKIend (data : List Byte) (s : State) : Out := parserStep .iend kIend data s
/-- `K.SKIP` (42 R218). -/
def execKSkip (data : List Byte) (s : State) : Out := parserStep .skip kSkip data s
/-- `K.CRC` (42 R219). -/
def execKCrc (data : List Byte) (s : State) : Out := parserStep .crc kCrc data s
/-- `K.USER0` (41 R175). -/
def execKUser0 (data : List Byte) (s : State) : Out := userStep .user0 data s
/-- `K.USER1` (41 R175). -/
def execKUser1 (data : List Byte) (s : State) : Out := userStep .user1 data s
/-- `K.USER2` (41 R175). -/
def execKUser2 (data : List Byte) (s : State) : Out := userStep .user2 data s
/-- `K.USER3` (41 R175). -/
def execKUser3 (data : List Byte) (s : State) : Out := userStep .user3 data s
/-- `K.USER4` (41 R175). -/
def execKUser4 (data : List Byte) (s : State) : Out := userStep .user4 data s
/-- `K.USER5` (41 R175). -/
def execKUser5 (data : List Byte) (s : State) : Out := userStep .user5 data s

/-! ### The chunk-type rows: a header of that type delivered to `K.HDR` -/

/-- The eight header bytes of a chunk (30_encoding.md R92). -/
def headerBytes (ty length : Word) : List Byte := bytes32 length ++ bytes32 ty

/-- The step "`DB.SERVE` delivers the header of a chunk of this type and length to `K_HDR`". -/
def chunkStep (ty length : Word) (s : State) : Out := parserStep .hdr kHdr (headerBytes ty length) s

/-- `CHUNK.IHDR` (42 R195, R204). -/
def execChunkIhdr (length : Word) (s : State) : Out := chunkStep tyIHDR length s
/-- `CHUNK.PLTE` (42 R195, R208). -/
def execChunkPlte (length : Word) (s : State) : Out := chunkStep tyPLTE length s
/-- `CHUNK.tRNS` (42 R195, R210). -/
def execChunkTrns (length : Word) (s : State) : Out := chunkStep tyTRNS length s
/-- `CHUNK.gAMA` (42 R195, R212). -/
def execChunkGama (length : Word) (s : State) : Out := chunkStep tyGAMA length s
/-- `CHUNK.IDAT` (42 R213). -/
def execChunkIdat (length : Word) (s : State) : Out := chunkStep tyIDAT length s
/-- `CHUNK.IEND` (42 R195, R217). -/
def execChunkIend (length : Word) (s : State) : Out := chunkStep tyIEND length s
/-- `CHUNK.ANCILLARY_UNKNOWN` (42 R214); a type of another class is not this row's. -/
def execChunkAncillaryUnknown (ty length : Word) (s : State) : Out :=
  whenEnabled (classify ty == .ancillary) s (chunkStep ty length s)
/-- `CHUNK.CRITICAL_UNKNOWN` (42 R214); a type of another class is not this row's. -/
def execChunkCriticalUnknown (ty length : Word) (s : State) : Out :=
  whenEnabled (classify ty == .critical) s (chunkStep ty length s)

end Sys2Proof.Machine
end

