-- ==== Sys2Proof/Machine/Buffer.lean ====
section
/-! DEFINITION. The Demand Buffer's operations (spec/41_demand_buffer.md): the commands of port DBC, the two internal steps
and `finalize`. -/

namespace Sys2Proof.Machine

/-- A command for the instance's Demand Buffer; an instance without one has no such port (00 R9). -/
def bufferCommand (s : State) (f : State → Out) : Out :=
  command s (fun t => if hasBuffer t.kind then f t else .refused .unitAbsent)

/-- `DB.PUSH(bytes)` (41 R151 to R155). On a decode session's buffer it is the HOST's push (30 R109). -/
def execDbPush (bytes : List Byte) (s : State) : Out := bufferCommand s (pushBlock bytes)

/-- `DB.REQUEST(length, allowLess, tag)` (41 R156 to R159). From outside, a decode session's buffer and the parser's tags
belong to the session (U3): that refusal comes before `ReadAfterDispose` on a buffer that has ended, which the spec
ranks neither way (DESIGN CHOICE, log 15). -/
def execDbRequest (length : Nat) (allowLess : Bool) (tag : Tag) (s : State) : Out :=
  bufferCommand s (fun t =>
    if t.kind = .decode ∨ isParserTag tag = true then .refused .ownedBySession
    else request length allowLess tag t)

/-- `DB.CLOSE(final?)` (41 R164, R165). -/
def execDbClose (last : List Byte) (s : State) : Out := bufferCommand s (closeBuffer last)

/-- `DB.DISPOSE` (41 R169). -/
def execDbDispose (s : State) : Out := bufferCommand s (fun t => .next (disposeBuffer t))

/-- The delivery `DB.SERVE` makes to the head request (41 R160). -/
def serveHead (s : State) : Out :=
  match s.db.reads with
  | [] => .next s
  | r :: _ =>
    let k := serveCount s.par.take r s.db.blocks
    deliver r.tag (takefront s.db.blocks k).1 (served k s)

/-- `DB.SERVE` (41 R160). -/
def execDbServe (s : State) : Out := whenEnabled (serveEnabled s) s (serveHead s)

/-- `DB.DRAINEND` (41 R167). -/
def execDbDrainend (s : State) : Out :=
  whenEnabled (drainEnabled s) s
    (if s.db.reads = [] then .next (finalizeBuffer s) else raise .pendingReadsOnClose [] s)

/-- `finalize()` (41 R166): the step of the `DB.CLOSE` or `DB.DRAINEND` that calls it, which is enabled where the buffer is
`Open` or `Closing` and no read is queued (log 21). -/
def execFinalize (s : State) : Out :=
  whenEnabled (serving s && s.db.reads == []) s (.next (finalizeBuffer s))

end Sys2Proof.Machine
end

