-- ==== Sys2Proof/Machine/FilterDecode.lean ====
section
/-! DEFINITION. The Filter Engine, decode direction (spec/43_filter_decode.md): the Paeth function, the predictors, the
defiltering of one scanline, the palette pass and completion. -/

namespace Sys2Proof.Machine

/-- `PAETH(left, above, upLeft)`, on integers; ties go left, above, upLeft (43 R252). -/
def paethOf (left above upLeft : Byte) : Byte :=
  let p : Int := (left.toNat : Int) + above.toNat - upLeft.toNat
  let pa := (p - left.toNat).natAbs
  let pb := (p - above.toNat).natAbs
  let pc := (p - upLeft.toNat).natAbs
  if pa ≤ pb ∧ pa ≤ pc then left else if pb ≤ pc then above else upLeft

/-- `PRED(f, left, up, upLeft)`; the sum in Average does not wrap (43 R254). -/
def predOf (f : FilterType) (left up upLeft : Byte) : Byte :=
  match f with
  | .none => 0
  | .sub => left
  | .up => up
  | .average => BitVec.ofNat 8 ((left.toNat + up.toNat) / 2)
  | .paeth => paethOf left up upLeft

/-- `left(y,x,c)`, 0 at the left edge (43 R256). -/
def leftOf (w : Nat) (m : Memory) (y x c : Nat) : Byte := if 0 < x then pixRead m (pixAddr w y (x - 1) c) else 0

/-- `up(y,x,c)`, 0 on the top row (43 R256). -/
def upOf (w : Nat) (m : Memory) (y x c : Nat) : Byte := if 0 < y then pixRead m (pixAddr w (y - 1) x c) else 0

/-- `upLeft(y,x,c)`, 0 at either edge (43 R256). -/
def upLeftOf (w : Nat) (m : Memory) (y x c : Nat) : Byte :=
  if 0 < x ∧ 0 < y then pixRead m (pixAddr w (y - 1) (x - 1) c) else 0

/-- The byte `DEFILT` writes at `PIX[y][x][c]`: 0xFF for an absent channel, else the filtered byte plus its predictor
modulo 256 (43 R260). `data` is the scanline without its filter-type byte. -/
def defiltByte (f : FilterType) (w bpp y : Nat) (data : List Byte) (m : Memory) (x c : Nat) : Byte :=
  match channel bpp c with
  | none => 0xFF
  | some k => data.getD (x * bpp + k) 0 + predOf f (leftOf w m y x c) (upOf w m y x c) (upLeftOf w m y x c)

/-- One pixel of `DEFILT`: its four output channels (43 R260). -/
def defiltPixel (f : FilterType) (w bpp y : Nat) (data : List Byte) (m : Memory) (x : Nat) : Memory :=
  [0, 1, 2, 3].foldl (fun n c => n.write (pixAddr w y x c) (defiltByte f w bpp y data n x c)) m

/-- `DEFILT(f, y, line)`: the pixels of the row, left to right (43 R260). -/
def defilt (f : FilterType) (w bpp y : Nat) (data : List Byte) (m : Memory) : Memory :=
  (List.range w).foldl (defiltPixel f w bpp y data) m

/-- The effect of `FE.LINE` with the filter type decoded: the row is written, the scanline consumed, the row counted
(43 R259). -/
def commitLine (f : FilterType) (s : State) : State :=
  { s with
    pix := defilt f s.fe.width s.fe.bpp s.fe.row ((s.fe.inq.take (lineLength s.fe)).drop 1) s.pix
    fe := { s.fe with row := s.fe.row + 1, inq := s.fe.inq.drop (lineLength s.fe) } }

/-- `FE.LINE` (43 R259); a filter-type byte above 4 is a fault (U11). -/
def execFeLine (s : State) : Out :=
  whenEnabled (lineEnabled s) s
    (match filterOfByte (s.fe.inq.headD 0) with
     | some f => .next (commitLine f s)
     | none => .fault .filterType)

/-- The step "`FE.LINE` takes the scanline `f :: data`", where that is the scanline at the front (log 5). -/
def defiltStep (f : FilterType) (data : List Byte) (s : State) : Out :=
  whenEnabled (lineEnabled s && s.fe.inq.take (lineLength s.fe) == f.byte :: data) s (.next (commitLine f s))

/-- `DEFILT.NONE` (43 R261). -/
def execDefiltNone (data : List Byte) (s : State) : Out := defiltStep .none data s
/-- `DEFILT.SUB` (43 R262). -/
def execDefiltSub (data : List Byte) (s : State) : Out := defiltStep .sub data s
/-- `DEFILT.UP` (43 R263). -/
def execDefiltUp (data : List Byte) (s : State) : Out := defiltStep .up data s
/-- `DEFILT.AVG` (43 R264). -/
def execDefiltAvg (data : List Byte) (s : State) : Out := defiltStep .average data s
/-- `DEFILT.PAETH` (43 R265). -/
def execDefiltPaeth (data : List Byte) (s : State) : Out := defiltStep .paeth data s

/-- Entry `i` of the palette, its four bytes (20_memory.md R63). -/
def palEntry (m : Memory) (i : Nat) : List Byte :=
  [palRead m (4 * i), palRead m (4 * i + 1), palRead m (4 * i + 2), palRead m (4 * i + 3)]

/-- The palette resolution pass over `n` pixels from pixel `q` on, in row order; `none` where an index is not below the
palette's size (43 R269, R271, U13). -/
def resolvePalette (pal : Palette) : Nat → Nat → Memory → Option Memory
  | 0, _, m => some m
  | n + 1, q, m =>
    if (pixRead m (4 * q)).toNat < pal.size then
      resolvePalette pal n (q + 1) (m.writeBytes (4 * q) (palEntry pal.mem (pixRead m (4 * q)).toNat))
    else none

/-- The end of `FE.FINISH`: completion is latched and signalled with the pixel memory (43 R269). -/
def complete (s : State) : State :=
  emit (.complete s.fe.width s.fe.height (pixContents s.pix (s.fe.width * s.fe.height * 4)))
    { s with fe := { s.fe with done := true } }

/-- `FE.FINISH` (43 R269). -/
def execFeFinish (s : State) : Out :=
  whenEnabled (finishEnabled s) s
    (if s.h.colorType = 3 then
      match resolvePalette s.pal (s.fe.width * s.fe.height) 0 s.pix with
      | some m => .next (complete { s with pix := m })
      | none => .fault .paletteIndex
     else .next (complete s))

/-- The function `PAETH` (43 R252). -/
def execPaeth (left above upLeft : Byte) (s : State) : Out := .next (reply (.byte (paethOf left above upLeft)) s)

/-- The function `PRED` (43 R254). -/
def execPred (f : FilterType) (left up upLeft : Byte) (s : State) : Out :=
  .next (reply (.byte (predOf f left up upLeft)) s)

end Sys2Proof.Machine
end

