-- ==== Sys2Proof/Machine/FilterEncode.lean ====
section
/-! DEFINITION. The Filter Engine, encode direction (spec/44_filter_encode.md): the raw bytes and their neighbours, the
filtered bytes and their cost, the selection, and the step that filters one row. -/

namespace Sys2Proof.Machine

/-- `raw(y,i)` for rows of `w4` bytes (44 R291). -/
def rawByte (w4 : Nat) (m : Memory) (y i : Nat) : Byte := pixRead m (y * w4 + i)

/-- `left(y,i)` (44 R291). -/
def rawLeft (w4 : Nat) (m : Memory) (y i : Nat) : Byte := if 4 ≤ i then rawByte w4 m y (i - 4) else 0

/-- `up(y,i)` (44 R291). -/
def rawUp (w4 : Nat) (m : Memory) (y i : Nat) : Byte := if 0 < y then rawByte w4 m (y - 1) i else 0

/-- `upLeft(y,i)` (44 R291). -/
def rawUpLeft (w4 : Nat) (m : Memory) (y i : Nat) : Byte :=
  if 4 ≤ i ∧ 0 < y then rawByte w4 m (y - 1) (i - 4) else 0

/-- The predictor at byte `i` of row `y` (44 R292). -/
def rawPred (f : FilterType) (w4 : Nat) (m : Memory) (y i : Nat) : Byte :=
  predOf f (rawLeft w4 m y i) (rawUp w4 m y i) (rawUpLeft w4 m y i)

/-- `DIFF(f,y,i)`, an integer (44 R292). -/
def diff (f : FilterType) (w4 : Nat) (m : Memory) (y i : Nat) : Int :=
  ((rawByte w4 m y i).toNat : Int) - (rawPred f w4 m y i).toNat

/-- `FBYTE(f,y,i)`, the difference modulo 256 (44 R292). -/
def fbyte (f : FilterType) (w4 : Nat) (m : Memory) (y i : Nat) : Byte := rawByte w4 m y i - rawPred f w4 m y i

/-- `COST` in the three readings of 44 R293. -/
def costOf (reading : Config.CostReading) (d : Int) : Nat :=
  match reading with
  | .unwrapped => d.natAbs
  | .storedUnsigned => (BitVec.ofInt 8 d).toNat
  | .storedSigned => (BitVec.ofInt 8 d).toInt.natAbs

/-- `COSTSUM(f,y)`, without wrap (44 R293). -/
def costSum (reading : Config.CostReading) (f : FilterType) (w4 : Nat) (m : Memory) (y : Nat) : Nat :=
  ((List.range w4).map (fun i => costOf reading (diff f w4 m y i))).sum

/-- One candidate of the first pass: it replaces the best only if its sum is strictly lower (44 R300, R301). -/
def better (cost : FilterType → Nat) (best : Option FilterType) (f : FilterType) : Option FilterType :=
  match best with
  | none => some f
  | some g => if cost f < cost g then some f else some g

/-- The first pass over the candidates in list order (44 R300). -/
def selectFilter (cost : FilterType → Nat) (candidates : List FilterType) : Option FilterType :=
  candidates.foldl (better cost) none

/-- The filter type the first pass chooses for row `FE.row`; `none` where `CFG.candidates` is not legal. -/
def bestFilter (s : State) : Option FilterType :=
  match candidateTypes s.cfg.candidates with
  | none => none
  | some l => selectFilter (fun f => costSum s.par.cost f (4 * s.fe.width) s.pix s.fe.row) l

/-- The second pass: the filter-type byte, then the filtered bytes (44 R300). -/
def filteredRow (f : FilterType) (w4 : Nat) (m : Memory) (y : Nat) : List Byte :=
  f.byte :: (List.range w4).map (fbyte f w4 m y)

/-- `DEFL.PUSH`, the row counted, and after the last row `DEFL.END` (44 R300). -/
def commitRow (f : FilterType) (s : State) : State :=
  { s with
    fe := { s.fe with row := s.fe.row + 1, done := s.fe.done || decide (s.fe.row + 1 = s.fe.height) }
    defl := { s.defl with
      input := s.defl.input ++ filteredRow f (4 * s.fe.width) s.pix s.fe.row
      ended := s.defl.ended || decide (s.fe.row + 1 = s.fe.height) } }

/-- The row filtered with `f`; by parameter the transform fails on what it has then been given (U14, log 13). -/
def encodeRow (f : FilterType) (s : State) : Out :=
  if s.par.deflRejects.contains (commitRow f s).defl.input then .fault .transformRejected else .next (commitRow f s)

/-- `FE.ENCLINE` (44 R300); illegal candidates are refused (U17). -/
def execFeEncline (s : State) : Out :=
  whenEnabled (enclineEnabled s) s
    (match bestFilter s with
     | none => .refused .illegalCandidates
     | some f => encodeRow f s)

/-- The step "`FE.ENCLINE` filters row `y` with `f`", where the row is next and `f` is chosen for it (log 5). -/
def filtStep (f : FilterType) (y : Nat) (s : State) : Out :=
  whenEnabled (enclineEnabled s && s.fe.row == y && bestFilter s == some f) s (encodeRow f s)

/-- `FILT.NONE` (44 R295). -/
def execFiltNone (y : Nat) (s : State) : Out := filtStep .none y s
/-- `FILT.SUB` (44 R296). -/
def execFiltSub (y : Nat) (s : State) : Out := filtStep .sub y s
/-- `FILT.UP` (44 R297). -/
def execFiltUp (y : Nat) (s : State) : Out := filtStep .up y s
/-- `FILT.AVG` (44 R298). -/
def execFiltAvg (y : Nat) (s : State) : Out := filtStep .average y s
/-- `FILT.PAETH` (44 R299). -/
def execFiltPaeth (y : Nat) (s : State) : Out := filtStep .paeth y s

end Sys2Proof.Machine
end

