-- ==== Sys2Proof/Machine/Packer.lean ====
section
/-! DEFINITION. The Chunk Packer (spec/45_chunk_packer.md): building a chunk, the packer's steps, and the steps of `DEFL`
that run two of them (20_memory.md R77). -/

namespace Sys2Proof.Machine

/-- The bytes of `PK.CHUNK(type, payload)` (45 R327). -/
def chunkBytes (ty : Word) (payload : List Byte) : List Byte :=
  bytes32 (BitVec.ofNat 32 payload.length) ++ bytes32 ty ++ payload ++ bytes32 (crcOf (bytes32 ty ++ payload))

/-- What `PK.CHUNK` writes: `CRC.acc`, over the type and the payload (45 R327). -/
def chunkCrc (ty : Word) (payload : List Byte) (s : State) : State := crcSeed (bytes32 ty ++ payload) s

/-- `emit EV_DATA(PK.CHUNK(type, payload))`. -/
def emitChunk (ty : Word) (payload : List Byte) (s : State) : State :=
  emit (.data (chunkBytes ty payload)) (chunkCrc ty payload s)

/-- The packer's IHDR payload: the dimensions, depth 8, colour type 6, the three methods 0 (45 R323). -/
def headerPayload (s : State) : List Byte :=
  bytes32 (BitVec.ofNat 32 s.fe.width) ++ bytes32 (BitVec.ofNat 32 s.fe.height) ++ [8, 6, 0, 0, 0]

/-- `PK.SIG` (45 R322). -/
def execPkSig (s : State) : Out :=
  whenEnabled (packing .sig s) s (.next (emit (.data signature) { s with pk := .ihdr }))

/-- `PK.IHDR` (45 R323). -/
def execPkIhdr (s : State) : Out :=
  whenEnabled (packing .ihdr s) s (.next (emitChunk tyIHDR (headerPayload s) { s with pk := .data }))

/-- `PK.IDAT(block)` as part of `DEFL.OUT`, which advances `DEFL.emitted` (45 R324, 20 R77). -/
def emitBlock (block : List Byte) (s : State) : State :=
  emitChunk tyIDAT block { s with defl := { s.defl with emitted := s.defl.emitted + block.length } }

/-- `DEFL.OUT` with a block of `k` bytes (20 R77). -/
def execDeflOut (k : Nat) (s : State) : Out :=
  whenEnabled (deflOutEnabled k s) s (.next (emitBlock ((deflPending s).take k) s))

/-- `PK.IDAT(block)`: the step of the `DEFL.OUT` that hands over this block (45 R324, log 5). -/
def execPkIdat (block : List Byte) (s : State) : Out :=
  whenEnabled (deflOutEnabled block.length s && (deflPending s).take block.length == block) s
    (.next (emitBlock block s))

/-- `PK.IEND` (45 R325). -/
def emitEnd (s : State) : State := emit .endOfStream { emitChunk tyIEND [] s with pk := .done }

/-- `DEFL.DONE` (20 R77). -/
def execDeflDone (s : State) : Out := whenEnabled (deflDoneEnabled s) s (.next (emitEnd s))

/-- `PK.IEND`: the step of the `DEFL.DONE` that runs it (45 R325, log 5). -/
def execPkIend (s : State) : Out := whenEnabled (deflDoneEnabled s) s (.next (emitEnd s))

/-- The function `PK.CHUNK` (45 R327), of a session that has a packer; it writes `CRC.acc` and returns the chunk. The spec
runs it inside the emitting rules only; that as an operation of its own it runs on any encode session that is not dead,
in every `PK.phase`, and is refused on the other kinds and for a payload its length field cannot say, is a DESIGN CHOICE
(log 21). -/
def execPkChunk (ty : Word) (payload : List Byte) (s : State) : Out :=
  if s.err.isSome then .next s
  else if s.kind ≠ .encode then .refused .unitAbsent
  else if 2 ^ 32 ≤ payload.length then .refused .chunkTooLong
  else .next (reply (.bytes (chunkBytes ty payload)) (chunkCrc ty payload s))

end Sys2Proof.Machine
end

