-- ==== Sys2Proof/Machine/Session.lean ====
section
/-! DEFINITION. The session: the decode port, the encode port, the parser's start, the decompression transform's step, and
`teardown` as an operation (spec/30 R111, 42 R191, 20 R76, 43 R258, 45 R321, 60 R371, R376). -/

namespace Sys2Proof.Machine

/-- A command of the decode session's port (30 R111). -/
def decCommand (s : State) (f : State → Out) : Out :=
  command s (fun t => if t.kind = .decode then f t else .refused .unitAbsent)

/-- `DEC.PUSH(bytes)`: `DB.PUSH` on the session's buffer (30 R111, 41 R151). -/
def execDecPush (bytes : List Byte) (s : State) : Out := decCommand s (pushBlock bytes)

/-- `DEC.CLOSE(final?)`: `DB.CLOSE` on the session's buffer (30 R111, 41 R164). -/
def execDecClose (last : List Byte) (s : State) : Out := decCommand s (closeBuffer last)

/-- `DEC.DISPOSE`: the writes of teardown without the error (60 R376). -/
def execDecDispose (s : State) : Out := decCommand s (fun t => .next (stop t))

/-- A command of the encode session's port (30 R111). -/
def encCommand (s : State) (f : State → Out) : Out :=
  command s (fun t => if t.kind = .encode then f t else .refused .unitAbsent)

/-- The writes of `ENC.START` (45 R321). -/
def startEncode (width height : Word) (pixels : List Byte) (s : State) : State :=
  { s with
    pix := Memory.writeBytes [] 0 pixels
    fe := { s.fe with live := true, mode := .encode, bpp := 4, width := width.toNat, height := height.toNat, row := 0,
                      done := false }
    pk := .sig }

/-- `ENC.START(width, height, pixels)` (45 R321), with the refusals U12, U17, U18, U21. -/
def execEncStart (width height : Word) (pixels : List Byte) (s : State) : Out :=
  encCommand s (fun t =>
    if t.pk ≠ .idle then .refused .notIdle
    else if width = 0 ∨ height = 0 then .refused .zeroDimension
    else if exceeds t.par.maxPixels (width.toNat * height.toNat) then .refused .tooManyPixels
    else if pixels.length ≠ width.toNat * height.toNat * 4 then .refused .pixelCount
    else if candidateTypes t.cfg.candidates = none then .refused .illegalCandidates
    else .next (startEncode width height pixels t))

/-- `ENC.DISPOSE`: the writes of teardown without the error (60 R376). -/
def execEncDispose (s : State) : Out := encCommand s (fun t => .next (stop t))

/-- `P.START` (42 R191): the parser's first read, once, as the last act of a decode session's reset (70 R401). -/
def execPStart (s : State) : Out :=
  whenEnabled (startPending s) s (request 8 false .sig { s with p := { s.p with state := .awaitSignature } })

/-- `INFL.OUT` handing `bytes` to `FE.FEED` (20 R76, 43 R258). -/
def feed (bytes : List Byte) (s : State) : State :=
  { s with
    fe := { s.fe with inq := s.fe.inq ++ bytes }
    infl := { s.infl with emitted := s.infl.emitted + bytes.length } }

/-- `INFL.OUT` with `k` bytes of the output not yet handed over (20 R76). -/
def execInflOut (k : Nat) (s : State) : Out :=
  whenEnabled (inflOutEnabled k s) s (.next (feed ((inflPending s).take k) s))

/-- `FE.FEED(bytes)`: the step of the `INFL.OUT` that hands over these bytes (43 R258, log 5). -/
def execFeFeed (bytes : List Byte) (s : State) : Out :=
  whenEnabled (inflOutEnabled bytes.length s && (inflPending s).take bytes.length == bytes) s (.next (feed bytes s))

/-- `teardown(kind, info)` as an operation (60 R371): on a session that is not dead it does what any rule's `raise` does;
a dead session raises nothing (60 R372, log 21). A CRC Engine on its own raises no error (40 R130). -/
def execTeardown (e : ErrorKind) (info : List Word) (s : State) : Out :=
  if s.err.isSome then .next s
  else if s.kind = .crc then .refused .unitAbsent
  else raise e info s

end Sys2Proof.Machine
end

