-- ==== Sys2Proof/Machine/Agenda.lean ====
section
/-! DEFINITION. What the next step runs: the oldest entry of the agenda, or, when nothing is offered, the first enabled
internal step (log 2). Configuration writes and the construction of a session are entries that run no operation
(spec/70_reset_and_hazards.md R400, R405). -/

namespace Sys2Proof.Machine

/-- A configuration write, before the session's first command; after it, it is refused (70 R405, 93 U19). -/
def configure (kind : Kind) (c : Cfg) (s : State) : Out :=
  if s.kind ≠ kind then .refused .unitAbsent
  else if s.started then .refused .lateConfiguration
  else .next { s with cfg := c }

/-- The construction of a session (70 R400 to R403): it replaces the session the state holds; what is still on the agenda is
offered to it (log 22). An instance whose read queue has no room for the parser's first request is refused like any
request beyond `DB_MAXREADS` (20 R78; DESIGN CHOICE, log 25). -/
def constructSession (kind : Kind) (par : Config.Params) (s : State) : Out :=
  if exceeds par.maxReads (firstReads kind).length then .refused .readsFull
  else .next { State.construct kind par with agenda := s.agenda }

/-- The block that an eager `DEFL.OUT` hands over: all the transform has, at most what one chunk can carry. -/
def eagerBlock (s : State) : Nat := min (deflPending s).length (2 ^ 32 - 1)

/-- The first enabled internal step, agent by agent in the order of the spec's traces (00_scope.md R16, 60 R389, log 2);
`none` where no agent can move. -/
def autoPick (s : State) : Option Instr :=
  if serveEnabled s then some .dbServe
  else if drainEnabled s then some .dbDrainend
  else if inflOutEnabled (inflPending s).length s then some (.inflOut (inflPending s).length)
  else if lineEnabled s then some .feLine
  else if finishEnabled s then some .feFinish
  else if packing .sig s then some .pkSig
  else if packing .ihdr s then some .pkIhdr
  else if enclineEnabled s then some .feEncline
  else if deflOutEnabled (eagerBlock s) s then some (.deflOut (eagerBlock s))
  else if deflDoneEnabled s then some .deflDone
  else none

/-- What a step does first: find the operation to run and the state it runs in, or do what needs no operation. -/
inductive Fetch where
  | run (i : Instr) (s : State)
  | done (o : Out)

/-- The agenda's oldest entry is taken off it; an operation's bytes go to the decoder. -/
def fetch (s : State) : Fetch :=
  match s.agenda with
  | [] =>
    match autoPick s with
    | some i => .run i s
    | none => .done (.next s)
  | .op word :: rest =>
    match decode word with
    | .ok i => .run i { s with agenda := rest }
    | .error r => .done (.refused (.undecodable r))
  | .cfgCheckCRC on :: rest =>
    .done (configure .decode { s.cfg with checkCRC := on } { s with agenda := rest })
  | .cfgCandidates types :: rest =>
    .done (configure .encode { s.cfg with candidates := types } { s with agenda := rest })
  | .cfgTransform chunkSize level strategy :: rest =>
    .done (configure .encode { s.cfg with chunkSize := chunkSize, level := level, strategy := strategy }
      { s with agenda := rest })
  | .construct kind par :: rest => .done (constructSession kind par { s with agenda := rest })

/-! ### Placing an opcode-table row's word (log 4) -/

/-- The read a tag's delivery answers: at most for `K_IDAT`, exact for the others (42 R192). -/
def placedRead (tag : Tag) (length : Nat) : Request := { length := length, allowLess := tag == .idat, tag := tag }

/-- The Demand Buffer in which the delivery of `data` to `tag` is the next thing to serve. -/
def placeDelivery (tag : Tag) (data : List Byte) (s : State) : State :=
  { s with db := { blocks := if data = [] then [] else [data], reads := [placedRead tag data.length], paused := false,
                   phase := .opened } }

/-- The table row's word offered as the agenda's oldest entry, with the delivery it labels placed in the Demand Buffer: a
chunk type's as the header bytes (length 0) for `K_HDR`, a tag's as the bytes for the tag. -/
def placeWord (nbits w : Nat) (s : State) : State :=
  match tableWord nbits w with
  | none => { s with agenda := .op [] :: s.agenda }
  | some word =>
    let t := { s with agenda := .op word :: s.agenda }
    match word with
    | 0 :: typeAndLength => placeDelivery .hdr (typeAndLength.drop 4 ++ typeAndLength.take 4) t
    | 3 :: c :: data =>
      match tagOfByte c with
      | some tag => placeDelivery tag data t
      | none => t
    | _ => t

end Sys2Proof.Machine
end

