-- ==== Sys2Proof/Machine/Dispatch.lean ====
section
/-! DEFINITION. The dispatch: one arm per operation of spec/opcode_table.json, each one call of that operation's meaning. -/

namespace Sys2Proof.Machine

def exec (i : Instr) (s : State) : Host.Outcome State Fault Refusal :=
  match i with
  | .chunkIhdr length => Sys2Proof.Machine.execChunkIhdr length s
  | .chunkPlte length => Sys2Proof.Machine.execChunkPlte length s
  | .chunkTrns length => Sys2Proof.Machine.execChunkTrns length s
  | .chunkGama length => Sys2Proof.Machine.execChunkGama length s
  | .chunkIdat length => Sys2Proof.Machine.execChunkIdat length s
  | .chunkIend length => Sys2Proof.Machine.execChunkIend length s
  | .chunkAncillaryUnknown ty length => Sys2Proof.Machine.execChunkAncillaryUnknown ty length s
  | .chunkCriticalUnknown ty length => Sys2Proof.Machine.execChunkCriticalUnknown ty length s
  | .defiltNone data => Sys2Proof.Machine.execDefiltNone data s
  | .defiltSub data => Sys2Proof.Machine.execDefiltSub data s
  | .defiltUp data => Sys2Proof.Machine.execDefiltUp data s
  | .defiltAvg data => Sys2Proof.Machine.execDefiltAvg data s
  | .defiltPaeth data => Sys2Proof.Machine.execDefiltPaeth data s
  | .filtNone y => Sys2Proof.Machine.execFiltNone y s
  | .filtSub y => Sys2Proof.Machine.execFiltSub y s
  | .filtUp y => Sys2Proof.Machine.execFiltUp y s
  | .filtAvg y => Sys2Proof.Machine.execFiltAvg y s
  | .filtPaeth y => Sys2Proof.Machine.execFiltPaeth y s
  | .kSig data => Sys2Proof.Machine.execKSig data s
  | .kHdr data => Sys2Proof.Machine.execKHdr data s
  | .kIhdr data => Sys2Proof.Machine.execKIhdr data s
  | .kPlte data => Sys2Proof.Machine.execKPlte data s
  | .kTrns data => Sys2Proof.Machine.execKTrns data s
  | .kGama data => Sys2Proof.Machine.execKGama data s
  | .kIdat data => Sys2Proof.Machine.execKIdat data s
  | .kIend data => Sys2Proof.Machine.execKIend data s
  | .kSkip data => Sys2Proof.Machine.execKSkip data s
  | .kCrc data => Sys2Proof.Machine.execKCrc data s
  | .kUser0 data => Sys2Proof.Machine.execKUser0 data s
  | .kUser1 data => Sys2Proof.Machine.execKUser1 data s
  | .kUser2 data => Sys2Proof.Machine.execKUser2 data s
  | .kUser3 data => Sys2Proof.Machine.execKUser3 data s
  | .kUser4 data => Sys2Proof.Machine.execKUser4 data s
  | .kUser5 data => Sys2Proof.Machine.execKUser5 data s
  | .dbPush bytes => Sys2Proof.Machine.execDbPush bytes s
  | .dbRequest length allowLess tag => Sys2Proof.Machine.execDbRequest length allowLess tag s
  | .dbClose last => Sys2Proof.Machine.execDbClose last s
  | .dbDispose => Sys2Proof.Machine.execDbDispose s
  | .crcInit => Sys2Proof.Machine.execCrcInit s
  | .crcUpdate bytes => Sys2Proof.Machine.execCrcUpdate bytes s
  | .crcFinal => Sys2Proof.Machine.execCrcFinal s
  | .decPush bytes => Sys2Proof.Machine.execDecPush bytes s
  | .decClose last => Sys2Proof.Machine.execDecClose last s
  | .decDispose => Sys2Proof.Machine.execDecDispose s
  | .encStart width height pixels => Sys2Proof.Machine.execEncStart width height pixels s
  | .encDispose => Sys2Proof.Machine.execEncDispose s
  | .pStart => Sys2Proof.Machine.execPStart s
  | .dbServe => Sys2Proof.Machine.execDbServe s
  | .dbDrainend => Sys2Proof.Machine.execDbDrainend s
  | .inflOut k => Sys2Proof.Machine.execInflOut k s
  | .feFeed bytes => Sys2Proof.Machine.execFeFeed bytes s
  | .feLine => Sys2Proof.Machine.execFeLine s
  | .feFinish => Sys2Proof.Machine.execFeFinish s
  | .pkSig => Sys2Proof.Machine.execPkSig s
  | .pkIhdr => Sys2Proof.Machine.execPkIhdr s
  | .feEncline => Sys2Proof.Machine.execFeEncline s
  | .deflOut k => Sys2Proof.Machine.execDeflOut k s
  | .pkIdat block => Sys2Proof.Machine.execPkIdat block s
  | .deflDone => Sys2Proof.Machine.execDeflDone s
  | .pkIend => Sys2Proof.Machine.execPkIend s
  | .crc32 bytes => Sys2Proof.Machine.execCrc32 bytes s
  | .tbl n => Sys2Proof.Machine.execTbl n s
  | .paeth left above upLeft => Sys2Proof.Machine.execPaeth left above upLeft s
  | .pred f left up upLeft => Sys2Proof.Machine.execPred f left up upLeft s
  | .pkChunk ty payload => Sys2Proof.Machine.execPkChunk ty payload s
  | .finalize => Sys2Proof.Machine.execFinalize s
  | .teardown kind info => Sys2Proof.Machine.execTeardown kind info s

end Sys2Proof.Machine
end

