-- ==== Sys2Proof/Machine/Step.lean ====
section
/-! DEFINITION. One step of the machine, and placing an opcode-table row's word where the step fetches it. -/

namespace Sys2Proof.Machine

/-- One step of a session (spec/00_scope.md R16): the fetched operation is executed; what needs no operation is done by
`fetch` itself. -/
def step (s : State) : Host.Outcome State Fault Refusal :=
  match fetch s with
  | .run i t => exec i t
  | .done o => o

/-- `s` with a table row's word as the next thing `step` fetches, and the delivery that it labels placed (log 4). -/
def State.withFetchWord (s : State) (nbits w : Nat) : State := placeWord nbits w s

end Sys2Proof.Machine
end

