-- ==== Sys2Proof/Safety.lean ====
section
/-! DEFINITION. What the statements say in: the invariants of a session, which operations may write which piece of state
(spec/10_state.md R54), and short names for the states the rules lead to. -/

namespace Sys2Proof.Safety

open Sys2Proof.Machine

/-! ### Invariants -/

/-- The canonical form of the two memories: addresses strictly rising. -/
def MemoryOk (s : State) : Prop := Memory.wf s.pix = true ∧ Memory.wf s.pal.mem = true

/-- The Demand Buffer (41_demand_buffer.md R176 (a), (b); R159). -/
structure BufferOk (s : State) : Prop where
  /-- no element of `DB.blocks` is empty -/
  blocks : ∀ b ∈ s.db.blocks, b ≠ []
  /-- no at-most request of length 0 is queued -/
  reads : ∀ r ∈ s.db.reads, r.allowLess = true → 0 < r.length
  /-- in phases `Finalized` and `Disposed` both lists are empty -/
  ended : s.db.phase = .finalized ∨ s.db.phase = .disposed → s.db.blocks = [] ∧ s.db.reads = []

/-- The request of the state `DispatchChunk(P.kind)` (10_state.md R27, 42_chunk_parser.md R195, R213, R214). -/
def dispatchRead (p : Parser) : Request :=
  match p.kind with
  | .ihdr => { length := p.length.toNat, allowLess := false, tag := .ihdr }
  | .plte => { length := p.length.toNat, allowLess := false, tag := .plte }
  | .trns => { length := p.length.toNat, allowLess := false, tag := .trns }
  | .gama => { length := p.length.toNat, allowLess := false, tag := .gama }
  | .idat => { length := p.remaining, allowLess := true, tag := .idat }
  | .iend => { length := p.length.toNat, allowLess := false, tag := .iend }
  | .skip => { length := p.length.toNat + 4, allowLess := false, tag := .skip }

/-- The read the parser is suspended on (10_state.md R27). -/
def expectedReads (p : Parser) : List Request :=
  match p.state with
  | .awaitSignature => [{ length := 8, allowLess := false, tag := .sig }]
  | .awaitChunkHeader => [{ length := 8, allowLess := false, tag := .hdr }]
  | .dispatchChunk => [dispatchRead p]
  | .awaitChunkCRC => [{ length := 4, allowLess := false, tag := .crc }]
  | .terminated => []
  | .failed => []

/-- A parser whose Demand Buffer has not been disposed (42_chunk_parser.md R192; 10_state.md R27, R30). -/
structure ParserOk (s : State) : Prop where
  /-- exactly the read that `P.state` names is queued -/
  reads : s.db.reads = expectedReads s.p
  /-- `P.remaining` is a part of the chunk, and not an empty one -/
  idat : s.p.state = .dispatchChunk → s.p.kind = .idat → 0 < s.p.remaining ∧ s.p.remaining ≤ s.p.length.toNat
  /-- only the first IHDR is parsed -/
  first : s.p.state = .dispatchChunk → s.p.kind = .ihdr → s.p.hasIHDR = false
  /-- every other chunk comes after it -/
  later : s.p.state = .dispatchChunk ∧ s.p.kind ≠ .ihdr ∨ s.p.state = .awaitChunkCRC ∨ s.p.state = .terminated →
    s.p.hasIHDR = true
  /-- after IEND only its CRC is read -/
  ended : s.p.hasIEND = true → s.p.state = .awaitChunkCRC ∨ s.p.state = .terminated
  /-- `INFL` is live, and its input ends with IEND -/
  infl : s.infl.live = true ∧ s.infl.ended = s.p.hasIEND

/-- `ParserOk` of a decode session until its buffer is disposed. -/
def ParserInv (s : State) : Prop := s.kind = .decode → s.db.phase ≠ .disposed → ParserOk s

/-- The header registers after an IHDR (10_state.md R33; U12). -/
def HeaderOk (s : State) : Prop :=
  s.p.hasIHDR = true →
    s.h.bitDepth = 8 ∧ legalColorType s.h.colorType = true ∧ s.h.compression = 0 ∧ s.h.filter = 0 ∧ s.h.interlace = 0
      ∧ s.h.width ≠ 0 ∧ s.h.height ≠ 0

/-- The Filter Engine's geometry while it is live (10_state.md R39, R40). -/
structure EngineOk (s : State) : Prop where
  decode : s.kind = .decode → s.fe.live = true →
    s.p.hasIHDR = true ∧ s.fe.mode = .decode ∧ s.fe.width = s.h.width.toNat ∧ s.fe.height = s.h.height.toNat
      ∧ s.fe.bpp = bppOf s.h.colorType
  encode : s.kind = .encode → s.fe.live = true → s.fe.mode = .encode ∧ s.fe.bpp = 4
  row : s.fe.row ≤ s.fe.height

/-- Which bytes of `PIX` have been written while the engine is live: on decode the rows below `FE.row`, on encode all of
them (43_filter_decode.md R268; 20_memory.md R60). -/
structure PixelsOk (s : State) : Prop where
  decode : s.fe.live = true → s.fe.mode = .decode →
    ∀ a, (s.pix.read a).isSome = true ↔ a < s.fe.row * (4 * s.fe.width)
  encode : s.fe.live = true → s.fe.mode = .encode →
    ∀ a, (s.pix.read a).isSome = true ↔ a < s.fe.height * (4 * s.fe.width)

/-- The palette: at most 256 entries, and exactly theirs are the bytes that hold values (10_state.md R37, 20_memory.md
R63). -/
structure PaletteOk (s : State) : Prop where
  size : s.pal.size ≤ 256
  mem : ∀ a, (s.pal.mem.read a).isSome = true ↔ a < 4 * s.pal.size

/-- Is the event an `EV_ERROR`? -/
def isError : Event → Bool
  | .error _ _ => true
  | _ => false

/-- Is the event an `EV_DRAIN`? -/
def isDrain : Event → Bool
  | .drain => true
  | _ => false

/-- What teardown leaves of the units of a session (60_exceptions.md R371). -/
def Stopped (s : State) : Prop :=
  match s.kind with
  | .decode => s.db.phase = .disposed ∧ s.db.blocks = [] ∧ s.db.reads = [] ∧ s.p.state = .failed ∧ s.fe.live = false
      ∧ s.infl.live = false
  | .encode => s.pk = .failed ∧ s.fe.live = false ∧ s.defl.live = false
  | .buffer => s.db.phase = .disposed ∧ s.db.blocks = [] ∧ s.db.reads = []
  | .crc => False

/-- The error latch and the error channel (60_exceptions.md R371 to R373, 10_state.md R49): no `EV_ERROR` before an error;
after one, `EV_ERROR` with the latched code is the last event, the only one of its kind, and the units are stopped. -/
structure ErrorOk (s : State) : Prop where
  quiet : s.err = none → ∀ e ∈ s.log, isError e = false
  latched : ∀ k, s.err = some k →
    Stopped s ∧ ∃ before info, s.log = before ++ [.error k.code info] ∧ ∀ e ∈ before, isError e = false

/-- The arguments of the `EV_DATA` events, oldest first: the pieces of `OUT` (20_memory.md R66). -/
def dataOf (log : List Event) : List (List Byte) :=
  log.filterMap (fun e => match e with
    | .data bytes => some bytes
    | _ => none)

/-- The packer's IHDR chunk (45_chunk_packer.md R323). -/
def headerChunk (s : State) : List Byte := chunkBytes tyIHDR (headerPayload s)

/-- The compressor's output only grows while its input grows or ends: what 20_memory.md R77 assumes of `DEFLATE_STREAM`. -/
def DeflMonotone (par : Config.Params) (cfg : Cfg) : Prop :=
  ∀ x y ended, deflateStream par cfg x false <+: deflateStream par cfg (x ++ y) ended

/-- The decompressor's output only grows with its input: what 20_memory.md R76 assumes of `INFLATE_STREAM`. -/
def InflMonotone (par : Config.Params) : Prop := ∀ x y, inflateStream par x <+: inflateStream par (x ++ y)

/-- Decompressing the whole compressed output of `d` gives `d` back: what 20_memory.md R77 assumes of `DEFLATE_STREAM`
(with R76: for a complete, valid stream `INFLATE_STREAM` is `INFLATE`). -/
def RoundTrip (par : Config.Params) (cfg : Cfg) (d : List Byte) : Prop :=
  inflateStream par (deflateStream par cfg d true) = d

/-- The compressed blocks handed over so far: none is empty, together they have the length `DEFL.emitted`, and, where the
stream only grows, they are its front (20_memory.md R77, 45_chunk_packer.md R324). -/
def BlocksOk (blocks : List (List Byte)) (s : State) : Prop :=
  (∀ b ∈ blocks, b ≠ []) ∧ blocks.flatten.length = s.defl.emitted ∧
    (DeflMonotone s.par s.cfg →
      blocks.flatten = (deflateStream s.par s.cfg s.defl.input s.defl.ended).take s.defl.emitted)

/-- What `OUT` holds, phase by phase, of an encode session (45_chunk_packer.md R331). -/
def OutputOk (s : State) : Prop :=
  s.kind = .encode →
    match s.pk with
    | .idle => dataOf s.log = [] ∧ s.defl.emitted = 0
    | .sig => s.started = true ∧ dataOf s.log = [] ∧ s.defl.emitted = 0
    | .ihdr => s.started = true ∧ dataOf s.log = [signature] ∧ s.defl.emitted = 0
    | .data => s.started = true ∧ ∃ blocks, BlocksOk blocks s ∧
        dataOf s.log = signature :: headerChunk s :: blocks.map (chunkBytes tyIDAT)
    | .done => s.started = true ∧ ∃ blocks, BlocksOk blocks s ∧ s.defl.ended = true ∧
        s.defl.emitted = (deflateStream s.par s.cfg s.defl.input true).length ∧
        dataOf s.log = signature :: headerChunk s :: (blocks.map (chunkBytes tyIDAT) ++ [chunkBytes tyIEND []]) ∧
        s.log.getLast? = some .endOfStream
    | .failed => True

/-- An encode has been started and has not failed. -/
def encoding (s : State) : Bool := s.pk == .sig || s.pk == .ihdr || s.pk == .data || s.pk == .done

/-- What `DEFL` has been given: row by row, the rows of `PIX` filtered each with some type; the end of input after the last
row and not before (44_filter_encode.md R300, R304). -/
structure RowsOk (s : State) : Prop where
  idle : s.kind = .encode → s.pk = .idle → s.defl.input = [] ∧ s.defl.ended = false
  rows : s.kind = .encode → encoding s = true → s.fe.mode = .encode ∧ s.fe.row ≤ s.fe.height ∧ 0 < s.fe.height ∧
    (∃ choice : Nat → FilterType,
      s.defl.input = (List.range s.fe.row).flatMap (fun y => filteredRow (choice y) (4 * s.fe.width) s.pix y)) ∧
    s.defl.ended = decide (s.fe.row = s.fe.height)

/-! ### Which operations may write which piece of state (10_state.md R54) -/

/-- The pieces of state, those that one set of operations writes taken together. -/
inductive Piece where
  | kind | crc | blocks | reads | paused | phase
  | pState | pChunk | remaining | hasIHDR | hasIEND | gamma
  | header | palette | feLive | feShape | feRow | feInq | feDone | pix
  | cfg | packer | err | log
  | inflIn | inflEnded | inflEmitted | inflLive
  | deflIn | deflEnded | deflEmitted | deflLive
  | started | result | par | agenda
deriving DecidableEq, Repr

/-- The two states agree on the piece. -/
def Same (p : Piece) (s t : State) : Prop :=
  match p with
  | .kind => t.kind = s.kind
  | .crc => t.crc = s.crc
  | .blocks => t.db.blocks = s.db.blocks
  | .reads => t.db.reads = s.db.reads
  | .paused => t.db.paused = s.db.paused
  | .phase => t.db.phase = s.db.phase
  | .pState => t.p.state = s.p.state
  | .pChunk => t.p.kind = s.p.kind ∧ t.p.length = s.p.length ∧ t.p.type = s.p.type
  | .remaining => t.p.remaining = s.p.remaining
  | .hasIHDR => t.p.hasIHDR = s.p.hasIHDR
  | .hasIEND => t.p.hasIEND = s.p.hasIEND
  | .gamma => t.p.gamma = s.p.gamma ∧ t.p.gammaValid = s.p.gammaValid
  | .header => t.h = s.h
  | .palette => t.pal = s.pal
  | .feLive => t.fe.live = s.fe.live
  | .feShape => t.fe.mode = s.fe.mode ∧ t.fe.width = s.fe.width ∧ t.fe.height = s.fe.height ∧ t.fe.bpp = s.fe.bpp
  | .feRow => t.fe.row = s.fe.row
  | .feInq => t.fe.inq = s.fe.inq
  | .feDone => t.fe.done = s.fe.done
  | .pix => t.pix = s.pix
  | .cfg => t.cfg = s.cfg
  | .packer => t.pk = s.pk
  | .err => t.err = s.err
  | .log => t.log = s.log
  | .inflIn => t.infl.input = s.infl.input
  | .inflEnded => t.infl.ended = s.infl.ended
  | .inflEmitted => t.infl.emitted = s.infl.emitted
  | .inflLive => t.infl.live = s.infl.live
  | .deflIn => t.defl.input = s.defl.input
  | .deflEnded => t.defl.ended = s.defl.ended
  | .deflEmitted => t.defl.emitted = s.defl.emitted
  | .deflLive => t.defl.live = s.defl.live
  | .started => t.started = s.started
  | .result => t.result = s.result
  | .par => t.par = s.par
  | .agenda => t.agenda = s.agenda

/-- The rows whose rule `K.HDR` runs: a chunk header is delivered. -/
def runsHeader : Instr → Bool
  | .chunkIhdr _ | .chunkPlte _ | .chunkTrns _ | .chunkGama _ | .chunkIdat _ | .chunkIend _ => true
  | .chunkAncillaryUnknown _ _ | .chunkCriticalUnknown _ _ | .kHdr _ | .dbServe => true
  | _ => false

/-- The rows whose rule takes a payload into the CRC: a known chunk's handler. -/
def runsHandler : Instr → Bool
  | .kIhdr _ | .kPlte _ | .kTrns _ | .kGama _ | .kIdat _ | .kIend _ | .dbServe => true
  | _ => false

/-- The rows that deliver to a parser rule. -/
def runsParser : Instr → Bool
  | .kSig _ | .kSkip _ | .kCrc _ => true
  | i => runsHeader i || runsHandler i

/-- The rows that deliver to a user tag. -/
def runsUser : Instr → Bool
  | .kUser0 _ | .kUser1 _ | .kUser2 _ | .kUser3 _ | .kUser4 _ | .kUser5 _ | .dbServe => true
  | _ => false

/-- The rows that take the front of the block store and the head of the read queue. -/
def delivery (i : Instr) : Bool := runsParser i || runsUser i

/-- The commands at a port (30_encoding.md R109 to R111). -/
def isCommand : Instr → Bool
  | .dbPush _ | .dbRequest _ _ _ | .dbClose _ | .dbDispose => true
  | .crcInit | .crcUpdate _ | .crcFinal => true
  | .decPush _ | .decClose _ | .decDispose | .encStart _ _ _ | .encDispose => true
  | _ => false

/-- The rows whose rule may raise one of the fifteen errors (60_exceptions.md R352); the chunk rows raise in `K.HDR`. -/
def mayRaise : Instr → Bool
  | .kSig _ | .kIhdr _ | .kTrns _ | .kCrc _ => true
  | .dbPush _ | .dbRequest _ _ _ | .dbClose _ | .decPush _ | .decClose _ | .dbDrainend | .teardown _ _ => true
  | i => runsHeader i

/-- Disposal of a session (60_exceptions.md R376). -/
def disposesSession : Instr → Bool
  | .decDispose | .encDispose => true
  | _ => false

/-- The rows that may end a session: by an error or by disposal. -/
def mayStop (i : Instr) : Bool := mayRaise i || disposesSession i

/-- The rows that emit a chunk of the output. -/
def runsPacker : Instr → Bool
  | .pkIhdr | .pkIdat _ | .deflOut _ | .pkIend | .deflDone => true
  | _ => false

/-- The rows that filter a row on encode. -/
def runsEncline : Instr → Bool
  | .feEncline | .filtNone _ | .filtSub _ | .filtUp _ | .filtAvg _ | .filtPaeth _ => true
  | _ => false

/-- The rows that defilter a scanline on decode. -/
def runsLine : Instr → Bool
  | .feLine | .defiltNone _ | .defiltSub _ | .defiltUp _ | .defiltAvg _ | .defiltPaeth _ => true
  | _ => false

/-- The rows that return a value. -/
def returnsValue : Instr → Bool
  | .crcFinal | .crc32 _ | .tbl _ | .paeth _ _ _ | .pred _ _ _ _ | .pkChunk _ _ => true
  | _ => false

/-- May the operation write the piece? -/
def writes (p : Piece) (i : Instr) : Bool :=
  match p with
  | .kind => false
  | .par => false
  | .agenda => false
  | .cfg => false
  | .crc => runsHeader i || runsHandler i || runsPacker i ||
      match i with
      | .crcInit | .crcUpdate _ | .pkChunk _ _ => true
      | _ => false
  | .blocks => delivery i || mayStop i ||
      match i with
      | .dbDispose | .finalize => true
      | _ => false
  | .reads => delivery i || mayStop i ||
      match i with
      | .dbDispose | .finalize | .pStart => true
      | _ => false
  | .paused => runsParser i ||
      match i with
      | .dbPush _ | .dbRequest _ _ _ | .dbClose _ | .decPush _ | .decClose _ | .pStart => true
      | _ => false
  | .phase => mayStop i ||
      match i with
      | .dbDispose | .finalize => true
      | _ => false
  | .pState => runsParser i || mayStop i
  | .pChunk => runsHeader i
  | .remaining => runsHeader i || (match i with
      | .kIdat _ => true
      | _ => false)
  | .hasIHDR => match i with
      | .kIhdr _ | .dbServe => true
      | _ => false
  | .header => match i with
      | .kIhdr _ | .dbServe => true
      | _ => false
  | .hasIEND => match i with
      | .kIend _ | .dbServe => true
      | _ => false
  | .inflEnded => match i with
      | .kIend _ | .dbServe => true
      | _ => false
  | .gamma => match i with
      | .kGama _ | .dbServe => true
      | _ => false
  | .palette => match i with
      | .kPlte _ | .kTrns _ | .dbServe => true
      | _ => false
  | .feLive => mayStop i ||
      match i with
      | .kIhdr _ | .encStart _ _ _ => true
      | _ => false
  | .feShape => match i with
      | .kIhdr _ | .dbServe | .encStart _ _ _ => true
      | _ => false
  | .feRow => runsLine i || runsEncline i ||
      match i with
      | .kIhdr _ | .dbServe | .encStart _ _ _ => true
      | _ => false
  | .feInq => runsLine i ||
      match i with
      | .kIhdr _ | .dbServe | .inflOut _ | .feFeed _ => true
      | _ => false
  | .feDone => runsEncline i ||
      match i with
      | .kIhdr _ | .dbServe | .encStart _ _ _ | .feFinish => true
      | _ => false
  | .pix => runsLine i ||
      match i with
      | .kIhdr _ | .dbServe | .encStart _ _ _ | .feFinish => true
      | _ => false
  | .packer => mayStop i ||
      match i with
      | .encStart _ _ _ | .pkSig | .pkIhdr | .pkIend | .deflDone => true
      | _ => false
  | .err => mayRaise i
  | .log => delivery i || mayRaise i || runsPacker i ||
      match i with
      | .pStart | .finalize | .feFinish | .pkSig => true
      | _ => false
  | .inflIn => match i with
      | .kIdat _ | .dbServe => true
      | _ => false
  | .inflEmitted => match i with
      | .inflOut _ | .feFeed _ => true
      | _ => false
  | .inflLive => mayStop i
  | .deflIn => runsEncline i
  | .deflEnded => runsEncline i
  | .deflEmitted => match i with
      | .deflOut _ | .pkIdat _ => true
      | _ => false
  | .deflLive => mayStop i
  | .started => isCommand i
  | .result => returnsValue i

/-! ### Short names used by the statements -/

/-- The instance has a Demand Buffer, the session is not dead, and reads are served (41 R160). -/
def Serving (s : State) : Prop := hasBuffer s.kind = true ∧ s.err = none ∧ (s.db.phase = .opened ∨ s.db.phase = .closing)

/-- A decode session in which `data` is what `DB.SERVE` can deliver to `tag` next. -/
def Delivers (tag : Tag) (data : List Byte) (s : State) : Prop := s.kind = .decode ∧ delivers tag data s = true

/-- One more read can be queued (20_memory.md R78). -/
def RoomForRead (s : State) : Prop := exceeds s.par.maxReads s.db.reads.length = false

/-- `EV_DRAIN`, where the buffer was paused (41 R157). -/
def drainIf (s : State) : List Event := if s.db.paused then [.drain] else []

/-- After the parser has taken `k` bytes from the front and queued its next read: the buffer, the events, and `P.state`.
The buffer is not paused any more. -/
def readNext (k : Nat) (events : List Event) (state : PState) (next : Request) (s : State) : State :=
  { s with
    db := { blocks := (takefront s.db.blocks k).2, reads := s.db.reads.tail ++ [next], paused := false,
            phase := s.db.phase }
    log := s.log ++ events ++ drainIf s
    p := { s.p with state := state } }

/-- The read of a chunk's CRC. -/
def crcRead : Request := { length := 4, allowLess := false, tag := .crc }

/-- The read of a chunk header. -/
def headerRead : Request := { length := 8, allowLess := false, tag := .hdr }

/-- A chunk header of this type and length has been read: the header registers, `P.kind`, and the CRC seeded with the type
(42_chunk_parser.md R195, R199). -/
def chunkOpened (ty length : Word) (kind : ChunkKind) (s : State) : State :=
  { s with
    crc := { acc := crcFold 0xFFFFFFFF (bytes32 ty), seeded := true }
    p := { s.p with length := length, type := ty, kind := kind } }

/-- The payload bytes folded into the chunk's CRC. -/
def summed (data : List Byte) (s : State) : State :=
  { s with crc := { s.crc with acc := crcFold s.crc.acc data } }

/-- What `PK.CHUNK(type, payload)` leaves in the CRC Engine (45_chunk_packer.md R327). -/
def chunkSum (ty : Word) (payload : List Byte) : Crc :=
  { acc := crcFold 0xFFFFFFFF (bytes32 ty ++ payload), seeded := true }

/-- The chunk-type row of a type (30_encoding.md R97, R98). -/
def chunkInstr (ty length : Word) : Instr :=
  match classify ty with
  | .ihdr => .chunkIhdr length
  | .plte => .chunkPlte length
  | .trns => .chunkTrns length
  | .gama => .chunkGama length
  | .idat => .chunkIdat length
  | .iend => .chunkIend length
  | .ancillary => .chunkAncillaryUnknown ty length
  | .critical => .chunkCriticalUnknown ty length

/-- The operation of a delivery: the tag's row with the bytes delivered. -/
def tagInstr (tag : Tag) (data : List Byte) : Instr :=
  match tag with
  | .sig => .kSig data
  | .hdr => .kHdr data
  | .ihdr => .kIhdr data
  | .plte => .kPlte data
  | .trns => .kTrns data
  | .gama => .kGama data
  | .idat => .kIdat data
  | .iend => .kIend data
  | .skip => .kSkip data
  | .crc => .kCrc data
  | .user0 => .kUser0 data
  | .user1 => .kUser1 data
  | .user2 => .kUser2 data
  | .user3 => .kUser3 data
  | .user4 => .kUser4 data
  | .user5 => .kUser5 data

/-- The operation of a defiltering: the filter type's row with the scanline's data. -/
def defiltInstr (f : FilterType) (data : List Byte) : Instr :=
  match f with
  | .none => .defiltNone data
  | .sub => .defiltSub data
  | .up => .defiltUp data
  | .average => .defiltAvg data
  | .paeth => .defiltPaeth data

/-- The operation of a filtering: the filter type's row with the row number. -/
def filtInstr (f : FilterType) (y : Nat) : Instr :=
  match f with
  | .none => .filtNone y
  | .sub => .filtSub y
  | .up => .filtUp y
  | .average => .filtAvg y
  | .paeth => .filtPaeth y

/-- The bytes an operation brings into the block store. -/
def pushedBytes : Instr → List Byte
  | .dbPush bytes | .decPush bytes | .dbClose bytes | .decClose bytes => bytes
  | _ => []

/-- The bytes `DB.SERVE` delivers: as many as the head request is served (41_demand_buffer.md R160). -/
def servedBytes (s : State) : List Byte :=
  match s.db.reads with
  | [] => []
  | r :: _ => (takefront s.db.blocks (serveCount s.par.take r s.db.blocks)).1

/-- The bytes a delivery takes from the front of the block store: those the row spells out, a chunk row's eight header
bytes, and `DB.SERVE`'s. -/
def deliveredBytes (i : Instr) (s : State) : List Byte :=
  match i with
  | .kSig data | .kHdr data | .kIhdr data | .kPlte data | .kTrns data | .kGama data | .kIdat data | .kIend data => data
  | .kSkip data | .kCrc data => data
  | .kUser0 data | .kUser1 data | .kUser2 data | .kUser3 data | .kUser4 data | .kUser5 data => data
  | .chunkIhdr length => headerBytes tyIHDR length
  | .chunkPlte length => headerBytes tyPLTE length
  | .chunkTrns length => headerBytes tyTRNS length
  | .chunkGama length => headerBytes tyGAMA length
  | .chunkIdat length => headerBytes tyIDAT length
  | .chunkIend length => headerBytes tyIEND length
  | .chunkAncillaryUnknown ty length | .chunkCriticalUnknown ty length => headerBytes ty length
  | .dbServe => servedBytes s
  | _ => []

/-- How far a buffer's life has gone (41 R176 (e)). -/
def phaseRank : DbPhase → Nat
  | .opened => 0
  | .closing => 1
  | .finalized => 2
  | .disposed => 3

/-- The same operation several times in a row, stopping at the first fault or refusal. -/
def times (i : Instr) : Nat → State → Out
  | 0, s => .next s
  | n + 1, s => andThen (exec i s) (times i n)

/-- The deliveries to a queue of exact reads out of one stream of bytes (41 R177). -/
def slices : List Request → List Byte → List Event
  | [], _ => []
  | r :: rs, bytes => .deliver r.tag (bytes.take r.length) :: slices rs (bytes.drop r.length)

/-- The scanline `f :: data` has been defiltered into row `FE.row` (43_filter_decode.md R256, R259, R260): every byte of the
row is 0xFF where the channel is absent and else the filtered byte plus its predictor modulo 256, from neighbours as the
result holds them; every byte outside the row is as before, and so is everything else. -/
def LineWritten (f : FilterType) (data : List Byte) (s t : State) : Prop :=
  (∀ x < s.fe.width, ∀ c < 4,
    t.pix.read (pixAddr s.fe.width s.fe.row x c) = some
      (match channel s.fe.bpp c with
       | none => 0xFF
       | some k => data.getD (x * s.fe.bpp + k) 0 + predOf f (leftOf s.fe.width t.pix s.fe.row x c)
           (upOf s.fe.width t.pix s.fe.row x c) (upLeftOf s.fe.width t.pix s.fe.row x c))) ∧
  (∀ a, a < pixAddr s.fe.width s.fe.row 0 0 ∨ pixAddr s.fe.width s.fe.row 0 0 + 4 * s.fe.width ≤ a →
    t.pix.read a = s.pix.read a) ∧
  t = { s with
    pix := t.pix
    fe := { s.fe with row := s.fe.row + 1, inq := s.fe.inq.drop (1 + s.fe.width * s.fe.bpp) } }

end Sys2Proof.Safety
end

