-- ==== Sys2Proof/Certificates/Slice0/Obligations.lean ====
section
/-! DEFINITION. The statements for the provers, each from the spec's rules, named in its docstring. -/

section Statements

open Sys2Proof Sys2Proof.Machine Sys2Proof.Safety

/-! ### Encoding and decoding -/

/-- A few operations written out from the spec's codes (30_encoding.md R97, R98, R106, R109 to R111, R115) behind the
model's selector byte (log 3): what the decoder reads. -/
def Obligations.DecodeWords : Prop :=
  decode [0, 0x49, 0x48, 0x44, 0x52, 0x00, 0x00, 0x00, 0x0D] = .ok (.chunkIhdr 13) ∧
  decode [0, 0x74, 0x45, 0x58, 0x74, 0x00, 0x00, 0x00, 0x02] = .ok (.chunkAncillaryUnknown 0x74455874 2) ∧
  decode [0, 0x41, 0x42, 0x43, 0x44, 0x00, 0x00, 0x00, 0x02] = .ok (.chunkCriticalUnknown 0x41424344 2) ∧
  decode [1, 0x04, 0xAA] = .ok (.defiltPaeth [0xAA]) ∧
  decode [2, 0x03, 0x05] = .ok (.filtAvg 5) ∧
  decode [3, 0x09, 0x1F, 0x15, 0xC4, 0x89] = .ok (.kCrc [0x1F, 0x15, 0xC4, 0x89]) ∧
  decode [4, 0x01, 0x00, 0x0A, 0x04] = .ok (.dbRequest 4 false .user0) ∧
  decode [5, 0x02] = .ok .crcFinal ∧
  decode [6, 0x03] = .ok .decDispose ∧
  decode [7, 0x00, 0, 0, 0, 1, 0, 0, 0, 1, 0xFF, 0xFF, 0xFF, 0xFF] = .ok (.encStart 1 1 [0xFF, 0xFF, 0xFF, 0xFF]) ∧
  decode [1, 0x05] = .error .noSuchFilter ∧ decode [5, 0x03] = .error .noSuchCode ∧
  decode [6, 0x01] = .error .noSuchCode ∧ decode [7, 0x02] = .error .noSuchCode

/-- Decode and encode agree: every well-formed operation, with every operand, decodes from its own encoding. Whatever
bytes are offered, an operation the decoder accepts is well formed: an unknown chunk row carries a type of its own
class (30_encoding.md R98), a chunk payload fits its length field (45_chunk_packer.md R327). The layout of an operation
as bytes is the model's choice (log 3). -/
def Obligations.DecodeEncode : Prop :=
  (∀ i : Instr, i.WellFormed → decode (encode i) = .ok i) ∧
  ∀ (bytes : List Byte) (i : Instr), decode bytes = .ok i → i.WellFormed

/-- Byte order (00_scope.md R12): `be32` weighs the byte that comes first most, `bytes32` is its inverse in both
directions. The dispatch classes (30_encoding.md R97, R98): a known type selects its own row whatever its bit 29; an
unknown one is ancillary where bit 5 of its first byte is set and critical where it is clear. -/
def Obligations.FieldsAndTypes : Prop :=
  ((∀ b0 b1 b2 b3 : Byte,
     (be32 b0 b1 b2 b3).toNat = b0.toNat * 2 ^ 24 + b1.toNat * 2 ^ 16 + b2.toNat * 2 ^ 8 + b3.toNat ∧
     bytes32 (be32 b0 b1 b2 b3) = [b0, b1, b2, b3]) ∧
   ∀ v : Word, bytes32 v = [v.extractLsb' 24 8, v.extractLsb' 16 8, v.extractLsb' 8 8, v.extractLsb' 0 8] ∧
     ∃ b0 b1 b2 b3, bytes32 v = [b0, b1, b2, b3] ∧ be32 b0 b1 b2 b3 = v) ∧
  classify 0x49484452 = .ihdr ∧ classify 0x504C5445 = .plte ∧ classify 0x74524E53 = .trns ∧
  classify 0x67414D41 = .gama ∧ classify 0x49444154 = .idat ∧ classify 0x49454E44 = .iend ∧
  ∀ ty : Word, ty ∉ [0x49484452, 0x504C5445, 0x74524E53, 0x67414D41, 0x49444154, 0x49454E44] →
    (ty.getLsbD 29 = true → classify ty = .ancillary) ∧ (ty.getLsbD 29 = false → classify ty = .critical)

/-! ### The step -/

/-- A step runs the decoded operation: the oldest entry of the agenda is taken off it, its bytes are decoded, and the
step is `exec` of that operation on the state without the entry; bytes the decoder rejects are refused. With nothing
on the agenda the step is `exec` of the internal step the schedule picks, and where none is enabled the state stays
(log 2). -/
def Obligations.StepRunsDecoded : Prop :=
  (∀ (s : State) (word : List Byte) (rest : List Input), s.agenda = .op word :: rest →
    (∀ i, decode word = .ok i → step s = exec i { s with agenda := rest }) ∧
    (∀ r, decode word = .error r → step s = .refused (.undecodable r))) ∧
  ∀ s : State, s.agenda = [] →
    (∀ i, autoPick s = some i → step s = exec i s) ∧ (autoPick s = none → step s = .next s)

/-- What the HOST does that is no operation: a configuration write takes effect before the session's first command and
is refused after it (70_reset_and_hazards.md R405, 93 U19); the construction of a session leaves its state after reset
(70 R400), with the agenda that is left. Both are agenda entries of the model (log 19, log 22), and a construction that
would queue more reads than `DB_MAXREADS` (20_memory.md R78) is refused: the model's choice (log 25). -/
def Obligations.HostEntries : Prop :=
  ∀ (s : State) (rest : List Input),
    (∀ on, s.agenda = .cfgCheckCRC on :: rest → s.kind = .decode →
      step s = if s.started then .refused .lateConfiguration
        else .next { s with cfg := { s.cfg with checkCRC := on }, agenda := rest }) ∧
    (∀ l, s.agenda = .cfgCandidates l :: rest → s.kind = .encode →
      step s = if s.started then .refused .lateConfiguration
        else .next { s with cfg := { s.cfg with candidates := l }, agenda := rest }) ∧
    (∀ a b c, s.agenda = .cfgTransform a b c :: rest → s.kind = .encode →
      step s = if s.started then .refused .lateConfiguration
        else .next { s with cfg := { s.cfg with chunkSize := a, level := b, strategy := c }, agenda := rest }) ∧
    (∀ kind par, s.agenda = .construct kind par :: rest →
      step s = if exceeds par.maxReads (firstReads kind).length then .refused .readsFull
        else .next { State.construct kind par with agenda := rest })

/-- Where the schedule finds nothing to do, no internal step of any agent is enabled (00_scope.md R16,
60_exceptions.md R389): each leaves the state as it is, whatever the bytes it would deliver or hand over. The schedule,
and that a step that is not enabled leaves the state, are the model's choices (log 2, log 5). -/
def Obligations.ScheduleIsComplete : Prop :=
  ∀ s : State, autoPick s = none →
    exec .dbServe s = .next s ∧ exec .dbDrainend s = .next s ∧ (∀ k, exec (.inflOut k) s = .next s) ∧
    exec .feLine s = .next s ∧ exec .feFinish s = .next s ∧ exec .pkSig s = .next s ∧ exec .pkIhdr s = .next s ∧
    exec .feEncline s = .next s ∧ (∀ k, exec (.deflOut k) s = .next s) ∧ exec .deflDone s = .next s ∧
    (∀ tag data, exec (tagInstr tag data) s = .next s)

/-! ### Reset -/

/-- The state after reset of a decode session: the values 70_reset_and_hazards.md R401 gives. What R401 leaves
unspecified is not mentioned; that the instance is a decode session is the model's choice (log 1). The reset of an
encode session (70_reset_and_hazards.md R402) and of a Demand Buffer on its own (R403): the values the spec gives,
whatever the instance's parameters; and nothing is enabled until a command comes. -/
def Obligations.ResetValues : Prop :=
  (State.reset.db = { blocks := [], reads := [{ length := 8, allowLess := false, tag := .sig }], paused := false,
                      phase := .opened } ∧
   State.reset.p.state = .awaitSignature ∧ State.reset.p.hasIHDR = false ∧ State.reset.p.hasIEND = false ∧
   State.reset.p.gammaValid = false ∧ State.reset.pal.size = 0 ∧ State.reset.fe.live = false ∧
   State.reset.fe.done = false ∧
   State.reset.infl = { input := [], ended := false, emitted := 0, live := true } ∧
   State.reset.cfg.checkCRC = true ∧ State.reset.cfg.candidates = [0, 1, 2, 3, 4] ∧ State.reset.err = none ∧
   State.reset.log = []) ∧
  ∀ par : Config.Params,
    ((State.construct .encode par).pk = .idle ∧ (State.construct .encode par).fe.live = false ∧
      (State.construct .encode par).fe.done = false ∧
      (State.construct .encode par).defl = { input := [], ended := false, emitted := 0, live := true } ∧
      (State.construct .encode par).cfg.candidates = [0, 1, 2, 3, 4] ∧ (State.construct .encode par).err = none ∧
      (State.construct .encode par).log = [] ∧ autoPick (State.construct .encode par) = none) ∧
    (State.construct .buffer par).db = { blocks := [], reads := [], paused := false, phase := .opened } ∧
    autoPick (State.construct .buffer par) = none

/-- Every invariant below holds right after reset. -/
def Obligations.ResetInvariants : Prop :=
  MemoryOk State.reset ∧ BufferOk State.reset ∧ ParserInv State.reset ∧ HeaderOk State.reset ∧ EngineOk State.reset ∧
  PixelsOk State.reset ∧ PaletteOk State.reset ∧ ErrorOk State.reset ∧ OutputOk State.reset ∧ RowsOk State.reset

/-! ### Invariants that every step keeps -/

/-- The two memories keep their canonical form. 10_state.md R37, 20_memory.md R63: the palette has at most 256
entries, and exactly their bytes hold values. -/
def Obligations.MemoryKept : Prop :=
  (∀ s t : State, MemoryOk s → step s = .next t → MemoryOk t) ∧
  ∀ s t : State, PaletteOk s → step s = .next t → PaletteOk t

/-- 41_demand_buffer.md R176 (a) and (b): no block is empty, and a buffer that is finalized or disposed holds neither
bytes nor requests; with it, no at-most read of length 0 is queued (R159). -/
def Obligations.BufferKept : Prop :=
  ∀ s t : State, BufferOk s → step s = .next t → BufferOk t

/-- 42_chunk_parser.md R192 and 10_state.md R27: until its buffer is disposed, a decode session has exactly the read
queued that `P.state` and `P.kind` name. 42_chunk_parser.md R192: in a state that keeps the parser's discipline, no
step delivers a header or a CRC of another length than its request, and none pushes into a transform that is not live
or has been told the end of its input. -/
def Obligations.ParserKept : Prop :=
  (∀ s t : State, ParserInv s → step s = .next t → ParserInv t) ∧
  ∀ s : State, ParserInv s → step s ≠ .fault .deliveredLength ∧ step s ≠ .fault .transformClosed

/-- The header registers, once an IHDR has been parsed, hold a header the checks accept (10_state.md R33), and the
Filter Engine keeps the geometry it was constructed with, its row never beyond the image (R39, R40). "Immutable once
parsed" (10_state.md R33): once an IHDR has been parsed no step of the session changes the header registers. -/
def Obligations.HeaderKept : Prop :=
  (∀ s t : State, HeaderOk s → EngineOk s → step s = .next t → HeaderOk t ∧ EngineOk t) ∧
  ∀ (s t : State) (i : Instr), ParserInv s → s.p.hasIHDR = true → exec i s = .next t → t.h = s.h ∧ t.p.hasIHDR = true

/-- 43_filter_decode.md R268: on decode exactly the bytes of the rows below `FE.row` have been written, so that every
byte has been when `FE.FINISH` is enabled; on encode all of them have. -/
def Obligations.PixelsKept : Prop :=
  ∀ s t : State, PixelsOk s → step s = .next t → PixelsOk t

/-- 60_exceptions.md R372, R373: there is at most one `EV_ERROR`, it is the last event, it carries the latched code,
and the session's units are stopped. -/
def Obligations.ErrorKept : Prop :=
  ∀ s t : State, ErrorOk s → step s = .next t → ErrorOk t

/-- 45_chunk_packer.md R331, with 20_memory.md R74: the signature, then the IHDR chunk, then one IDAT chunk per
compressed block in the order the transform produced them, none of them empty, and at the end the IEND chunk, then
`EV_END`; where the transform's output only grows (R77), the blocks together are that output. 44_filter_encode.md
R300, R304: what the transform has been given is the filtered rows in order, and the end of input exactly after the
last. 45_chunk_packer.md R331: a finished output has at least one IDAT chunk, wherever the transforms are what
20_memory.md R76, R77 assume of them; the graphs of the model need not be (log 11, log 24). -/
def Obligations.OutputKept : Prop :=
  (∀ s t : State, OutputOk s → step s = .next t → OutputOk t) ∧
  (∀ s t : State, RowsOk s → step s = .next t → RowsOk t) ∧
  ∀ s : State, OutputOk s → RowsOk s → s.kind = .encode → s.pk = .done → InflMonotone s.par →
    RoundTrip s.par s.cfg [] → RoundTrip s.par s.cfg s.defl.input →
    ∃ blocks, blocks ≠ [] ∧ BlocksOk blocks s ∧
      dataOf s.log = signature :: headerChunk s :: (blocks.map (chunkBytes tyIDAT) ++ [chunkBytes tyIEND []])

/-! ### Whole-machine rules -/

/-- 60_exceptions.md R373: a dead session ignores every command and has no enabled step. No operation changes anything
but the value the pure functions return, which are not the session's (log 9); nothing is picked by the schedule. -/
def Obligations.DeadSession : Prop :=
  ∀ (s : State), s.err ≠ none →
    (∀ i, (∀ b, i ≠ .crc32 b) → (∀ n, i ≠ .tbl n) → (∀ l a u, i ≠ .paeth l a u) → (∀ f l a u, i ≠ .pred f l a u) →
      exec i s = .next s) ∧
    (∀ i t, exec i s = .next t → { t with result := s.result } = s) ∧
    autoPick s = none

/-- 10_state.md R54: an operation writes no piece of state that the table, with the writes of teardown (60 R371) and
of disposal (60 R376), does not give it. For every operation this is its frame: everything `writes` does not name is
as before, the whole of each memory included. -/
def Obligations.WritersOnly : Prop :=
  ∀ (p : Piece) (i : Instr) (s t : State), exec i s = .next t → writes p i = false → Same p s t

/-- 41_demand_buffer.md R176 (e), R170: `DB.phase` only moves forward, and a disposed buffer stays empty and disposed
and delivers nothing. 10_state.md R50, 60_exceptions.md R374: the event log only grows; no event is taken back. -/
def Obligations.OnlyForward : Prop :=
  (∀ (i : Instr) (s t : State), exec i s = .next t →
     phaseRank s.db.phase ≤ phaseRank t.db.phase ∧
     (s.db.phase = .disposed → ∀ tag data, exec (tagInstr tag data) s = .next s ∧ exec .dbServe s = .next s)) ∧
  ∀ (i : Instr) (s t : State), exec i s = .next t → s.log <+: t.log

/-- 41_demand_buffer.md R157: `EV_DRAIN` is emitted exactly when `DB.paused` goes from true to false, whatever the
operation, and an operation that takes it from true to false queues a read (a delivery after taking the request it
answers): it is the request that causes it, and nothing else. An accepted request clears `DB.paused`, and emits the
event only if it was set. -/
def Obligations.DrainOnce : Prop :=
  (∀ (i : Instr) (s t : State), exec i s = .next t →
    (t.log.filter isDrain).length =
      (s.log.filter isDrain).length + (if s.db.paused = true ∧ t.db.paused = false then 1 else 0) ∧
    (s.db.paused = true → t.db.paused = false →
      ∃ r, t.db.reads = (if delivery i then s.db.reads.tail else s.db.reads) ++ [r])) ∧
  ∀ (length : Nat) (allowLess : Bool) (tag : Tag) (s t : State),
    (s.db.phase = .opened ∨ s.db.phase = .closing) → request length allowLess tag s = .next t →
      t.db.paused = false ∧ t.log = s.log ++ (if s.db.paused then [.drain] else [])

/-- 20_memory.md R71, R73, 41_demand_buffer.md R161: while a buffer is open or closing, an operation that delivers
nothing appends the bytes it pushes at the back of the stream of buffered bytes and does nothing else to it; a delivery
waits, or takes exactly the bytes it delivers from the front, so that those and what is left are what was buffered. -/
def Obligations.StreamConserved : Prop :=
  ∀ (i : Instr) (s t : State), exec i s = .next t → (t.db.phase = .opened ∨ t.db.phase = .closing) → s.err = none →
    hasBuffer s.kind = true →
    (delivery i = false → t.db.blocks.flatten = s.db.blocks.flatten ++ pushedBytes i) ∧
    (delivery i = true → t = s ∨ deliveredBytes i s ++ t.db.blocks.flatten = s.db.blocks.flatten)

/-! ### The Demand Buffer -/

/-- 41_demand_buffer.md R161: `takefront` returns the first `k` bytes of the concatenation of the blocks and leaves
the rest of it; and R163: a block the read ends inside is cut, and the piece that stays is not empty. -/
def Obligations.Takefront : Prop :=
  (∀ (blocks : List (List Byte)) (k : Nat), k ≤ buffered blocks →
    (takefront blocks k).1 = blocks.flatten.take k ∧ (takefront blocks k).2.flatten = blocks.flatten.drop k) ∧
  (∀ (b : List Byte) (bs : List (List Byte)) (k : Nat), 0 < k →
    takefront (b :: bs) k =
      if b.length ≤ k then (b ++ (takefront bs (k - b.length)).1, (takefront bs (k - b.length)).2)
      else (b.take k, b.drop k :: bs)) ∧
  ∀ blocks : List (List Byte), takefront blocks 0 = ([], blocks) ∧
    ∀ k, (∀ b ∈ blocks, b ≠ []) → ∀ b ∈ (takefront blocks k).2, b ≠ []

/-- 41_demand_buffer.md R151, R153: an accepted push appends one block and pauses the buffer if no read is queued,
else leaves `DB.paused`; it serves nothing (R154), whatever the read queue, and is accepted while paused. Both ports.
-/
def Obligations.PushAppends : Prop :=
  ∀ (bytes : List Byte) (s : State), s.err = none → s.db.phase = .opened → bytes ≠ [] →
    exceeds s.par.capacity (buffered s.db.blocks + bytes.length) = false →
    (hasBuffer s.kind = true → exec (.dbPush bytes) s = .next { s with
      started := true
      db := { s.db with blocks := s.db.blocks ++ [bytes], paused := if s.db.reads = [] then true else s.db.paused } }) ∧
    (s.kind = .decode → exec (.decPush bytes) s = .next { s with
      started := true
      db := { s.db with blocks := s.db.blocks ++ [bytes], paused := if s.db.reads = [] then true else s.db.paused } })

/-- 41_demand_buffer.md R156: a request that a client may make appends itself to the read queue, and a paused buffer
resumes and signals drain. -/
def Obligations.RequestQueues : Prop :=
  ∀ (length : Nat) (allowLess : Bool) (tag : Tag) (s : State), s.kind = .buffer → s.err = none →
    (s.db.phase = .opened ∨ s.db.phase = .closing) → isParserTag tag = false → (allowLess = true → 0 < length) →
    exceeds s.par.maxReads (s.db.reads.length + 1) = false →
    exec (.dbRequest length allowLess tag) s = .next { s with
      started := true
      db := { s.db with
        reads := s.db.reads ++ [{ length := length, allowLess := allowLess, tag := tag }]
        paused := false }
      log := s.log ++ drainIf s }

/-- 60_exceptions.md R352, codes 14 and 15: a push, or a close with bytes, on a buffer that is not open raises
`WriteAfterClose`; a request on one that is finalized or disposed raises `ReadAfterDispose`. That the error comes
before the refusal of an empty push (U1) and of an at-most read of 0 (U2) is the model's choice (log 15). -/
def Obligations.BufferErrors : Prop :=
  ∀ s : State, s.err = none →
    (∀ bytes, s.db.phase ≠ .opened →
      (hasBuffer s.kind = true →
        exec (.dbPush bytes) s = .next (teardown .writeAfterClose [] { s with started := true }) ∧
        (bytes ≠ [] → exec (.dbClose bytes) s = .next (teardown .writeAfterClose [] { s with started := true }))) ∧
      (s.kind = .decode →
        exec (.decPush bytes) s = .next (teardown .writeAfterClose [] { s with started := true }) ∧
        (bytes ≠ [] → exec (.decClose bytes) s = .next (teardown .writeAfterClose [] { s with started := true })))) ∧
    (∀ length allowLess tag, s.kind = .buffer → isParserTag tag = false →
      (s.db.phase = .finalized ∨ s.db.phase = .disposed) →
      exec (.dbRequest length allowLess tag) s = .next (teardown .readAfterDispose [] { s with started := true }))

/-- 41_demand_buffer.md R164, R166: a close without bytes on an open buffer finalizes it at once where no read is
pending, discarding what is buffered, and else leaves it closing; on any other it has no effect. Both ports.
41_demand_buffer.md R167, R168: in phase `Closing`, where the head cannot be served, the buffer finalizes if no read
is pending and else raises `PendingReadsOnClose`, at-most reads with nothing buffered included; while the head can be
served, `DB.DRAINEND` waits. 41_demand_buffer.md R166: `finalize()`, wherever no read is queued on a buffer that
serves reads: the bytes nobody asked for are discarded and `EV_FINISHED` is emitted; when it runs as an operation of
its own is the model's choice (log 21). -/
def Obligations.BufferEnds : Prop :=
  (∀ s : State, s.err = none →
     let closed : State :=
       if s.db.phase ≠ .opened then { s with started := true }
       else if s.db.reads = [] then { s with
         started := true
         db := { s.db with blocks := [], reads := [], phase := .finalized }
         log := s.log ++ [.finished] }
       else { s with started := true, db := { s.db with phase := .closing } }
     (hasBuffer s.kind = true → exec (.dbClose []) s = .next closed) ∧
     (s.kind = .decode → exec (.decClose []) s = .next closed)) ∧
  (∀ s : State, hasBuffer s.kind = true → s.err = none → s.db.phase = .closing →
     (s.db.reads = [] → exec .dbDrainend s = .next { s with
       db := { s.db with blocks := [], reads := [], phase := .finalized }, log := s.log ++ [.finished] }) ∧
     (∀ r rest, s.db.reads = r :: rest →
       (if r.allowLess then buffered s.db.blocks = 0 else buffered s.db.blocks < r.length) →
       exec .dbDrainend s = .next (teardown .pendingReadsOnClose [] s)) ∧
     (serveEnabled s = true → exec .dbDrainend s = .next s)) ∧
  ∀ s : State, Serving s → s.db.reads = [] →
    exec .finalize s = .next { s with
      db := { s.db with blocks := [], reads := [], phase := .finalized }, log := s.log ++ [.finished] }

/-- 41_demand_buffer.md R165: a close with final bytes is exactly a push followed by a close without bytes, in one
step, on every state and at both ports. -/
def Obligations.CloseIsPushThenClose : Prop :=
  ∀ (bytes : List Byte) (s : State), bytes ≠ [] →
    exec (.dbClose bytes) s = andThen (exec (.dbPush bytes) s) (exec (.dbClose [])) ∧
    exec (.decClose bytes) s = andThen (exec (.decPush bytes) s) (exec (.decClose []))

/-- 41_demand_buffer.md R160, R162, R175: `DB.SERVE` serves the head of the queue only: it is the delivery, to the
head's tag, of the first bytes buffered, exactly as many as an exact read asks for and as many as `TAKE` says for an
at-most read, which lies between 1 and what is asked for and buffered. A head that cannot be served is not passed
over. 41_demand_buffer.md R175: a delivery to a user tag takes the request and its bytes and emits `EV_DELIVER`,
nothing else. -/
def Obligations.Delivery : Prop :=
  (∀ (s : State) (r : Request) (rest : List Request), BufferOk s → s.db.reads = r :: rest →
     (s.kind = .decode ∨ isParserTag r.tag = false) →
     (serveEnabled s = true →
       exec .dbServe s = exec (tagInstr r.tag (takefront s.db.blocks (serveCount s.par.take r s.db.blocks)).1) s ∧
       (r.allowLess = false → serveCount s.par.take r s.db.blocks = r.length) ∧
       (r.allowLess = true → 1 ≤ serveCount s.par.take r s.db.blocks ∧
         serveCount s.par.take r s.db.blocks ≤ min r.length (buffered s.db.blocks))) ∧
     (serveEnabled s = true ↔ Serving s ∧
       (if r.allowLess then 0 < buffered s.db.blocks else r.length ≤ buffered s.db.blocks)) ∧
     (serveEnabled s = false → exec .dbServe s = .next s)) ∧
  (∀ (tag : Tag) (data : List Byte) (s : State), isParserTag tag = false → delivers tag data s = true →
    exec (tagInstr tag data) s = .next { s with
      db := { s.db with blocks := (takefront s.db.blocks data.length).2, reads := s.db.reads.tail }
      log := s.log ++ [.deliver tag data] }) ∧
  ∀ (r : Request) (rest : List Request) (s : State), s.db.reads = r :: rest → isParserTag r.tag = false →
    serveEnabled s = true →
    exec .dbServe s = .next { s with
      db := { s.db with blocks := (takefront s.db.blocks (serveCount s.par.take r s.db.blocks)).2, reads := rest }
      log := s.log ++ [.deliver r.tag (takefront s.db.blocks (serveCount s.par.take r s.db.blocks)).1] }

/-- 41_demand_buffer.md R177: serving a queue of exact reads slices the stream of buffered bytes exactly at the
cumulative lengths, however it was pushed; every such read is served once its bytes are buffered. -/
def Obligations.ExactSlices : Prop :=
  ∀ s : State, s.kind = .buffer → s.err = none → (s.db.phase = .opened ∨ s.db.phase = .closing) →
    (∀ r ∈ s.db.reads, r.allowLess = false ∧ isParserTag r.tag = false) →
    (s.db.reads.map Request.length).sum ≤ buffered s.db.blocks →
    ∃ t, times .dbServe s.db.reads.length s = .next t ∧
      t.log = s.log ++ slices s.db.reads s.db.blocks.flatten ∧ t.db.reads = [] ∧
      t.db.blocks.flatten = s.db.blocks.flatten.drop (s.db.reads.map Request.length).sum

/-- 41_demand_buffer.md R178: a push arriving with zero pending reads transitions the buffer to paused; the next
request transitions it back and fires a drain notification. Pushes in between leave it paused. -/
def Obligations.Backpressure : Prop :=
  ∀ (bytes : List Byte) (length : Nat) (allowLess : Bool) (tag : Tag) (s t : State), s.kind = .buffer → s.err = none →
    s.db.reads = [] → s.db.phase = .opened → exec (.dbPush bytes) s = .next t →
    t.db.paused = true ∧
    (∀ more u, exec (.dbPush more) t = .next u → u.db.paused = true ∧ u.log = t.log) ∧
    ∀ v, exec (.dbRequest length allowLess tag) t = .next v → v.db.paused = false ∧ v.log = t.log ++ [.drain]

/-! ### The CRC Engine -/

/-- 40_crc.md R132 to R134: the commands of an engine on its own, in every state; an update with no bytes leaves the
accumulator. That before the first `CRC.INIT`, where the accumulator has no defined value (10_state.md R21), a command
reads a free value, nothing being known of it, is the model's choice (log 7). The value returned stands in a register
of the model's own (log 9). -/
def Obligations.CrcCommands : Prop :=
  ∀ (bytes : List Byte) (s : State), s.kind = .crc → s.err = none →
    exec .crcInit s = .next { s with started := true, crc := { acc := 0xFFFFFFFF, seeded := true } } ∧
    (s.crc.seeded = true →
      exec (.crcUpdate bytes) s = .next { s with
        started := true
        crc := { s.crc with
          acc := bytes.foldl (fun acc b => tblEntry ((acc ^^^ b.setWidth 32).setWidth 8) ^^^ (acc >>> 8)) s.crc.acc } } ∧
      exec .crcFinal s = .next { s with started := true, result := .bits (s.crc.acc ^^^ 0xFFFFFFFF) }) ∧
    (s.crc.seeded = false →
      exec (.crcUpdate []) s = .next { s with started := true } ∧
      (bytes ≠ [] → exec (.crcUpdate bytes) s = .next { s with
        started := true
        crc := {
          acc := bytes.foldl (fun acc b => tblEntry ((acc ^^^ b.setWidth 32).setWidth 8) ^^^ (acc >>> 8)) Config.freeCrc
          seeded := true } }) ∧
      exec .crcFinal s = .next { s with started := true, result := .bits (Config.freeCrc ^^^ 0xFFFFFFFF) })

/-- 40_crc.md R131, R138: the function `TBL` runs the eight rounds of the reflected polynomial on the byte, and the
byte step of R133 is the same eight rounds on the accumulator with the byte folded into its low bits. -/
def Obligations.TableAndBitSerial : Prop :=
  let round : Word → Word := fun c => if c.getLsbD 0 then 0xEDB88320 ^^^ (c >>> 1) else c >>> 1
  (∀ (n : Byte) (s : State), exec (.tbl n) s = .next { s with result := .bits (round^[8] (n.setWidth 32)) }) ∧
  ∀ (acc : Word) (b : Byte), crcByte acc b = round^[8] (acc ^^^ b.setWidth 32)

/-- 40_crc.md R135: `CRC32(s)` is the value `CRC.FINAL` returns after `CRC.INIT` and `CRC.UPDATE(s)`, a function of
`s` alone; of no bytes it is 0, of the nine ASCII digits the published check value. 40_crc.md R137: two updates leave
the same accumulator as one with the bytes joined; hence the value accumulated over a chunk does not depend on how its
payload was cut. -/
def Obligations.CrcFunction : Prop :=
  ((∀ (bytes : List Byte) (s e : State), e.kind = .crc → e.err = none →
     ∃ v t, andThen (andThen (exec .crcInit e) (exec (.crcUpdate bytes))) (exec .crcFinal) = .next t ∧
       t.result = .bits v ∧ exec (.crc32 bytes) s = .next { s with result := .bits v } ∧ v = crcOf bytes) ∧
   crcOf [] = 0 ∧ crcOf [0x31, 0x32, 0x33, 0x34, 0x35, 0x36, 0x37, 0x38, 0x39] = 0xCBF43926) ∧
  (∀ (a b : List Byte) (s : State), s.kind = .crc →
    andThen (exec (.crcUpdate a) s) (exec (.crcUpdate b)) = exec (.crcUpdate (a ++ b)) s) ∧
  ∀ (ty : Word) (pieces : List (List Byte)),
    crcValue (pieces.foldl crcFold (crcFold crcStart (bytes32 ty))) = crcOf (bytes32 ty ++ pieces.flatten)

/-- 40_crc.md R139: for a fixed byte the step is a bijection of the accumulator, for a fixed accumulator different
bytes give different results, because the table's entries differ in their top byte; so changing exactly one byte
changes the CRC. -/
def Obligations.CrcSensitivity : Prop :=
  (∀ b : Byte, Function.Bijective (fun acc => crcByte acc b)) ∧
  (∀ m n : Byte, (tblEntry m).extractLsb' 24 8 = (tblEntry n).extractLsb' 24 8 → m = n) ∧
  (∀ (acc : Word) (b c : Byte), crcByte acc b = crcByte acc c → b = c) ∧
  ∀ (before after : List Byte) (b c : Byte), b ≠ c → crcOf (before ++ b :: after) ≠ crcOf (before ++ c :: after)

/-! ### The Chunk Parser -/

/-- 42_chunk_parser.md R191: `P.START` issues the parser's first read, on a decode session in which it has not run.
42_chunk_parser.md R193: eight bytes equal to the signature lead to the first header; any other eight raise
`InvalidSignature`. -/
def Obligations.ParserOpens : Prop :=
  ((∀ s : State, s.kind = .decode → s.err = none → s.db.phase = .opened → s.p.state = .awaitSignature → s.db.reads = [] →
     exceeds s.par.maxReads 1 = false →
     exec .pStart s = .next { s with
       db := { s.db with reads := [{ length := 8, allowLess := false, tag := .sig }], paused := false }
       log := s.log ++ drainIf s }) ∧
   ∀ par : Config.Params, exceeds par.maxReads 1 = false →
     exec .pStart (State.fresh .decode par) = .next (State.construct .decode par)) ∧
  (∀ s : State, Delivers .sig signature s → RoomForRead s →
    exec (.kSig signature) s = .next (readNext 8 [] .awaitChunkHeader headerRead s)) ∧
  ∀ (data : List Byte) (s : State), Delivers .sig data s → data ≠ [0x89, 0x50, 0x4E, 0x47, 0x0D, 0x0A, 0x1A, 0x0A] →
    exec (.kSig data) s = .next (teardown .invalidSignature [] (served data.length s))

/-- 42_chunk_parser.md R196: until an IHDR has been parsed, any other chunk raises `MissingHeader`, before anything
else is done with it: an unknown ancillary chunk is not skipped and an unknown critical one does not raise
`UnsupportedChunk`. -/
def Obligations.MissingHeader : Prop :=
  ∀ (ty length : Word) (s : State), Delivers .hdr (headerBytes ty length) s → s.p.hasIHDR = false → ty ≠ 0x49484452 →
    exec (.kHdr (headerBytes ty length)) s = .next (teardown .missingHeader [ty]
      { served 8 s with p := { s.p with length := length, type := ty } })

/-- The header rule is the chunk rows: a header delivered to `K_HDR` runs the row its type selects (42_chunk_parser.md
R195, 30_encoding.md R97, R98). 42_chunk_parser.md R195, R199, R200: a header of IHDR (the first), PLTE, tRNS, gAMA or
IEND sets the header registers, seeds the CRC with the type bytes, and asks for exactly the declared payload, whatever
its length. That a second PLTE, and a PLTE or tRNS after an IDAT (U8, U9), are dispatched like the first is the model's
choice (log 12). -/
def Obligations.HeaderDispatch : Prop :=
  (∀ (ty length : Word) (s : State),
     exec (.kHdr (bytes32 length ++ bytes32 ty)) s = exec (chunkInstr ty length) s) ∧
  ∀ (length : Word) (s : State), RoomForRead s →
    (Delivers .hdr (headerBytes tyIHDR length) s → s.p.hasIHDR = false →
      let t := readNext 8 [] .dispatchChunk { length := length.toNat, allowLess := false, tag := .ihdr }
        (chunkOpened tyIHDR length .ihdr s)
      exec (.chunkIhdr length) s = .next t ∧ exec (.kHdr (headerBytes tyIHDR length)) s = .next t) ∧
    (Delivers .hdr (headerBytes tyPLTE length) s → s.p.hasIHDR = true →
      exec (.chunkPlte length) s = .next (readNext 8 [] .dispatchChunk
        { length := length.toNat, allowLess := false, tag := .plte } (chunkOpened tyPLTE length .plte s))) ∧
    (Delivers .hdr (headerBytes tyTRNS length) s → s.p.hasIHDR = true →
      exec (.chunkTrns length) s = .next (readNext 8 [] .dispatchChunk
        { length := length.toNat, allowLess := false, tag := .trns } (chunkOpened tyTRNS length .trns s))) ∧
    (Delivers .hdr (headerBytes tyGAMA length) s → s.p.hasIHDR = true →
      exec (.chunkGama length) s = .next (readNext 8 [] .dispatchChunk
        { length := length.toNat, allowLess := false, tag := .gama } (chunkOpened tyGAMA length .gama s))) ∧
    (Delivers .hdr (headerBytes tyIEND length) s → s.p.hasIHDR = true →
      exec (.chunkIend length) s = .next (readNext 8 [] .dispatchChunk
        { length := length.toNat, allowLess := false, tag := .iend } (chunkOpened tyIEND length .iend s)))

/-- 42_chunk_parser.md R213: an IDAT header asks for at most the whole payload, or, where the declared length is 0,
for the CRC at once; with colour type 3 and an empty palette it raises `MissingPalette`. -/
def Obligations.IdatDispatch : Prop :=
  ∀ (length : Word) (s : State), Delivers .hdr (headerBytes tyIDAT length) s → s.p.hasIHDR = true →
    (s.h.colorType = 3 → s.pal.size = 0 →
      exec (.chunkIdat length) s = .next (teardown .missingPalette [] { served 8 s with
        crc := { acc := crcFold 0xFFFFFFFF (bytes32 tyIDAT), seeded := true }
        p := { s.p with length := length, type := tyIDAT } })) ∧
    (s.h.colorType ≠ 3 ∨ s.pal.size ≠ 0 → RoomForRead s →
      let opened := chunkOpened tyIDAT length .idat s
      let counted : State := { opened with p := { opened.p with remaining := length.toNat } }
      exec (.chunkIdat length) s = .next
        (if length = 0 then readNext 8 [] .awaitChunkCRC crcRead counted
         else readNext 8 [] .dispatchChunk { length := length.toNat, allowLess := true, tag := .idat } counted))

/-- 42_chunk_parser.md R214: an unknown ancillary chunk is skipped with its CRC in one exact read of `P.length + 4`
bytes, which does not wrap; an unknown critical chunk raises `UnsupportedChunk`. -/
def Obligations.UnknownChunks : Prop :=
  ∀ (ty length : Word) (s : State), Delivers .hdr (headerBytes ty length) s → s.p.hasIHDR = true → unknownType ty = true →
    (ty.getLsbD 29 = true → RoomForRead s →
      exec (.chunkAncillaryUnknown ty length) s = .next (readNext 8 [] .dispatchChunk
        { length := length.toNat + 4, allowLess := false, tag := .skip } (chunkOpened ty length .skip s))) ∧
    (ty.getLsbD 29 = false →
      exec (.chunkCriticalUnknown ty length) s = .next (teardown .unsupportedChunk [ty] { served 8 s with
        crc := { acc := crcFold 0xFFFFFFFF (bytes32 ty), seeded := true }
        p := { s.p with length := length, type := ty } }))

/-- The colour types (10_state.md R34, R35): bytes per pixel and the flags of each. 42_chunk_parser.md R204, R206: a
header that passes the checks fills the header registers, allocates the pixel memory, constructs the Filter Engine,
emits the metadata with the colour flags, and leads to the chunk's CRC. -/
def Obligations.IhdrAccepted : Prop :=
  ((bppOf 0 = 1 ∧ bppOf 2 = 3 ∧ bppOf 3 = 1 ∧ bppOf 4 = 2 ∧ bppOf 6 = 4) ∧
   colorFlags 0 = (false, false, false) ∧ colorFlags 2 = (false, true, false) ∧ colorFlags 3 = (true, true, false) ∧
   colorFlags 4 = (false, false, true) ∧ colorFlags 6 = (false, true, true)) ∧
  ∀ (w h : Word) (ct : Byte) (s : State),
    let data := bytes32 w ++ bytes32 h ++ [8, ct, 0, 0, 0]
    Delivers .ihdr data s → RoomForRead s → ct ∈ [0, 2, 3, 4, 6] → w ≠ 0 → h ≠ 0 →
    exceeds s.par.maxPixels (w.toNat * h.toNat) = false →
    exec (.kIhdr data) s = .next (readNext 13
      [.metadata w h (ct.getLsbD 0) (ct.getLsbD 1) (ct.getLsbD 2)] .awaitChunkCRC crcRead
      { summed data s with
        h := { width := w, height := h, bitDepth := 8, colorType := ct, compression := 0, filter := 0, interlace := 0 }
        p := { s.p with hasIHDR := true }
        pix := []
        fe := { live := true, mode := .decode, width := w.toNat, height := h.toNat, bpp := bppOf ct, row := 0,
                inq := [], done := false } })

/-- 42_chunk_parser.md R205: the five checks in the order of the list, raising at the first that fails; and
60_exceptions.md R361: before the CRC is even read. That they come before the checks of a zero dimension and of the
size limit is the model's choice (log 16). -/
def Obligations.IhdrChecks : Prop :=
  ∀ (w h : Word) (bd ct cm fm il : Byte) (s : State),
    let data := bytes32 w ++ bytes32 h ++ [bd, ct, cm, fm, il]
    Delivers .ihdr data s →
    (bd ≠ 8 → exec (.kIhdr data) s =
      .next (teardown .unsupportedBitDepth [bd.setWidth 32] (served 13 (summed data s)))) ∧
    (bd = 8 → ct ∉ [0, 2, 3, 4, 6] → exec (.kIhdr data) s =
      .next (teardown .unsupportedColorType [ct.setWidth 32] (served 13 (summed data s)))) ∧
    (bd = 8 → ct ∈ [0, 2, 3, 4, 6] → cm ≠ 0 → exec (.kIhdr data) s =
      .next (teardown .unsupportedCompressionMethod [cm.setWidth 32] (served 13 (summed data s)))) ∧
    (bd = 8 → ct ∈ [0, 2, 3, 4, 6] → cm = 0 → fm ≠ 0 → exec (.kIhdr data) s =
      .next (teardown .unsupportedFilterMethod [fm.setWidth 32] (served 13 (summed data s)))) ∧
    (bd = 8 → ct ∈ [0, 2, 3, 4, 6] → cm = 0 → fm = 0 → il ≠ 0 → exec (.kIhdr data) s =
      .next (teardown .unsupportedInterlaceMethod [il.setWidth 32] (served 13 (summed data s))))

/-- 42_chunk_parser.md R208: a PLTE payload appends one entry per triple at `PAL.size`, its alpha 0xFF; every other
byte of the palette is as before. 42_chunk_parser.md R210: with colour type 3, a tRNS payload no longer than the
palette patches the alpha of its first entries and nothing else; without a palette, or longer than it, it raises the
two named errors in this order. -/
def Obligations.PaletteFilled : Prop :=
  (∀ (data : List Byte) (s : State), Delivers .plte data s → RoomForRead s → data.length % 3 = 0 →
     s.pal.size + data.length / 3 ≤ 256 →
     ∃ m : Memory,
       exec (.kPlte data) s = .next (readNext data.length [] .awaitChunkCRC crcRead
         { summed data s with pal := { size := s.pal.size + data.length / 3, mem := m } }) ∧
       (∀ i < data.length / 3, (∀ c < 3, m.read (4 * (s.pal.size + i) + c) = data[3 * i + c]?) ∧
         m.read (4 * (s.pal.size + i) + 3) = some 0xFF) ∧
       ∀ a, a < 4 * s.pal.size ∨ 4 * (s.pal.size + data.length / 3) ≤ a → m.read a = s.pal.mem.read a) ∧
  ∀ (data : List Byte) (s : State), Delivers .trns data s → s.h.colorType = 3 →
    (s.pal.size = 0 → exec (.kTrns data) s =
      .next (teardown .transparencyBeforePalette [] (served data.length (summed data s)))) ∧
    (s.pal.size ≠ 0 → s.pal.size < data.length → exec (.kTrns data) s =
      .next (teardown .tooManyTransparentEntries [BitVec.ofNat 32 data.length, BitVec.ofNat 32 s.pal.size]
        (served data.length (summed data s)))) ∧
    (s.pal.size ≠ 0 → data.length ≤ s.pal.size → RoomForRead s → ∃ m : Memory,
      exec (.kTrns data) s = .next (readNext data.length [] .awaitChunkCRC crcRead
        { summed data s with pal := { size := s.pal.size, mem := m } }) ∧
      (∀ i < data.length, m.read (4 * i + 3) = data[i]?) ∧
      ∀ a, a % 4 ≠ 3 ∨ data.length ≤ a / 4 → m.read a = s.pal.mem.read a)

/-- 42_chunk_parser.md R211: when the colour type is not 3, a tRNS payload of any length and content is folded into
the CRC, its CRC is awaited to be checked, and no other state changes. -/
def Obligations.TransparencyIgnored : Prop :=
  ∀ (data : List Byte) (s : State), Delivers .trns data s → RoomForRead s → s.h.colorType ≠ 3 →
    exec (.kTrns data) s = .next (readNext data.length [] .awaitChunkCRC crcRead (summed data s))

/-- 42_chunk_parser.md R212: a gAMA payload sets the gamma register and is surfaced. 42_chunk_parser.md R217, R218:
IEND sets the terminal flag and ends `INFL`'s input; the payload and CRC of a skipped chunk are dropped, whatever they
are. -/
def Obligations.GammaEndAndSkip : Prop :=
  (∀ (v : Word) (s : State), Delivers .gama (bytes32 v) s → RoomForRead s →
     exec (.kGama (bytes32 v)) s = .next (readNext 4 [.gamma v] .awaitChunkCRC crcRead
       { summed (bytes32 v) s with p := { s.p with gamma := v, gammaValid := true } })) ∧
  ∀ s : State, RoomForRead s →
    (Delivers .iend [] s → exec (.kIend []) s = .next (readNext 0 [] .awaitChunkCRC crcRead
      { s with p := { s.p with hasIEND := true }, infl := { s.infl with ended := true } })) ∧
    ∀ data, Delivers .skip data s →
      exec (.kSkip data) s = .next (readNext data.length [] .awaitChunkHeader headerRead s)

/-- 42_chunk_parser.md R215: a part of an IDAT payload goes to the CRC and to `INFL`; what remains is asked for again,
and when nothing remains the chunk's CRC. It holds for every cut that `DB.SERVE` may deliver.
93_implementation_defined.md U14: where what `INFL` has then been given is, by parameter (log 13), one it rejects, the
model records a fault. -/
def Obligations.IdatStreamed : Prop :=
  ∀ (data : List Byte) (s : State), Delivers .idat data s → s.infl.live = true → s.infl.ended = false →
    (s.par.inflRejects.contains (s.infl.input ++ data) = false → RoomForRead s →
      let taken := { summed data s with
        infl := { s.infl with input := s.infl.input ++ data }
        p := { s.p with remaining := s.p.remaining - data.length } }
      exec (.kIdat data) s = .next
        (if data.length < s.p.remaining then
          readNext data.length [] s.p.state
            { length := s.p.remaining - data.length, allowLess := true, tag := .idat } taken
         else readNext data.length [] .awaitChunkCRC crcRead taken)) ∧
    (s.par.inflRejects.contains (s.infl.input ++ data) = true → exec (.kIdat data) s = .fault .transformRejected)

/-- 42_chunk_parser.md R219, R220, R221: the four bytes are compared with the accumulated CRC only while checking is
on; on a match, or unchecked, the parser goes on to the next header, or after IEND terminates and closes its buffer,
which finalizes unless the HOST has closed it already; a mismatch raises `CrcMismatch` with both values. -/
def Obligations.CrcCheck : Prop :=
  ∀ (v : Word) (s : State), Delivers .crc (bytes32 v) s →
    (s.cfg.checkCRC = false ∨ v = s.crc.acc ^^^ 0xFFFFFFFF →
      (s.p.hasIEND = false → RoomForRead s →
        exec (.kCrc (bytes32 v)) s = .next (readNext 4 [] .awaitChunkHeader headerRead s)) ∧
      (s.p.hasIEND = true → s.db.reads = [crcRead] →
        exec (.kCrc (bytes32 v)) s = .next (if s.db.phase = .opened then
          { s with
            p := { s.p with state := .terminated }
            db := { s.db with blocks := [], reads := [], phase := .finalized }
            log := s.log ++ [.finished] }
        else
          { s with
            p := { s.p with state := .terminated }
            db := { s.db with blocks := (takefront s.db.blocks 4).2, reads := [] } }))) ∧
    (s.cfg.checkCRC = true → v ≠ s.crc.acc ^^^ 0xFFFFFFFF →
      exec (.kCrc (bytes32 v)) s =
        .next (teardown .crcMismatch [v, s.crc.acc ^^^ 0xFFFFFFFF] (served 4 s)))

/-- 93_implementation_defined.md U4 to U7, U12, U21: the payloads and headers that lead a parser rule outside its
defined inputs. 93_implementation_defined.md U11, U13: a filter-type byte above 4, and a palette index that is not
below the palette's size, are faults. That the image limit is looked at after a zero dimension is the model's choice
(log 16). -/
def Obligations.DecodeStops : Prop :=
  (∀ (data : List Byte) (length : Word) (s : State),
     (Delivers .ihdr data s → data.length ≠ 13 → exec (.kIhdr data) s = .fault .payloadLength) ∧
     (Delivers .gama data s → data.length ≠ 4 → exec (.kGama data) s = .fault .payloadLength) ∧
     (Delivers .iend data s → data.length ≠ 0 → exec (.kIend data) s = .fault .payloadLength) ∧
     (Delivers .plte data s → data.length % 3 ≠ 0 → exec (.kPlte data) s = .fault .paletteLength) ∧
     (Delivers .plte data s → data.length % 3 = 0 → 256 < s.pal.size + data.length / 3 →
       exec (.kPlte data) s = .fault .paletteOverflow) ∧
     (Delivers .hdr (headerBytes tyIHDR length) s → s.p.hasIHDR = true →
       exec (.chunkIhdr length) s = .fault .secondHeader) ∧
     ∀ (w h : Word) (ct : Byte), data = bytes32 w ++ bytes32 h ++ [8, ct, 0, 0, 0] → ct ∈ [0, 2, 3, 4, 6] →
       Delivers .ihdr data s →
       (w = 0 ∨ h = 0 → exec (.kIhdr data) s = .fault .zeroDimension) ∧
       (w ≠ 0 → h ≠ 0 → exceeds s.par.maxPixels (w.toNat * h.toNat) = true →
         exec (.kIhdr data) s = .refused .tooManyPixels)) ∧
  ∀ s : State,
    (lineEnabled s = true → (∀ b rest, s.fe.inq = b :: rest → 4 < b.toNat → exec .feLine s = .fault .filterType)) ∧
    (finishEnabled s = true → s.h.colorType = 3 →
      (∃ q < s.fe.width * s.fe.height, s.pal.size ≤ (pixRead s.pix (4 * q)).toNat) →
      exec .feFinish s = .fault .paletteIndex)

/-! ### The Filter Engine -/

/-- 43_filter_decode.md R252: `PAETH` returns the one of its three arguments nearest to left + above - upLeft, on
integers, ties going to left, then above, then upLeft. 43_filter_decode.md R254: the five predictors; the sum of
Average does not wrap at 256. -/
def Obligations.PaethAndPredictors : Prop :=
  (∀ (left above upLeft : Byte) (s : State),
     let p : Int := (left.toNat : Int) + above.toNat - upLeft.toNat
     let distance : Byte → Int := fun v => |p - (v.toNat : Int)|
     ∃ v, exec (.paeth left above upLeft) s = .next { s with result := .byte v } ∧
       v ∈ [left, above, upLeft] ∧ (∀ u ∈ [left, above, upLeft], distance v ≤ distance u) ∧
       (distance left ≤ distance above → distance left ≤ distance upLeft → v = left) ∧
       (distance above < distance left → distance above ≤ distance upLeft → v = above) ∧
       (distance upLeft < distance left → distance upLeft < distance above → v = upLeft)) ∧
  ∀ (left up upLeft : Byte) (s : State),
    exec (.pred .none left up upLeft) s = .next { s with result := .byte 0 } ∧
    exec (.pred .sub left up upLeft) s = .next { s with result := .byte left } ∧
    exec (.pred .up left up upLeft) s = .next { s with result := .byte up } ∧
    (∃ v : Byte, exec (.pred .average left up upLeft) s = .next { s with result := .byte v } ∧
      v.toNat = (left.toNat + up.toNat) / 2) ∧
    exec (.pred .paeth left up upLeft) s = exec (.paeth left up upLeft) s

/-- 20_memory.md R76, 43_filter_decode.md R258: `INFL.OUT` hands any number of the bytes not yet handed over to the
queue of the engine, in order; `FE.FEED` is that step with the bytes spelled out. 20_memory.md R77, 45_chunk_packer.md
R324: `DEFL.OUT` hands a non-empty block that continues the output to the packer, which wraps it as one IDAT chunk;
`PK.IDAT` is that step with the block spelled out. That these two are labels of the transforms' steps is the model's
reading (log 5). -/
def Obligations.TransformOut : Prop :=
  (∀ (k : Nat) (s : State), s.kind = .decode → s.err = none → s.fe.live = true → s.fe.mode = .decode →
     s.infl.live = true → 1 ≤ k → s.infl.emitted + k ≤ (inflateStream s.par s.infl.input).length →
     let bytes := ((inflateStream s.par s.infl.input).drop s.infl.emitted).take k
     let t := { s with
       fe := { s.fe with inq := s.fe.inq ++ bytes }, infl := { s.infl with emitted := s.infl.emitted + k } }
     exec (.inflOut k) s = .next t ∧ exec (.feFeed bytes) s = .next t) ∧
  ∀ (k : Nat) (s : State), s.kind = .encode → s.err = none → s.pk = .data → s.defl.live = true → 1 ≤ k → k < 2 ^ 32 →
    s.defl.emitted + k ≤ (deflateStream s.par s.cfg s.defl.input s.defl.ended).length →
    let block := ((deflateStream s.par s.cfg s.defl.input s.defl.ended).drop s.defl.emitted).take k
    let t := { s with
      crc := chunkSum tyIDAT block
      log := s.log ++ [.data (chunkBytes tyIDAT block)]
      defl := { s.defl with emitted := s.defl.emitted + k } }
    exec (.deflOut k) s = .next t ∧ exec (.pkIdat block) s = .next t

/-- 43_filter_decode.md R253: the table `CHANMAP`, which the spec marks as general knowledge where its source prints
none (log 23). 43_filter_decode.md R256, R259 to R266: a whole scanline at the front of the queue is defiltered with
the type its first byte names, as one step, whether the step is named by `FE.LINE` or by the transform (log 5). -/
def Obligations.LineDefiltered : Prop :=
  ((List.range 4).map (channel 1) = [some 0, some 0, some 0, none] ∧
   (List.range 4).map (channel 2) = [some 0, some 0, some 0, some 1] ∧
   (List.range 4).map (channel 3) = [some 0, some 1, some 2, none] ∧
   (List.range 4).map (channel 4) = [some 0, some 1, some 2, some 3]) ∧
  ∀ (f : FilterType) (data : List Byte) (s : State), lineEnabled s = true →
    s.fe.inq.take (1 + s.fe.width * s.fe.bpp) = f.byte :: data →
    ∃ t, exec .feLine s = .next t ∧ exec (defiltInstr f data) s = .next t ∧ LineWritten f data s t

/-- 43_filter_decode.md R269, R271, R272: after the last scanline the engine completes once, emitting the pixel
memory; with colour type 3 every pixel has become the palette entry its channel 0 named, and with any other `PIX` is
as it was. -/
def Obligations.Finish : Prop :=
  ∀ s : State, finishEnabled s = true →
    (s.h.colorType ≠ 3 → exec .feFinish s = .next { s with
      fe := { s.fe with done := true }
      log := s.log ++ [.complete s.fe.width s.fe.height (pixContents s.pix (s.fe.width * s.fe.height * 4))] }) ∧
    (s.h.colorType = 3 → (∀ q < s.fe.width * s.fe.height, (pixRead s.pix (4 * q)).toNat < s.pal.size) →
      ∃ m : Memory, exec .feFinish s = .next { s with
          pix := m
          fe := { s.fe with done := true }
          log := s.log ++ [.complete s.fe.width s.fe.height (pixContents m (s.fe.width * s.fe.height * 4))] } ∧
        (∀ q < s.fe.width * s.fe.height, ∀ c < 4,
          m.read (4 * q + c) = some (palRead s.pal.mem (4 * (pixRead s.pix (4 * q)).toNat + c))) ∧
        ∀ a, 4 * (s.fe.width * s.fe.height) ≤ a → m.read a = s.pix.read a) ∧
    ∀ t, exec .feFinish s = .next t → finishEnabled t = false ∧ lineEnabled t = false

/-- 44_filter_encode.md R305: the inverse law. Feeding the filtered rows of an image, each row filtered with any type,
to a decode engine of the same width and height with 4 bytes per pixel reproduces the image byte for byte, top row and
left edge included. -/
def Obligations.FilterInverse : Prop :=
  ∀ (image : Memory) (choice : Nat → FilterType) (s : State), s.kind = .decode → s.err = none → s.fe.live = true →
    s.fe.mode = .decode → s.fe.done = false → s.fe.row = 0 → s.fe.bpp = 4 →
    s.fe.inq = (List.range s.fe.height).flatMap (fun y => filteredRow (choice y) (4 * s.fe.width) image y) →
    ∃ t, times .feLine s.fe.height s = .next t ∧ t.fe.row = s.fe.height ∧ t.fe.inq = [] ∧
      ∀ a < s.fe.height * (4 * s.fe.width), pixRead t.pix a = pixRead image a

/-- 44_filter_encode.md R293: under the default `COST` the sum of a row is that of the distances of its raw bytes from
their predictors. 44_filter_encode.md R301: the first pass chooses, among the candidates of a legal `CFG.candidates`,
the first in list order of those with the lowest sum; one is always chosen, and a single candidate whatever its sum.
44_filter_encode.md R303: ties on flat rows. Zeros below zeros cost 0 under every type and a white 1×1 image 1020, so
type 0 is chosen; the white image's filtered stream is `00 FF FF FF FF`. -/
def Obligations.Selection : Prop :=
  (∀ (f : FilterType) (w4 : Nat) (m : Memory) (y : Nat), costSum .unwrapped f w4 m y = ∑ i ∈ Finset.range w4,
    (((rawByte w4 m y i).toNat : Int) -
      (predOf f (rawLeft w4 m y i) (rawUp w4 m y i) (rawUpLeft w4 m y i)).toNat).natAbs) ∧
  (∀ (s : State) (l : List FilterType), candidateTypes s.cfg.candidates = some l →
     let cost := fun f => costSum s.par.cost f (4 * s.fe.width) s.pix s.fe.row
     ∃ i f, l[i]? = some f ∧ bestFilter s = some f ∧ (∀ g ∈ l, cost f ≤ cost g) ∧
       ∀ (j : Nat) (g : FilterType), j < i → l[j]? = some g → cost f < cost g) ∧
  (∀ (s : State), s.par.cost = .unwrapped → s.cfg.candidates = [0, 1, 2, 3, 4] →
    (∀ i < 4 * s.fe.width, rawByte (4 * s.fe.width) s.pix s.fe.row i = 0 ∧
      (0 < s.fe.row → rawByte (4 * s.fe.width) s.pix (s.fe.row - 1) i = 0)) →
    (∀ f, costSum s.par.cost f (4 * s.fe.width) s.pix s.fe.row = 0) ∧ bestFilter s = some .none) ∧
  ∀ (s : State), s.par.cost = .unwrapped → s.cfg.candidates = [0, 1, 2, 3, 4] → s.fe.width = 1 → s.fe.row = 0 →
    (∀ i < 4, pixRead s.pix i = 0xFF) →
    (∀ f, costSum s.par.cost f 4 s.pix 0 = 1020) ∧ bestFilter s = some .none ∧
    filteredRow .none 4 s.pix 0 = [0x00, 0xFF, 0xFF, 0xFF, 0xFF]

/-- 44_filter_encode.md R300, R292, R295 to R299: one row is filtered with the chosen type: the filter-type byte and,
for every byte of the row, the raw byte less its predictor modulo 256, go to `DEFL`; after the last row its input
ends. The step is the same whether named by `FE.ENCLINE` or by the transform and the row (log 5). `PIX` is not written.
93_implementation_defined.md U14: a compressor that by parameter rejects what it is given faults (log 13). -/
def Obligations.RowFiltered : Prop :=
  ∀ (f : FilterType) (s : State), enclineEnabled s = true → bestFilter s = some f →
    ∃ out : List Byte, out.length = 1 + 4 * s.fe.width ∧ out[0]? = some f.byte ∧
      (∀ i < 4 * s.fe.width, out[1 + i]? = some (rawByte (4 * s.fe.width) s.pix s.fe.row i -
        predOf f (rawLeft (4 * s.fe.width) s.pix s.fe.row i) (rawUp (4 * s.fe.width) s.pix s.fe.row i)
          (rawUpLeft (4 * s.fe.width) s.pix s.fe.row i))) ∧
      (s.par.deflRejects.contains (s.defl.input ++ out) = false →
        let last := decide (s.fe.row + 1 = s.fe.height)
        let t := { s with
          fe := { s.fe with row := s.fe.row + 1, done := s.fe.done || last }
          defl := { s.defl with input := s.defl.input ++ out, ended := last } }
        exec .feEncline s = .next t ∧ exec (filtInstr f s.fe.row) s = .next t) ∧
      (s.par.deflRejects.contains (s.defl.input ++ out) = true → exec .feEncline s = .fault .transformRejected)

/-! ### The encode session -/

/-- 45_chunk_packer.md R321: `ENC.START` on an idle session with an image of positive size, the right number of bytes
and legal candidates: `PIX` holds the bytes, the engine is constructed, the packer leaves `Idle`. -/
def Obligations.EncodeStart : Prop :=
  ∀ (width height : Word) (pixels : List Byte) (s : State), s.kind = .encode → s.err = none → s.pk = .idle →
    width ≠ 0 → height ≠ 0 → exceeds s.par.maxPixels (width.toNat * height.toNat) = false →
    pixels.length = width.toNat * height.toNat * 4 → candidateTypes s.cfg.candidates ≠ none →
    ∃ m : Memory, exec (.encStart width height pixels) s = .next { s with
        started := true
        pix := m
        fe := { s.fe with live := true, mode := .encode, bpp := 4, width := width.toNat, height := height.toNat,
                          row := 0, done := false }
        pk := .sig } ∧
      ∀ a, m.read a = pixels[a]?

/-- 45_chunk_packer.md R322, R323: the signature, then the IHDR chunk with depth 8, colour type 6 and the three
methods 0, each once and in this order. 20_memory.md R77, 45_chunk_packer.md R325: when the input has ended and all
output is handed over, an empty IEND chunk and `EV_END`, once. -/
def Obligations.PackerEnds : Prop :=
  (∀ s : State, s.kind = .encode → s.err = none →
     (s.pk = .sig → exec .pkSig s = .next { s with
       pk := .ihdr, log := s.log ++ [.data [0x89, 0x50, 0x4E, 0x47, 0x0D, 0x0A, 0x1A, 0x0A]] }) ∧
     (s.pk = .ihdr →
       let payload := bytes32 (BitVec.ofNat 32 s.fe.width) ++ bytes32 (BitVec.ofNat 32 s.fe.height) ++ [8, 6, 0, 0, 0]
       exec .pkIhdr s = .next { s with
         pk := .data, crc := chunkSum tyIHDR payload, log := s.log ++ [.data (chunkBytes tyIHDR payload)] })) ∧
  ∀ s : State, s.kind = .encode → s.err = none → s.pk = .data → s.defl.live = true → s.defl.ended = true →
    s.defl.emitted = (deflateStream s.par s.cfg s.defl.input true).length →
    let t := { s with
      crc := chunkSum tyIEND []
      log := s.log ++ [.data [0, 0, 0, 0, 0x49, 0x45, 0x4E, 0x44, 0xAE, 0x42, 0x60, 0x82], .endOfStream]
      pk := .done }
    exec .deflDone s = .next t ∧ exec .pkIend s = .next t ∧ autoPick t = none

/-- 45_chunk_packer.md R327: the layout of a chunk: length, type, payload, and the CRC of type and payload, all
big-endian; the function writes `CRC.acc` and no other register of the block. 45_chunk_packer.md R328: the last four
bytes of a chunk the packer builds are accepted by the parser that has accumulated the chunk's type and payload. The
spec runs the function inside the emitting rules only, and on payloads shorter than 2^32: that as an operation of its
own it completes on every encode session that is not dead, in every `PK.phase` (before `ENC.START` too, where
70_reset_and_hazards.md R402 has no step enabled), and that a longer payload is refused, are the model's choices
(log 21); so is the register `result` in which the chunk is returned (log 9). -/
def Obligations.ChunkLayout : Prop :=
  (∀ (ty : Word) (payload : List Byte) (s : State), s.err = none → s.kind = .encode →
     (payload.length < 2 ^ 32 → ∃ chunk,
       exec (.pkChunk ty payload) s = .next { s with crc := chunkSum ty payload, result := .bytes chunk } ∧
       chunk.length = 12 + payload.length ∧
       chunk.take 4 = bytes32 (BitVec.ofNat 32 payload.length) ∧ (chunk.drop 4).take 4 = bytes32 ty ∧
       (chunk.drop 8).take payload.length = payload ∧
       chunk.drop (8 + payload.length) = bytes32 (crcOf (bytes32 ty ++ payload))) ∧
     (2 ^ 32 ≤ payload.length → exec (.pkChunk ty payload) s = .refused .chunkTooLong)) ∧
  ∀ (ty : Word) (payload : List Byte) (s : State), Delivers .crc ((chunkBytes ty payload).drop (8 + payload.length)) s →
    s.crc.acc = crcFold (crcFold 0xFFFFFFFF (bytes32 ty)) payload → s.p.hasIEND = false → RoomForRead s →
    exec (.kCrc ((chunkBytes ty payload).drop (8 + payload.length))) s =
      .next (readNext 4 [] .awaitChunkHeader headerRead s)

/-- 93_implementation_defined.md U1, U2, U3, U21: the commands of the Demand Buffer's port to which the spec gives no
meaning, and the limits of a finite instance (20_memory.md R78), at both ports. Who may use the port CRCC
(30_encoding.md R110, 93 U3): a session owns its engine, and a Demand Buffer on its own has none. 45_chunk_packer.md
R333, 93 U12, U17, U18, U21: the uses of `ENC.START` that are refused; and the ports that the kind of instance does not
have (00_scope.md R9, 30_encoding.md R111). The order of a command's refusals, and that a parser's tag is refused on a
buffer that has ended, are the model's choices (log 15). -/
def Obligations.CommandRefusals : Prop :=
  (∀ s : State, s.err = none →
     (s.db.phase = .opened →
       (hasBuffer s.kind = true → exec (.dbPush []) s = .refused .emptyPush) ∧
       (s.kind = .decode → exec (.decPush []) s = .refused .emptyPush) ∧
       ∀ bytes, bytes ≠ [] → exceeds s.par.capacity (buffered s.db.blocks + bytes.length) = true →
         (hasBuffer s.kind = true → exec (.dbPush bytes) s = .refused .bufferFull ∧
           exec (.dbClose bytes) s = .refused .bufferFull) ∧
         (s.kind = .decode → exec (.decPush bytes) s = .refused .bufferFull ∧
           exec (.decClose bytes) s = .refused .bufferFull)) ∧
     (∀ length allowLess tag, hasBuffer s.kind = true → (s.kind = .decode ∨ isParserTag tag = true) →
       exec (.dbRequest length allowLess tag) s = .refused .ownedBySession) ∧
     (∀ tag, s.kind = .buffer → isParserTag tag = false → (s.db.phase = .opened ∨ s.db.phase = .closing) →
       exec (.dbRequest 0 true tag) s = .refused .emptyAtMostRead ∧
       ∀ length allowLess, (allowLess = true → 0 < length) →
         exceeds s.par.maxReads (s.db.reads.length + 1) = true →
         exec (.dbRequest length allowLess tag) s = .refused .readsFull) ∧
     (hasBuffer s.kind = false → exec .dbDispose s = .refused .unitAbsent ∧
       ∀ bytes length allowLess tag, exec (.dbPush bytes) s = .refused .unitAbsent ∧
         exec (.dbClose bytes) s = .refused .unitAbsent ∧
         exec (.dbRequest length allowLess tag) s = .refused .unitAbsent)) ∧
  (∀ (bytes : List Byte) (s : State), s.err = none →
     (s.kind = .decode ∨ s.kind = .encode →
       exec .crcInit s = .refused .ownedBySession ∧ exec (.crcUpdate bytes) s = .refused .ownedBySession ∧
       exec .crcFinal s = .refused .ownedBySession) ∧
     (s.kind = .buffer →
       exec .crcInit s = .refused .unitAbsent ∧ exec (.crcUpdate bytes) s = .refused .unitAbsent ∧
       exec .crcFinal s = .refused .unitAbsent)) ∧
  ∀ (width height : Word) (pixels last : List Byte) (s : State), s.err = none →
    (s.kind = .encode →
      (s.pk ≠ .idle → exec (.encStart width height pixels) s = .refused .notIdle) ∧
      (s.pk = .idle → width = 0 ∨ height = 0 → exec (.encStart width height pixels) s = .refused .zeroDimension) ∧
      (s.pk = .idle → width ≠ 0 → height ≠ 0 →
        (exceeds s.par.maxPixels (width.toNat * height.toNat) = true →
          exec (.encStart width height pixels) s = .refused .tooManyPixels) ∧
        (exceeds s.par.maxPixels (width.toNat * height.toNat) = false →
          (pixels.length ≠ width.toNat * height.toNat * 4 →
            exec (.encStart width height pixels) s = .refused .pixelCount) ∧
          (pixels.length = width.toNat * height.toNat * 4 → candidateTypes s.cfg.candidates = none →
            exec (.encStart width height pixels) s = .refused .illegalCandidates)))) ∧
    (s.kind ≠ .encode → exec (.encStart width height pixels) s = .refused .unitAbsent ∧
      exec .encDispose s = .refused .unitAbsent) ∧
    (s.kind ≠ .decode → exec (.decPush last) s = .refused .unitAbsent ∧ exec (.decClose last) s = .refused .unitAbsent ∧
      exec .decDispose s = .refused .unitAbsent)

/-! ### The end of a session -/

/-- 60_exceptions.md R371: what taking an error writes, by kind of session; everything else is as it was. A CRC Engine
on its own raises none (40_crc.md R130). As an operation of its own it is the step of a rule that raises, the model's
choice (log 21). -/
def Obligations.Teardown : Prop :=
  ∀ (e : ErrorKind) (info : List Word) (s : State), s.err = none →
    (s.kind = .decode → exec (.teardown e info) s = .next { s with
      err := some e
      log := s.log ++ [.error e.code info]
      db := { s.db with blocks := [], reads := [], phase := .disposed }
      p := { s.p with state := .failed }
      fe := { s.fe with live := false }
      infl := { s.infl with live := false } }) ∧
    (s.kind = .encode → exec (.teardown e info) s = .next { s with
      err := some e
      log := s.log ++ [.error e.code info]
      pk := .failed
      fe := { s.fe with live := false }
      defl := { s.defl with live := false } }) ∧
    (s.kind = .buffer → exec (.teardown e info) s = .next { s with
      err := some e
      log := s.log ++ [.error e.code info]
      db := { s.db with blocks := [], reads := [], phase := .disposed } }) ∧
    (s.kind = .crc → exec (.teardown e info) s = .refused .unitAbsent)

/-- 41_demand_buffer.md R169: disposal empties both lists, in any phase, leaves `DB.paused`, emits nothing, and a
second one changes nothing. 60_exceptions.md R376: disposal does the writes of teardown without the error and without
any event, in every state; a second one changes nothing; after it no internal step is enabled, and a later push raises
`WriteAfterClose`. That `DB.DISPOSE` on a decode session ends the buffer only is deduced (log 14); that a later push
of no bytes raises the error too is the model's choice (log 15). -/
def Obligations.Disposal : Prop :=
  (∀ s : State, s.err = none → hasBuffer s.kind = true →
     exec .dbDispose s = .next { s with
       started := true, db := { s.db with blocks := [], reads := [], phase := .disposed } } ∧
     ∀ t, exec .dbDispose s = .next t → exec .dbDispose t = .next t) ∧
  ∀ s : State, s.err = none →
    (s.kind = .decode →
      let t : State := { s with
        started := true
        db := { s.db with blocks := [], reads := [], phase := .disposed }
        p := { s.p with state := .failed }
        fe := { s.fe with live := false }
        infl := { s.infl with live := false } }
      exec .decDispose s = .next t ∧ exec .decDispose t = .next t ∧ autoPick t = none ∧
      ∀ bytes, exec (.decPush bytes) t = .next (teardown .writeAfterClose [] t)) ∧
    (s.kind = .encode →
      let t : State := { s with
        started := true
        pk := .failed
        fe := { s.fe with live := false }
        defl := { s.defl with live := false } }
      exec .encDispose s = .next t ∧ exec .encDispose t = .next t ∧ autoPick t = none)

end Statements
end

