-- ==== Sys2Proof/Laws/State.lean ====
section
/-! SUPPORT. The small lemmas of the state's updates: for each update, what each field holds after it. -/

namespace Sys2Proof.Laws

open Sys2Proof.Machine Sys2Proof.Safety

/-! ### `emit` -/

@[simp] theorem emit_kind (e : Event) (s : State) : (emit e s).kind = s.kind := rfl
@[simp] theorem emit_crc (e : Event) (s : State) : (emit e s).crc = s.crc := rfl
@[simp] theorem emit_db (e : Event) (s : State) : (emit e s).db = s.db := rfl
@[simp] theorem emit_p (e : Event) (s : State) : (emit e s).p = s.p := rfl
@[simp] theorem emit_h (e : Event) (s : State) : (emit e s).h = s.h := rfl
@[simp] theorem emit_pal (e : Event) (s : State) : (emit e s).pal = s.pal := rfl
@[simp] theorem emit_fe (e : Event) (s : State) : (emit e s).fe = s.fe := rfl
@[simp] theorem emit_pix (e : Event) (s : State) : (emit e s).pix = s.pix := rfl
@[simp] theorem emit_cfg (e : Event) (s : State) : (emit e s).cfg = s.cfg := rfl
@[simp] theorem emit_pk (e : Event) (s : State) : (emit e s).pk = s.pk := rfl
@[simp] theorem emit_err (e : Event) (s : State) : (emit e s).err = s.err := rfl
@[simp] theorem emit_log (e : Event) (s : State) : (emit e s).log = s.log ++ [e] := rfl
@[simp] theorem emit_infl (e : Event) (s : State) : (emit e s).infl = s.infl := rfl
@[simp] theorem emit_defl (e : Event) (s : State) : (emit e s).defl = s.defl := rfl
@[simp] theorem emit_started (e : Event) (s : State) : (emit e s).started = s.started := rfl
@[simp] theorem emit_result (e : Event) (s : State) : (emit e s).result = s.result := rfl
@[simp] theorem emit_par (e : Event) (s : State) : (emit e s).par = s.par := rfl
@[simp] theorem emit_agenda (e : Event) (s : State) : (emit e s).agenda = s.agenda := rfl

/-! ### `reply` -/

@[simp] theorem reply_kind (v : Result) (s : State) : (reply v s).kind = s.kind := rfl
@[simp] theorem reply_crc (v : Result) (s : State) : (reply v s).crc = s.crc := rfl
@[simp] theorem reply_db (v : Result) (s : State) : (reply v s).db = s.db := rfl
@[simp] theorem reply_p (v : Result) (s : State) : (reply v s).p = s.p := rfl
@[simp] theorem reply_h (v : Result) (s : State) : (reply v s).h = s.h := rfl
@[simp] theorem reply_pal (v : Result) (s : State) : (reply v s).pal = s.pal := rfl
@[simp] theorem reply_fe (v : Result) (s : State) : (reply v s).fe = s.fe := rfl
@[simp] theorem reply_pix (v : Result) (s : State) : (reply v s).pix = s.pix := rfl
@[simp] theorem reply_cfg (v : Result) (s : State) : (reply v s).cfg = s.cfg := rfl
@[simp] theorem reply_pk (v : Result) (s : State) : (reply v s).pk = s.pk := rfl
@[simp] theorem reply_err (v : Result) (s : State) : (reply v s).err = s.err := rfl
@[simp] theorem reply_log (v : Result) (s : State) : (reply v s).log = s.log := rfl
@[simp] theorem reply_infl (v : Result) (s : State) : (reply v s).infl = s.infl := rfl
@[simp] theorem reply_defl (v : Result) (s : State) : (reply v s).defl = s.defl := rfl
@[simp] theorem reply_started (v : Result) (s : State) : (reply v s).started = s.started := rfl
@[simp] theorem reply_result (v : Result) (s : State) : (reply v s).result = v := rfl
@[simp] theorem reply_par (v : Result) (s : State) : (reply v s).par = s.par := rfl
@[simp] theorem reply_agenda (v : Result) (s : State) : (reply v s).agenda = s.agenda := rfl

/-! ### `disposeBuffer` -/

@[simp] theorem disposeBuffer_kind (s : State) : (disposeBuffer s).kind = s.kind := rfl
@[simp] theorem disposeBuffer_crc (s : State) : (disposeBuffer s).crc = s.crc := rfl
@[simp] theorem disposeBuffer_db (s : State) : (disposeBuffer s).db = { s.db with blocks := [], reads := [], phase := .disposed } :=
  rfl
@[simp] theorem disposeBuffer_p (s : State) : (disposeBuffer s).p = s.p := rfl
@[simp] theorem disposeBuffer_h (s : State) : (disposeBuffer s).h = s.h := rfl
@[simp] theorem disposeBuffer_pal (s : State) : (disposeBuffer s).pal = s.pal := rfl
@[simp] theorem disposeBuffer_fe (s : State) : (disposeBuffer s).fe = s.fe := rfl
@[simp] theorem disposeBuffer_pix (s : State) : (disposeBuffer s).pix = s.pix := rfl
@[simp] theorem disposeBuffer_cfg (s : State) : (disposeBuffer s).cfg = s.cfg := rfl
@[simp] theorem disposeBuffer_pk (s : State) : (disposeBuffer s).pk = s.pk := rfl
@[simp] theorem disposeBuffer_err (s : State) : (disposeBuffer s).err = s.err := rfl
@[simp] theorem disposeBuffer_log (s : State) : (disposeBuffer s).log = s.log := rfl
@[simp] theorem disposeBuffer_infl (s : State) : (disposeBuffer s).infl = s.infl := rfl
@[simp] theorem disposeBuffer_defl (s : State) : (disposeBuffer s).defl = s.defl := rfl
@[simp] theorem disposeBuffer_started (s : State) : (disposeBuffer s).started = s.started := rfl
@[simp] theorem disposeBuffer_result (s : State) : (disposeBuffer s).result = s.result := rfl
@[simp] theorem disposeBuffer_par (s : State) : (disposeBuffer s).par = s.par := rfl
@[simp] theorem disposeBuffer_agenda (s : State) : (disposeBuffer s).agenda = s.agenda := rfl

/-! ### `finalizeBuffer` -/

@[simp] theorem finalizeBuffer_kind (s : State) : (finalizeBuffer s).kind = s.kind := rfl
@[simp] theorem finalizeBuffer_crc (s : State) : (finalizeBuffer s).crc = s.crc := rfl
@[simp] theorem finalizeBuffer_db (s : State) : (finalizeBuffer s).db = { s.db with blocks := [], reads := [], phase := .finalized } :=
  rfl
@[simp] theorem finalizeBuffer_p (s : State) : (finalizeBuffer s).p = s.p := rfl
@[simp] theorem finalizeBuffer_h (s : State) : (finalizeBuffer s).h = s.h := rfl
@[simp] theorem finalizeBuffer_pal (s : State) : (finalizeBuffer s).pal = s.pal := rfl
@[simp] theorem finalizeBuffer_fe (s : State) : (finalizeBuffer s).fe = s.fe := rfl
@[simp] theorem finalizeBuffer_pix (s : State) : (finalizeBuffer s).pix = s.pix := rfl
@[simp] theorem finalizeBuffer_cfg (s : State) : (finalizeBuffer s).cfg = s.cfg := rfl
@[simp] theorem finalizeBuffer_pk (s : State) : (finalizeBuffer s).pk = s.pk := rfl
@[simp] theorem finalizeBuffer_err (s : State) : (finalizeBuffer s).err = s.err := rfl
@[simp] theorem finalizeBuffer_log (s : State) : (finalizeBuffer s).log = s.log ++ [.finished] := rfl
@[simp] theorem finalizeBuffer_infl (s : State) : (finalizeBuffer s).infl = s.infl := rfl
@[simp] theorem finalizeBuffer_defl (s : State) : (finalizeBuffer s).defl = s.defl := rfl
@[simp] theorem finalizeBuffer_started (s : State) : (finalizeBuffer s).started = s.started := rfl
@[simp] theorem finalizeBuffer_result (s : State) : (finalizeBuffer s).result = s.result := rfl
@[simp] theorem finalizeBuffer_par (s : State) : (finalizeBuffer s).par = s.par := rfl
@[simp] theorem finalizeBuffer_agenda (s : State) : (finalizeBuffer s).agenda = s.agenda := rfl

/-! ### `served` -/

@[simp] theorem served_kind (k : Nat) (s : State) : (served k s).kind = s.kind := rfl
@[simp] theorem served_crc (k : Nat) (s : State) : (served k s).crc = s.crc := rfl
@[simp] theorem served_db (k : Nat) (s : State) : (served k s).db = { s.db with reads := s.db.reads.tail, blocks := (takefront s.db.blocks k).2 } :=
  rfl
@[simp] theorem served_p (k : Nat) (s : State) : (served k s).p = s.p := rfl
@[simp] theorem served_h (k : Nat) (s : State) : (served k s).h = s.h := rfl
@[simp] theorem served_pal (k : Nat) (s : State) : (served k s).pal = s.pal := rfl
@[simp] theorem served_fe (k : Nat) (s : State) : (served k s).fe = s.fe := rfl
@[simp] theorem served_pix (k : Nat) (s : State) : (served k s).pix = s.pix := rfl
@[simp] theorem served_cfg (k : Nat) (s : State) : (served k s).cfg = s.cfg := rfl
@[simp] theorem served_pk (k : Nat) (s : State) : (served k s).pk = s.pk := rfl
@[simp] theorem served_err (k : Nat) (s : State) : (served k s).err = s.err := rfl
@[simp] theorem served_log (k : Nat) (s : State) : (served k s).log = s.log := rfl
@[simp] theorem served_infl (k : Nat) (s : State) : (served k s).infl = s.infl := rfl
@[simp] theorem served_defl (k : Nat) (s : State) : (served k s).defl = s.defl := rfl
@[simp] theorem served_started (k : Nat) (s : State) : (served k s).started = s.started := rfl
@[simp] theorem served_result (k : Nat) (s : State) : (served k s).result = s.result := rfl
@[simp] theorem served_par (k : Nat) (s : State) : (served k s).par = s.par := rfl
@[simp] theorem served_agenda (k : Nat) (s : State) : (served k s).agenda = s.agenda := rfl

/-! ### `crcSeed` -/

@[simp] theorem crcSeed_kind (b : List Byte) (s : State) : (crcSeed b s).kind = s.kind := rfl
theorem readAcc_seeded {c : Crc} (h : c.seeded = true) : readAcc c = c.acc := by simp [readAcc, h]

theorem readAcc_unseeded {c : Crc} (h : c.seeded = false) : readAcc c = Config.freeCrc := by simp [readAcc, h]

@[simp] theorem crcUpdated_nil (c : Crc) : crcUpdated [] c = c := rfl

/-- Where the accumulator has been written, an update folds its bytes into it. -/
theorem crcUpdated_seeded {c : Crc} (h : c.seeded = true) (bytes : List Byte) :
    crcUpdated bytes c = { c with acc := crcFold c.acc bytes } := by
  cases bytes with
  | nil => rfl
  | cons b bs => simp [crcUpdated, readAcc, h]

@[simp] theorem crcSeed_crc (b : List Byte) (s : State) : (crcSeed b s).crc = { acc := crcFold crcStart b, seeded := true } :=
  rfl
@[simp] theorem crcSeed_db (b : List Byte) (s : State) : (crcSeed b s).db = s.db := rfl
@[simp] theorem crcSeed_p (b : List Byte) (s : State) : (crcSeed b s).p = s.p := rfl
@[simp] theorem crcSeed_h (b : List Byte) (s : State) : (crcSeed b s).h = s.h := rfl
@[simp] theorem crcSeed_pal (b : List Byte) (s : State) : (crcSeed b s).pal = s.pal := rfl
@[simp] theorem crcSeed_fe (b : List Byte) (s : State) : (crcSeed b s).fe = s.fe := rfl
@[simp] theorem crcSeed_pix (b : List Byte) (s : State) : (crcSeed b s).pix = s.pix := rfl
@[simp] theorem crcSeed_cfg (b : List Byte) (s : State) : (crcSeed b s).cfg = s.cfg := rfl
@[simp] theorem crcSeed_pk (b : List Byte) (s : State) : (crcSeed b s).pk = s.pk := rfl
@[simp] theorem crcSeed_err (b : List Byte) (s : State) : (crcSeed b s).err = s.err := rfl
@[simp] theorem crcSeed_log (b : List Byte) (s : State) : (crcSeed b s).log = s.log := rfl
@[simp] theorem crcSeed_infl (b : List Byte) (s : State) : (crcSeed b s).infl = s.infl := rfl
@[simp] theorem crcSeed_defl (b : List Byte) (s : State) : (crcSeed b s).defl = s.defl := rfl
@[simp] theorem crcSeed_started (b : List Byte) (s : State) : (crcSeed b s).started = s.started := rfl
@[simp] theorem crcSeed_result (b : List Byte) (s : State) : (crcSeed b s).result = s.result := rfl
@[simp] theorem crcSeed_par (b : List Byte) (s : State) : (crcSeed b s).par = s.par := rfl
@[simp] theorem crcSeed_agenda (b : List Byte) (s : State) : (crcSeed b s).agenda = s.agenda := rfl

/-! ### `crcAdd` -/

@[simp] theorem crcAdd_kind (b : List Byte) (s : State) : (crcAdd b s).kind = s.kind := rfl
@[simp] theorem crcAdd_crc (b : List Byte) (s : State) : (crcAdd b s).crc = { s.crc with acc := crcFold s.crc.acc b } :=
  rfl
@[simp] theorem crcAdd_db (b : List Byte) (s : State) : (crcAdd b s).db = s.db := rfl
@[simp] theorem crcAdd_p (b : List Byte) (s : State) : (crcAdd b s).p = s.p := rfl
@[simp] theorem crcAdd_h (b : List Byte) (s : State) : (crcAdd b s).h = s.h := rfl
@[simp] theorem crcAdd_pal (b : List Byte) (s : State) : (crcAdd b s).pal = s.pal := rfl
@[simp] theorem crcAdd_fe (b : List Byte) (s : State) : (crcAdd b s).fe = s.fe := rfl
@[simp] theorem crcAdd_pix (b : List Byte) (s : State) : (crcAdd b s).pix = s.pix := rfl
@[simp] theorem crcAdd_cfg (b : List Byte) (s : State) : (crcAdd b s).cfg = s.cfg := rfl
@[simp] theorem crcAdd_pk (b : List Byte) (s : State) : (crcAdd b s).pk = s.pk := rfl
@[simp] theorem crcAdd_err (b : List Byte) (s : State) : (crcAdd b s).err = s.err := rfl
@[simp] theorem crcAdd_log (b : List Byte) (s : State) : (crcAdd b s).log = s.log := rfl
@[simp] theorem crcAdd_infl (b : List Byte) (s : State) : (crcAdd b s).infl = s.infl := rfl
@[simp] theorem crcAdd_defl (b : List Byte) (s : State) : (crcAdd b s).defl = s.defl := rfl
@[simp] theorem crcAdd_started (b : List Byte) (s : State) : (crcAdd b s).started = s.started := rfl
@[simp] theorem crcAdd_result (b : List Byte) (s : State) : (crcAdd b s).result = s.result := rfl
@[simp] theorem crcAdd_par (b : List Byte) (s : State) : (crcAdd b s).par = s.par := rfl
@[simp] theorem crcAdd_agenda (b : List Byte) (s : State) : (crcAdd b s).agenda = s.agenda := rfl

/-! ### `feed` -/

@[simp] theorem feed_kind (b : List Byte) (s : State) : (feed b s).kind = s.kind := rfl
@[simp] theorem feed_crc (b : List Byte) (s : State) : (feed b s).crc = s.crc := rfl
@[simp] theorem feed_db (b : List Byte) (s : State) : (feed b s).db = s.db := rfl
@[simp] theorem feed_p (b : List Byte) (s : State) : (feed b s).p = s.p := rfl
@[simp] theorem feed_h (b : List Byte) (s : State) : (feed b s).h = s.h := rfl
@[simp] theorem feed_pal (b : List Byte) (s : State) : (feed b s).pal = s.pal := rfl
@[simp] theorem feed_fe (b : List Byte) (s : State) : (feed b s).fe = { s.fe with inq := s.fe.inq ++ b } := rfl
@[simp] theorem feed_pix (b : List Byte) (s : State) : (feed b s).pix = s.pix := rfl
@[simp] theorem feed_cfg (b : List Byte) (s : State) : (feed b s).cfg = s.cfg := rfl
@[simp] theorem feed_pk (b : List Byte) (s : State) : (feed b s).pk = s.pk := rfl
@[simp] theorem feed_err (b : List Byte) (s : State) : (feed b s).err = s.err := rfl
@[simp] theorem feed_log (b : List Byte) (s : State) : (feed b s).log = s.log := rfl
@[simp] theorem feed_infl (b : List Byte) (s : State) : (feed b s).infl = { s.infl with emitted := s.infl.emitted + b.length } :=
  rfl
@[simp] theorem feed_defl (b : List Byte) (s : State) : (feed b s).defl = s.defl := rfl
@[simp] theorem feed_started (b : List Byte) (s : State) : (feed b s).started = s.started := rfl
@[simp] theorem feed_result (b : List Byte) (s : State) : (feed b s).result = s.result := rfl
@[simp] theorem feed_par (b : List Byte) (s : State) : (feed b s).par = s.par := rfl
@[simp] theorem feed_agenda (b : List Byte) (s : State) : (feed b s).agenda = s.agenda := rfl

/-! ### `complete` -/

@[simp] theorem complete_kind (s : State) : (complete s).kind = s.kind := rfl
@[simp] theorem complete_crc (s : State) : (complete s).crc = s.crc := rfl
@[simp] theorem complete_db (s : State) : (complete s).db = s.db := rfl
@[simp] theorem complete_p (s : State) : (complete s).p = s.p := rfl
@[simp] theorem complete_h (s : State) : (complete s).h = s.h := rfl
@[simp] theorem complete_pal (s : State) : (complete s).pal = s.pal := rfl
@[simp] theorem complete_fe (s : State) : (complete s).fe = { s.fe with done := true } := rfl
@[simp] theorem complete_pix (s : State) : (complete s).pix = s.pix := rfl
@[simp] theorem complete_cfg (s : State) : (complete s).cfg = s.cfg := rfl
@[simp] theorem complete_pk (s : State) : (complete s).pk = s.pk := rfl
@[simp] theorem complete_err (s : State) : (complete s).err = s.err := rfl
@[simp] theorem complete_log (s : State) : (complete s).log = s.log ++ [.complete s.fe.width s.fe.height (pixContents s.pix (s.fe.width * s.fe.height * 4))] :=
  rfl
@[simp] theorem complete_infl (s : State) : (complete s).infl = s.infl := rfl
@[simp] theorem complete_defl (s : State) : (complete s).defl = s.defl := rfl
@[simp] theorem complete_started (s : State) : (complete s).started = s.started := rfl
@[simp] theorem complete_result (s : State) : (complete s).result = s.result := rfl
@[simp] theorem complete_par (s : State) : (complete s).par = s.par := rfl
@[simp] theorem complete_agenda (s : State) : (complete s).agenda = s.agenda := rfl

/-! ### `commitLine` -/

@[simp] theorem commitLine_kind (f : FilterType) (s : State) : (commitLine f s).kind = s.kind := rfl
@[simp] theorem commitLine_crc (f : FilterType) (s : State) : (commitLine f s).crc = s.crc := rfl
@[simp] theorem commitLine_db (f : FilterType) (s : State) : (commitLine f s).db = s.db := rfl
@[simp] theorem commitLine_p (f : FilterType) (s : State) : (commitLine f s).p = s.p := rfl
@[simp] theorem commitLine_h (f : FilterType) (s : State) : (commitLine f s).h = s.h := rfl
@[simp] theorem commitLine_pal (f : FilterType) (s : State) : (commitLine f s).pal = s.pal := rfl
@[simp] theorem commitLine_fe (f : FilterType) (s : State) : (commitLine f s).fe = { s.fe with row := s.fe.row + 1, inq := s.fe.inq.drop (lineLength s.fe) } :=
  rfl
@[simp] theorem commitLine_pix (f : FilterType) (s : State) : (commitLine f s).pix = defilt f s.fe.width s.fe.bpp s.fe.row ((s.fe.inq.take (lineLength s.fe)).drop 1) s.pix :=
  rfl
@[simp] theorem commitLine_cfg (f : FilterType) (s : State) : (commitLine f s).cfg = s.cfg := rfl
@[simp] theorem commitLine_pk (f : FilterType) (s : State) : (commitLine f s).pk = s.pk := rfl
@[simp] theorem commitLine_err (f : FilterType) (s : State) : (commitLine f s).err = s.err := rfl
@[simp] theorem commitLine_log (f : FilterType) (s : State) : (commitLine f s).log = s.log := rfl
@[simp] theorem commitLine_infl (f : FilterType) (s : State) : (commitLine f s).infl = s.infl := rfl
@[simp] theorem commitLine_defl (f : FilterType) (s : State) : (commitLine f s).defl = s.defl := rfl
@[simp] theorem commitLine_started (f : FilterType) (s : State) : (commitLine f s).started = s.started := rfl
@[simp] theorem commitLine_result (f : FilterType) (s : State) : (commitLine f s).result = s.result := rfl
@[simp] theorem commitLine_par (f : FilterType) (s : State) : (commitLine f s).par = s.par := rfl
@[simp] theorem commitLine_agenda (f : FilterType) (s : State) : (commitLine f s).agenda = s.agenda := rfl

/-! ### `commitRow` -/

@[simp] theorem commitRow_kind (f : FilterType) (s : State) : (commitRow f s).kind = s.kind := rfl
@[simp] theorem commitRow_crc (f : FilterType) (s : State) : (commitRow f s).crc = s.crc := rfl
@[simp] theorem commitRow_db (f : FilterType) (s : State) : (commitRow f s).db = s.db := rfl
@[simp] theorem commitRow_p (f : FilterType) (s : State) : (commitRow f s).p = s.p := rfl
@[simp] theorem commitRow_h (f : FilterType) (s : State) : (commitRow f s).h = s.h := rfl
@[simp] theorem commitRow_pal (f : FilterType) (s : State) : (commitRow f s).pal = s.pal := rfl
@[simp] theorem commitRow_fe (f : FilterType) (s : State) : (commitRow f s).fe = { s.fe with row := s.fe.row + 1, done := s.fe.done || decide (s.fe.row + 1 = s.fe.height) } :=
  rfl
@[simp] theorem commitRow_pix (f : FilterType) (s : State) : (commitRow f s).pix = s.pix := rfl
@[simp] theorem commitRow_cfg (f : FilterType) (s : State) : (commitRow f s).cfg = s.cfg := rfl
@[simp] theorem commitRow_pk (f : FilterType) (s : State) : (commitRow f s).pk = s.pk := rfl
@[simp] theorem commitRow_err (f : FilterType) (s : State) : (commitRow f s).err = s.err := rfl
@[simp] theorem commitRow_log (f : FilterType) (s : State) : (commitRow f s).log = s.log := rfl
@[simp] theorem commitRow_infl (f : FilterType) (s : State) : (commitRow f s).infl = s.infl := rfl
@[simp] theorem commitRow_defl (f : FilterType) (s : State) : (commitRow f s).defl = { s.defl with input := s.defl.input ++ filteredRow f (4 * s.fe.width) s.pix s.fe.row, ended := s.defl.ended || decide (s.fe.row + 1 = s.fe.height) } :=
  rfl
@[simp] theorem commitRow_started (f : FilterType) (s : State) : (commitRow f s).started = s.started := rfl
@[simp] theorem commitRow_result (f : FilterType) (s : State) : (commitRow f s).result = s.result := rfl
@[simp] theorem commitRow_par (f : FilterType) (s : State) : (commitRow f s).par = s.par := rfl
@[simp] theorem commitRow_agenda (f : FilterType) (s : State) : (commitRow f s).agenda = s.agenda := rfl

/-! ### `emitChunk` -/

@[simp] theorem emitChunk_kind (ty : Word) (b : List Byte) (s : State) : (emitChunk ty b s).kind = s.kind := rfl
@[simp] theorem emitChunk_crc (ty : Word) (b : List Byte) (s : State) : (emitChunk ty b s).crc = { acc := crcFold crcStart (bytes32 ty ++ b), seeded := true } :=
  rfl
@[simp] theorem emitChunk_db (ty : Word) (b : List Byte) (s : State) : (emitChunk ty b s).db = s.db := rfl
@[simp] theorem emitChunk_p (ty : Word) (b : List Byte) (s : State) : (emitChunk ty b s).p = s.p := rfl
@[simp] theorem emitChunk_h (ty : Word) (b : List Byte) (s : State) : (emitChunk ty b s).h = s.h := rfl
@[simp] theorem emitChunk_pal (ty : Word) (b : List Byte) (s : State) : (emitChunk ty b s).pal = s.pal := rfl
@[simp] theorem emitChunk_fe (ty : Word) (b : List Byte) (s : State) : (emitChunk ty b s).fe = s.fe := rfl
@[simp] theorem emitChunk_pix (ty : Word) (b : List Byte) (s : State) : (emitChunk ty b s).pix = s.pix := rfl
@[simp] theorem emitChunk_cfg (ty : Word) (b : List Byte) (s : State) : (emitChunk ty b s).cfg = s.cfg := rfl
@[simp] theorem emitChunk_pk (ty : Word) (b : List Byte) (s : State) : (emitChunk ty b s).pk = s.pk := rfl
@[simp] theorem emitChunk_err (ty : Word) (b : List Byte) (s : State) : (emitChunk ty b s).err = s.err := rfl
@[simp] theorem emitChunk_log (ty : Word) (b : List Byte) (s : State) : (emitChunk ty b s).log = s.log ++ [.data (chunkBytes ty b)] :=
  rfl
@[simp] theorem emitChunk_infl (ty : Word) (b : List Byte) (s : State) : (emitChunk ty b s).infl = s.infl := rfl
@[simp] theorem emitChunk_defl (ty : Word) (b : List Byte) (s : State) : (emitChunk ty b s).defl = s.defl := rfl
@[simp] theorem emitChunk_started (ty : Word) (b : List Byte) (s : State) : (emitChunk ty b s).started = s.started :=
  rfl
@[simp] theorem emitChunk_result (ty : Word) (b : List Byte) (s : State) : (emitChunk ty b s).result = s.result := rfl
@[simp] theorem emitChunk_par (ty : Word) (b : List Byte) (s : State) : (emitChunk ty b s).par = s.par := rfl
@[simp] theorem emitChunk_agenda (ty : Word) (b : List Byte) (s : State) : (emitChunk ty b s).agenda = s.agenda := rfl

/-! ### `chunkCrc` -/

@[simp] theorem chunkCrc_kind (ty : Word) (b : List Byte) (s : State) : (chunkCrc ty b s).kind = s.kind := rfl
@[simp] theorem chunkCrc_crc (ty : Word) (b : List Byte) (s : State) : (chunkCrc ty b s).crc = { acc := crcFold crcStart (bytes32 ty ++ b), seeded := true } :=
  rfl
@[simp] theorem chunkCrc_db (ty : Word) (b : List Byte) (s : State) : (chunkCrc ty b s).db = s.db := rfl
@[simp] theorem chunkCrc_p (ty : Word) (b : List Byte) (s : State) : (chunkCrc ty b s).p = s.p := rfl
@[simp] theorem chunkCrc_h (ty : Word) (b : List Byte) (s : State) : (chunkCrc ty b s).h = s.h := rfl
@[simp] theorem chunkCrc_pal (ty : Word) (b : List Byte) (s : State) : (chunkCrc ty b s).pal = s.pal := rfl
@[simp] theorem chunkCrc_fe (ty : Word) (b : List Byte) (s : State) : (chunkCrc ty b s).fe = s.fe := rfl
@[simp] theorem chunkCrc_pix (ty : Word) (b : List Byte) (s : State) : (chunkCrc ty b s).pix = s.pix := rfl
@[simp] theorem chunkCrc_cfg (ty : Word) (b : List Byte) (s : State) : (chunkCrc ty b s).cfg = s.cfg := rfl
@[simp] theorem chunkCrc_pk (ty : Word) (b : List Byte) (s : State) : (chunkCrc ty b s).pk = s.pk := rfl
@[simp] theorem chunkCrc_err (ty : Word) (b : List Byte) (s : State) : (chunkCrc ty b s).err = s.err := rfl
@[simp] theorem chunkCrc_log (ty : Word) (b : List Byte) (s : State) : (chunkCrc ty b s).log = s.log := rfl
@[simp] theorem chunkCrc_infl (ty : Word) (b : List Byte) (s : State) : (chunkCrc ty b s).infl = s.infl := rfl
@[simp] theorem chunkCrc_defl (ty : Word) (b : List Byte) (s : State) : (chunkCrc ty b s).defl = s.defl := rfl
@[simp] theorem chunkCrc_started (ty : Word) (b : List Byte) (s : State) : (chunkCrc ty b s).started = s.started :=
  rfl
@[simp] theorem chunkCrc_result (ty : Word) (b : List Byte) (s : State) : (chunkCrc ty b s).result = s.result := rfl
@[simp] theorem chunkCrc_par (ty : Word) (b : List Byte) (s : State) : (chunkCrc ty b s).par = s.par := rfl
@[simp] theorem chunkCrc_agenda (ty : Word) (b : List Byte) (s : State) : (chunkCrc ty b s).agenda = s.agenda := rfl

/-! ### `emitBlock` -/

@[simp] theorem emitBlock_kind (b : List Byte) (s : State) : (emitBlock b s).kind = s.kind := rfl
@[simp] theorem emitBlock_crc (b : List Byte) (s : State) : (emitBlock b s).crc = { acc := crcFold crcStart (bytes32 tyIDAT ++ b), seeded := true } :=
  rfl
@[simp] theorem emitBlock_db (b : List Byte) (s : State) : (emitBlock b s).db = s.db := rfl
@[simp] theorem emitBlock_p (b : List Byte) (s : State) : (emitBlock b s).p = s.p := rfl
@[simp] theorem emitBlock_h (b : List Byte) (s : State) : (emitBlock b s).h = s.h := rfl
@[simp] theorem emitBlock_pal (b : List Byte) (s : State) : (emitBlock b s).pal = s.pal := rfl
@[simp] theorem emitBlock_fe (b : List Byte) (s : State) : (emitBlock b s).fe = s.fe := rfl
@[simp] theorem emitBlock_pix (b : List Byte) (s : State) : (emitBlock b s).pix = s.pix := rfl
@[simp] theorem emitBlock_cfg (b : List Byte) (s : State) : (emitBlock b s).cfg = s.cfg := rfl
@[simp] theorem emitBlock_pk (b : List Byte) (s : State) : (emitBlock b s).pk = s.pk := rfl
@[simp] theorem emitBlock_err (b : List Byte) (s : State) : (emitBlock b s).err = s.err := rfl
@[simp] theorem emitBlock_log (b : List Byte) (s : State) : (emitBlock b s).log = s.log ++ [.data (chunkBytes tyIDAT b)] :=
  rfl
@[simp] theorem emitBlock_infl (b : List Byte) (s : State) : (emitBlock b s).infl = s.infl := rfl
@[simp] theorem emitBlock_defl (b : List Byte) (s : State) : (emitBlock b s).defl = { s.defl with emitted := s.defl.emitted + b.length } :=
  rfl
@[simp] theorem emitBlock_started (b : List Byte) (s : State) : (emitBlock b s).started = s.started := rfl
@[simp] theorem emitBlock_result (b : List Byte) (s : State) : (emitBlock b s).result = s.result := rfl
@[simp] theorem emitBlock_par (b : List Byte) (s : State) : (emitBlock b s).par = s.par := rfl
@[simp] theorem emitBlock_agenda (b : List Byte) (s : State) : (emitBlock b s).agenda = s.agenda := rfl

/-! ### `emitEnd` -/

@[simp] theorem emitEnd_kind (s : State) : (emitEnd s).kind = s.kind := rfl
@[simp] theorem emitEnd_crc (s : State) : (emitEnd s).crc = { acc := crcFold crcStart (bytes32 tyIEND ++ []), seeded := true } :=
  rfl
@[simp] theorem emitEnd_db (s : State) : (emitEnd s).db = s.db := rfl
@[simp] theorem emitEnd_p (s : State) : (emitEnd s).p = s.p := rfl
@[simp] theorem emitEnd_h (s : State) : (emitEnd s).h = s.h := rfl
@[simp] theorem emitEnd_pal (s : State) : (emitEnd s).pal = s.pal := rfl
@[simp] theorem emitEnd_fe (s : State) : (emitEnd s).fe = s.fe := rfl
@[simp] theorem emitEnd_pix (s : State) : (emitEnd s).pix = s.pix := rfl
@[simp] theorem emitEnd_cfg (s : State) : (emitEnd s).cfg = s.cfg := rfl
@[simp] theorem emitEnd_pk (s : State) : (emitEnd s).pk = .done := rfl
@[simp] theorem emitEnd_err (s : State) : (emitEnd s).err = s.err := rfl
@[simp] theorem emitEnd_log (s : State) : (emitEnd s).log = s.log ++ [.data (chunkBytes tyIEND [])] ++ [.endOfStream] :=
  rfl
@[simp] theorem emitEnd_infl (s : State) : (emitEnd s).infl = s.infl := rfl
@[simp] theorem emitEnd_defl (s : State) : (emitEnd s).defl = s.defl := rfl
@[simp] theorem emitEnd_started (s : State) : (emitEnd s).started = s.started := rfl
@[simp] theorem emitEnd_result (s : State) : (emitEnd s).result = s.result := rfl
@[simp] theorem emitEnd_par (s : State) : (emitEnd s).par = s.par := rfl
@[simp] theorem emitEnd_agenda (s : State) : (emitEnd s).agenda = s.agenda := rfl

/-! ### `startEncode` -/

@[simp] theorem startEncode_kind (w h : Word) (b : List Byte) (s : State) : (startEncode w h b s).kind = s.kind := rfl
@[simp] theorem startEncode_crc (w h : Word) (b : List Byte) (s : State) : (startEncode w h b s).crc = s.crc := rfl
@[simp] theorem startEncode_db (w h : Word) (b : List Byte) (s : State) : (startEncode w h b s).db = s.db := rfl
@[simp] theorem startEncode_p (w h : Word) (b : List Byte) (s : State) : (startEncode w h b s).p = s.p := rfl
@[simp] theorem startEncode_h (w h : Word) (b : List Byte) (s : State) : (startEncode w h b s).h = s.h := rfl
@[simp] theorem startEncode_pal (w h : Word) (b : List Byte) (s : State) : (startEncode w h b s).pal = s.pal := rfl
@[simp] theorem startEncode_fe (w h : Word) (b : List Byte) (s : State) : (startEncode w h b s).fe = { s.fe with live := true, mode := .encode, bpp := 4, width := w.toNat, height := h.toNat, row := 0, done := false } :=
  rfl
@[simp] theorem startEncode_pix (w h : Word) (b : List Byte) (s : State) : (startEncode w h b s).pix = Memory.writeBytes [] 0 b :=
  rfl
@[simp] theorem startEncode_cfg (w h : Word) (b : List Byte) (s : State) : (startEncode w h b s).cfg = s.cfg := rfl
@[simp] theorem startEncode_pk (w h : Word) (b : List Byte) (s : State) : (startEncode w h b s).pk = .sig := rfl
@[simp] theorem startEncode_err (w h : Word) (b : List Byte) (s : State) : (startEncode w h b s).err = s.err := rfl
@[simp] theorem startEncode_log (w h : Word) (b : List Byte) (s : State) : (startEncode w h b s).log = s.log := rfl
@[simp] theorem startEncode_infl (w h : Word) (b : List Byte) (s : State) : (startEncode w h b s).infl = s.infl := rfl
@[simp] theorem startEncode_defl (w h : Word) (b : List Byte) (s : State) : (startEncode w h b s).defl = s.defl := rfl
@[simp] theorem startEncode_started (w h : Word) (b : List Byte) (s : State) : (startEncode w h b s).started = s.started :=
  rfl
@[simp] theorem startEncode_result (w h : Word) (b : List Byte) (s : State) : (startEncode w h b s).result = s.result :=
  rfl
@[simp] theorem startEncode_par (w h : Word) (b : List Byte) (s : State) : (startEncode w h b s).par = s.par := rfl
@[simp] theorem startEncode_agenda (w h : Word) (b : List Byte) (s : State) : (startEncode w h b s).agenda = s.agenda :=
  rfl

/-! ### `constructAndAnnounce` -/

@[simp] theorem constructAndAnnounce_kind (w h : Word) (ct : Byte) (s : State) : (constructAndAnnounce w h ct s).kind = s.kind :=
  rfl
@[simp] theorem constructAndAnnounce_crc (w h : Word) (ct : Byte) (s : State) : (constructAndAnnounce w h ct s).crc = s.crc :=
  rfl
@[simp] theorem constructAndAnnounce_db (w h : Word) (ct : Byte) (s : State) : (constructAndAnnounce w h ct s).db = s.db :=
  rfl
@[simp] theorem constructAndAnnounce_p (w h : Word) (ct : Byte) (s : State) : (constructAndAnnounce w h ct s).p = s.p :=
  rfl
@[simp] theorem constructAndAnnounce_h (w h : Word) (ct : Byte) (s : State) : (constructAndAnnounce w h ct s).h = s.h :=
  rfl
@[simp] theorem constructAndAnnounce_pal (w h : Word) (ct : Byte) (s : State) : (constructAndAnnounce w h ct s).pal = s.pal :=
  rfl
@[simp] theorem constructAndAnnounce_fe (w h : Word) (ct : Byte) (s : State) : (constructAndAnnounce w h ct s).fe = { live := true, mode := .decode, width := w.toNat, height := h.toNat, bpp := bppOf ct, row := 0, inq := [], done := false } :=
  rfl
@[simp] theorem constructAndAnnounce_pix (w h : Word) (ct : Byte) (s : State) : (constructAndAnnounce w h ct s).pix = [] :=
  rfl
@[simp] theorem constructAndAnnounce_cfg (w h : Word) (ct : Byte) (s : State) : (constructAndAnnounce w h ct s).cfg = s.cfg :=
  rfl
@[simp] theorem constructAndAnnounce_pk (w h : Word) (ct : Byte) (s : State) : (constructAndAnnounce w h ct s).pk = s.pk :=
  rfl
@[simp] theorem constructAndAnnounce_err (w h : Word) (ct : Byte) (s : State) : (constructAndAnnounce w h ct s).err = s.err :=
  rfl
@[simp] theorem constructAndAnnounce_log (w h : Word) (ct : Byte) (s : State) : (constructAndAnnounce w h ct s).log = s.log ++ [.metadata w h (colorFlags ct).1 (colorFlags ct).2.1 (colorFlags ct).2.2] :=
  rfl
@[simp] theorem constructAndAnnounce_infl (w h : Word) (ct : Byte) (s : State) : (constructAndAnnounce w h ct s).infl = s.infl :=
  rfl
@[simp] theorem constructAndAnnounce_defl (w h : Word) (ct : Byte) (s : State) : (constructAndAnnounce w h ct s).defl = s.defl :=
  rfl
@[simp] theorem constructAndAnnounce_started (w h : Word) (ct : Byte) (s : State) : (constructAndAnnounce w h ct s).started = s.started :=
  rfl
@[simp] theorem constructAndAnnounce_result (w h : Word) (ct : Byte) (s : State) : (constructAndAnnounce w h ct s).result = s.result :=
  rfl
@[simp] theorem constructAndAnnounce_par (w h : Word) (ct : Byte) (s : State) : (constructAndAnnounce w h ct s).par = s.par :=
  rfl
@[simp] theorem constructAndAnnounce_agenda (w h : Word) (ct : Byte) (s : State) : (constructAndAnnounce w h ct s).agenda = s.agenda :=
  rfl

/-! ### `resume` -/

@[simp] theorem resume_kind (s : State) : (resume s).kind = s.kind := by unfold resume; split <;> rfl
@[simp] theorem resume_crc (s : State) : (resume s).crc = s.crc := by unfold resume; split <;> rfl
@[simp] theorem resume_db (s : State) : (resume s).db = { s.db with paused := false } := by
  unfold resume; split
  · rfl
  · next h => simp only [Bool.not_eq_true] at h; rw [← h]
@[simp] theorem resume_p (s : State) : (resume s).p = s.p := by unfold resume; split <;> rfl
@[simp] theorem resume_h (s : State) : (resume s).h = s.h := by unfold resume; split <;> rfl
@[simp] theorem resume_pal (s : State) : (resume s).pal = s.pal := by unfold resume; split <;> rfl
@[simp] theorem resume_fe (s : State) : (resume s).fe = s.fe := by unfold resume; split <;> rfl
@[simp] theorem resume_pix (s : State) : (resume s).pix = s.pix := by unfold resume; split <;> rfl
@[simp] theorem resume_cfg (s : State) : (resume s).cfg = s.cfg := by unfold resume; split <;> rfl
@[simp] theorem resume_pk (s : State) : (resume s).pk = s.pk := by unfold resume; split <;> rfl
@[simp] theorem resume_err (s : State) : (resume s).err = s.err := by unfold resume; split <;> rfl
@[simp] theorem resume_log (s : State) : (resume s).log = s.log ++ drainIf s := by
  unfold resume drainIf; split <;> simp [emit]
@[simp] theorem resume_infl (s : State) : (resume s).infl = s.infl := by unfold resume; split <;> rfl
@[simp] theorem resume_defl (s : State) : (resume s).defl = s.defl := by unfold resume; split <;> rfl
@[simp] theorem resume_started (s : State) : (resume s).started = s.started := by unfold resume; split <;> rfl
@[simp] theorem resume_result (s : State) : (resume s).result = s.result := by unfold resume; split <;> rfl
@[simp] theorem resume_par (s : State) : (resume s).par = s.par := by unfold resume; split <;> rfl
@[simp] theorem resume_agenda (s : State) : (resume s).agenda = s.agenda := by unfold resume; split <;> rfl

/-! ### `closeOpen` -/

@[simp] theorem closeOpen_kind (s : State) : (closeOpen s).kind = s.kind := by unfold closeOpen; split <;> rfl
@[simp] theorem closeOpen_crc (s : State) : (closeOpen s).crc = s.crc := by unfold closeOpen; split <;> rfl
@[simp] theorem closeOpen_p (s : State) : (closeOpen s).p = s.p := by unfold closeOpen; split <;> rfl
@[simp] theorem closeOpen_h (s : State) : (closeOpen s).h = s.h := by unfold closeOpen; split <;> rfl
@[simp] theorem closeOpen_pal (s : State) : (closeOpen s).pal = s.pal := by unfold closeOpen; split <;> rfl
@[simp] theorem closeOpen_fe (s : State) : (closeOpen s).fe = s.fe := by unfold closeOpen; split <;> rfl
@[simp] theorem closeOpen_pix (s : State) : (closeOpen s).pix = s.pix := by unfold closeOpen; split <;> rfl
@[simp] theorem closeOpen_cfg (s : State) : (closeOpen s).cfg = s.cfg := by unfold closeOpen; split <;> rfl
@[simp] theorem closeOpen_pk (s : State) : (closeOpen s).pk = s.pk := by unfold closeOpen; split <;> rfl
@[simp] theorem closeOpen_err (s : State) : (closeOpen s).err = s.err := by unfold closeOpen; split <;> rfl
@[simp] theorem closeOpen_infl (s : State) : (closeOpen s).infl = s.infl := by unfold closeOpen; split <;> rfl
@[simp] theorem closeOpen_defl (s : State) : (closeOpen s).defl = s.defl := by unfold closeOpen; split <;> rfl
@[simp] theorem closeOpen_started (s : State) : (closeOpen s).started = s.started :=
  by unfold closeOpen; split <;> rfl
@[simp] theorem closeOpen_result (s : State) : (closeOpen s).result = s.result := by unfold closeOpen; split <;> rfl
@[simp] theorem closeOpen_par (s : State) : (closeOpen s).par = s.par := by unfold closeOpen; split <;> rfl
@[simp] theorem closeOpen_agenda (s : State) : (closeOpen s).agenda = s.agenda := by unfold closeOpen; split <;> rfl

/-! ### `stop` -/

@[simp] theorem stop_kind (s : State) : (stop s).kind = s.kind := by unfold stop; split <;> rfl
@[simp] theorem stop_crc (s : State) : (stop s).crc = s.crc := by unfold stop; split <;> rfl
@[simp] theorem stop_h (s : State) : (stop s).h = s.h := by unfold stop; split <;> rfl
@[simp] theorem stop_pal (s : State) : (stop s).pal = s.pal := by unfold stop; split <;> rfl
@[simp] theorem stop_pix (s : State) : (stop s).pix = s.pix := by unfold stop; split <;> rfl
@[simp] theorem stop_cfg (s : State) : (stop s).cfg = s.cfg := by unfold stop; split <;> rfl
@[simp] theorem stop_err (s : State) : (stop s).err = s.err := by unfold stop; split <;> rfl
@[simp] theorem stop_log (s : State) : (stop s).log = s.log := by unfold stop; split <;> rfl
@[simp] theorem stop_started (s : State) : (stop s).started = s.started := by unfold stop; split <;> rfl
@[simp] theorem stop_result (s : State) : (stop s).result = s.result := by unfold stop; split <;> rfl
@[simp] theorem stop_par (s : State) : (stop s).par = s.par := by unfold stop; split <;> rfl
@[simp] theorem stop_agenda (s : State) : (stop s).agenda = s.agenda := by unfold stop; split <;> rfl

/-! ### `teardown` -/

@[simp] theorem teardown_kind (e : ErrorKind) (i : List Word) (s : State) : (teardown e i s).kind = s.kind :=
  by simp [teardown]
@[simp] theorem teardown_crc (e : ErrorKind) (i : List Word) (s : State) : (teardown e i s).crc = s.crc :=
  by simp [teardown, emit]
@[simp] theorem teardown_h (e : ErrorKind) (i : List Word) (s : State) : (teardown e i s).h = s.h :=
  by simp [teardown, emit]
@[simp] theorem teardown_pal (e : ErrorKind) (i : List Word) (s : State) : (teardown e i s).pal = s.pal :=
  by simp [teardown, emit]
@[simp] theorem teardown_pix (e : ErrorKind) (i : List Word) (s : State) : (teardown e i s).pix = s.pix :=
  by simp [teardown, emit]
@[simp] theorem teardown_cfg (e : ErrorKind) (i : List Word) (s : State) : (teardown e i s).cfg = s.cfg :=
  by simp [teardown, emit]
@[simp] theorem teardown_err (e : ErrorKind) (i : List Word) (s : State) : (teardown e i s).err = some e :=
  by simp [teardown, emit]
@[simp] theorem teardown_log (e : ErrorKind) (i : List Word) (s : State) : (teardown e i s).log = s.log ++ [.error e.code i] :=
  by simp [teardown, emit]
@[simp] theorem teardown_started (e : ErrorKind) (i : List Word) (s : State) : (teardown e i s).started = s.started :=
  by simp [teardown, emit]
@[simp] theorem teardown_result (e : ErrorKind) (i : List Word) (s : State) : (teardown e i s).result = s.result :=
  by simp [teardown, emit]
@[simp] theorem teardown_par (e : ErrorKind) (i : List Word) (s : State) : (teardown e i s).par = s.par :=
  by simp [teardown, emit]
@[simp] theorem teardown_agenda (e : ErrorKind) (i : List Word) (s : State) : (teardown e i s).agenda = s.agenda :=
  by simp [teardown, emit]

/-! ### Ending a session -/

@[simp] theorem stop_of_decode {s : State} (h : s.kind = .decode) : stop s =
    { s with
      db := { s.db with blocks := [], reads := [], phase := .disposed }
      p := { s.p with state := .failed }
      fe := { s.fe with live := false }
      infl := { s.infl with live := false } } := by
  simp [stop, h]

@[simp] theorem stop_of_encode {s : State} (h : s.kind = .encode) : stop s =
    { s with
      pk := .failed
      fe := { s.fe with live := false }
      defl := { s.defl with live := false } } := by
  simp [stop, h]

@[simp] theorem stop_of_buffer {s : State} (h : s.kind = .buffer) : stop s =
    { s with db := { s.db with blocks := [], reads := [], phase := .disposed } } := by
  simp [stop, h]

@[simp] theorem stop_of_crc {s : State} (h : s.kind = .crc) : stop s = s := by
  simp [stop, h]

end Sys2Proof.Laws
end

