-- ==== Sys2Proof/Laws/Exec.lean ====
section
/-! SUPPORT. One equation per operation: `exec` is its meaning. -/

namespace Sys2Proof.Laws

open Sys2Proof.Machine

@[simp] theorem exec_chunkIhdr (length : Word) (s : State) : exec (.chunkIhdr length) s = execChunkIhdr length s :=
  rfl
@[simp] theorem exec_chunkPlte (length : Word) (s : State) : exec (.chunkPlte length) s = execChunkPlte length s :=
  rfl
@[simp] theorem exec_chunkTrns (length : Word) (s : State) : exec (.chunkTrns length) s = execChunkTrns length s :=
  rfl
@[simp] theorem exec_chunkGama (length : Word) (s : State) : exec (.chunkGama length) s = execChunkGama length s :=
  rfl
@[simp] theorem exec_chunkIdat (length : Word) (s : State) : exec (.chunkIdat length) s = execChunkIdat length s :=
  rfl
@[simp] theorem exec_chunkIend (length : Word) (s : State) : exec (.chunkIend length) s = execChunkIend length s :=
  rfl
@[simp] theorem exec_chunkAncillaryUnknown (ty length : Word) (s : State) : exec (.chunkAncillaryUnknown ty length) s = execChunkAncillaryUnknown ty length s :=
  rfl
@[simp] theorem exec_chunkCriticalUnknown (ty length : Word) (s : State) : exec (.chunkCriticalUnknown ty length) s = execChunkCriticalUnknown ty length s :=
  rfl
@[simp] theorem exec_defiltNone (data : List Byte) (s : State) : exec (.defiltNone data) s = execDefiltNone data s :=
  rfl
@[simp] theorem exec_defiltSub (data : List Byte) (s : State) : exec (.defiltSub data) s = execDefiltSub data s :=
  rfl
@[simp] theorem exec_defiltUp (data : List Byte) (s : State) : exec (.defiltUp data) s = execDefiltUp data s := rfl
@[simp] theorem exec_defiltAvg (data : List Byte) (s : State) : exec (.defiltAvg data) s = execDefiltAvg data s :=
  rfl
@[simp] theorem exec_defiltPaeth (data : List Byte) (s : State) : exec (.defiltPaeth data) s = execDefiltPaeth data s :=
  rfl
@[simp] theorem exec_filtNone (y : Nat) (s : State) : exec (.filtNone y) s = execFiltNone y s := rfl
@[simp] theorem exec_filtSub (y : Nat) (s : State) : exec (.filtSub y) s = execFiltSub y s := rfl
@[simp] theorem exec_filtUp (y : Nat) (s : State) : exec (.filtUp y) s = execFiltUp y s := rfl
@[simp] theorem exec_filtAvg (y : Nat) (s : State) : exec (.filtAvg y) s = execFiltAvg y s := rfl
@[simp] theorem exec_filtPaeth (y : Nat) (s : State) : exec (.filtPaeth y) s = execFiltPaeth y s := rfl
@[simp] theorem exec_kSig (data : List Byte) (s : State) : exec (.kSig data) s = execKSig data s := rfl
@[simp] theorem exec_kHdr (data : List Byte) (s : State) : exec (.kHdr data) s = execKHdr data s := rfl
@[simp] theorem exec_kIhdr (data : List Byte) (s : State) : exec (.kIhdr data) s = execKIhdr data s := rfl
@[simp] theorem exec_kPlte (data : List Byte) (s : State) : exec (.kPlte data) s = execKPlte data s := rfl
@[simp] theorem exec_kTrns (data : List Byte) (s : State) : exec (.kTrns data) s = execKTrns data s := rfl
@[simp] theorem exec_kGama (data : List Byte) (s : State) : exec (.kGama data) s = execKGama data s := rfl
@[simp] theorem exec_kIdat (data : List Byte) (s : State) : exec (.kIdat data) s = execKIdat data s := rfl
@[simp] theorem exec_kIend (data : List Byte) (s : State) : exec (.kIend data) s = execKIend data s := rfl
@[simp] theorem exec_kSkip (data : List Byte) (s : State) : exec (.kSkip data) s = execKSkip data s := rfl
@[simp] theorem exec_kCrc (data : List Byte) (s : State) : exec (.kCrc data) s = execKCrc data s := rfl
@[simp] theorem exec_kUser0 (data : List Byte) (s : State) : exec (.kUser0 data) s = execKUser0 data s := rfl
@[simp] theorem exec_kUser1 (data : List Byte) (s : State) : exec (.kUser1 data) s = execKUser1 data s := rfl
@[simp] theorem exec_kUser2 (data : List Byte) (s : State) : exec (.kUser2 data) s = execKUser2 data s := rfl
@[simp] theorem exec_kUser3 (data : List Byte) (s : State) : exec (.kUser3 data) s = execKUser3 data s := rfl
@[simp] theorem exec_kUser4 (data : List Byte) (s : State) : exec (.kUser4 data) s = execKUser4 data s := rfl
@[simp] theorem exec_kUser5 (data : List Byte) (s : State) : exec (.kUser5 data) s = execKUser5 data s := rfl
@[simp] theorem exec_dbPush (bytes : List Byte) (s : State) : exec (.dbPush bytes) s = execDbPush bytes s := rfl
@[simp] theorem exec_dbRequest (length : Nat) (allowLess : Bool) (tag : Tag) (s : State) : exec (.dbRequest length allowLess tag) s = execDbRequest length allowLess tag s :=
  rfl
@[simp] theorem exec_dbClose (last : List Byte) (s : State) : exec (.dbClose last) s = execDbClose last s := rfl
@[simp] theorem exec_dbDispose (s : State) : exec .dbDispose s = execDbDispose s := rfl
@[simp] theorem exec_crcInit (s : State) : exec .crcInit s = execCrcInit s := rfl
@[simp] theorem exec_crcUpdate (bytes : List Byte) (s : State) : exec (.crcUpdate bytes) s = execCrcUpdate bytes s :=
  rfl
@[simp] theorem exec_crcFinal (s : State) : exec .crcFinal s = execCrcFinal s := rfl
@[simp] theorem exec_decPush (bytes : List Byte) (s : State) : exec (.decPush bytes) s = execDecPush bytes s := rfl
@[simp] theorem exec_decClose (last : List Byte) (s : State) : exec (.decClose last) s = execDecClose last s := rfl
@[simp] theorem exec_decDispose (s : State) : exec .decDispose s = execDecDispose s := rfl
@[simp] theorem exec_encStart (width height : Word) (pixels : List Byte) (s : State) : exec (.encStart width height pixels) s = execEncStart width height pixels s :=
  rfl
@[simp] theorem exec_encDispose (s : State) : exec .encDispose s = execEncDispose s := rfl
@[simp] theorem exec_pStart (s : State) : exec .pStart s = execPStart s := rfl
@[simp] theorem exec_dbServe (s : State) : exec .dbServe s = execDbServe s := rfl
@[simp] theorem exec_dbDrainend (s : State) : exec .dbDrainend s = execDbDrainend s := rfl
@[simp] theorem exec_inflOut (k : Nat) (s : State) : exec (.inflOut k) s = execInflOut k s := rfl
@[simp] theorem exec_feFeed (bytes : List Byte) (s : State) : exec (.feFeed bytes) s = execFeFeed bytes s := rfl
@[simp] theorem exec_feLine (s : State) : exec .feLine s = execFeLine s := rfl
@[simp] theorem exec_feFinish (s : State) : exec .feFinish s = execFeFinish s := rfl
@[simp] theorem exec_pkSig (s : State) : exec .pkSig s = execPkSig s := rfl
@[simp] theorem exec_pkIhdr (s : State) : exec .pkIhdr s = execPkIhdr s := rfl
@[simp] theorem exec_feEncline (s : State) : exec .feEncline s = execFeEncline s := rfl
@[simp] theorem exec_deflOut (k : Nat) (s : State) : exec (.deflOut k) s = execDeflOut k s := rfl
@[simp] theorem exec_pkIdat (block : List Byte) (s : State) : exec (.pkIdat block) s = execPkIdat block s := rfl
@[simp] theorem exec_deflDone (s : State) : exec .deflDone s = execDeflDone s := rfl
@[simp] theorem exec_pkIend (s : State) : exec .pkIend s = execPkIend s := rfl
@[simp] theorem exec_crc32 (bytes : List Byte) (s : State) : exec (.crc32 bytes) s = execCrc32 bytes s := rfl
@[simp] theorem exec_tbl (n : Byte) (s : State) : exec (.tbl n) s = execTbl n s := rfl
@[simp] theorem exec_paeth (left above upLeft : Byte) (s : State) : exec (.paeth left above upLeft) s = execPaeth left above upLeft s :=
  rfl
@[simp] theorem exec_pred (f : FilterType) (left up upLeft : Byte) (s : State) : exec (.pred f left up upLeft) s = execPred f left up upLeft s :=
  rfl
@[simp] theorem exec_pkChunk (ty : Word) (payload : List Byte) (s : State) : exec (.pkChunk ty payload) s = execPkChunk ty payload s :=
  rfl
@[simp] theorem exec_finalize (s : State) : exec .finalize s = execFinalize s := rfl
@[simp] theorem exec_teardown (kind : ErrorKind) (info : List Word) (s : State) : exec (.teardown kind info) s = execTeardown kind info s :=
  rfl

end Sys2Proof.Laws
end

