-- ==== Sys2Proof/Laws/Ops.lean ====
section
/-! SUPPORT. What each shared operation can answer, said once: if it answers a next state, then which. -/

namespace Sys2Proof.Laws

open Sys2Proof.Machine Sys2Proof.Safety

/-- `andThen` answers a next state only through one of its first part. -/
theorem andThen_next {o : Out} {f : State → Out} {t : State} (h : andThen o f = .next t) :
    ∃ s, o = .next s ∧ f s = .next t := by
  cases o with
  | next s => exact ⟨s, rfl, h⟩
  | fault r => simp [andThen] at h
  | refused r => simp [andThen] at h

@[simp] theorem andThen_of_next (s : State) (f : State → Out) : andThen (.next s) f = f s := rfl

/-- An internal step answers its rule's state where it is enabled, and the same state where it is not. -/
theorem whenEnabled_next {b : Bool} {s t : State} {o : Out} (h : whenEnabled b s o = .next t) :
    b = true ∧ o = .next t ∨ b = false ∧ t = s := by
  cases b with
  | true => exact .inl ⟨rfl, h⟩
  | false => simp only [whenEnabled] at h; exact .inr ⟨rfl, by simpa using h.symm⟩

@[simp] theorem whenEnabled_true (s : State) (o : Out) : whenEnabled true s o = o := rfl

@[simp] theorem whenEnabled_false (s : State) (o : Out) : whenEnabled false s o = .next s := rfl

/-- A command answers the same state on a dead session, and its rule's on any other. -/
theorem command_next {s t : State} {f : State → Out} (h : command s f = .next t) :
    s.err.isSome = true ∧ t = s ∨ s.err = none ∧ f { s with started := true } = .next t := by
  unfold command at h
  split at h
  · next hd => exact .inl ⟨hd, by simpa using h.symm⟩
  · next hd => exact .inr ⟨by simpa using hd, h⟩

theorem command_live {s : State} (h : s.err = none) (f : State → Out) : command s f = f { s with started := true } := by
  simp [command, h]

theorem command_dead {s : State} (h : s.err.isSome = true) (f : State → Out) : command s f = .next s := by
  simp [command, h]

/-- A push appends its block, or raises `WriteAfterClose`. -/
theorem pushBlock_next {bytes : List Byte} {s t : State} (h : pushBlock bytes s = .next t) :
    s.db.phase ≠ .opened ∧ t = teardown .writeAfterClose [] s ∨
    s.db.phase = .opened ∧ bytes ≠ [] ∧
      t = { s with db := { s.db with blocks := s.db.blocks ++ [bytes], paused := pausedAfterPush s.db } } := by
  unfold pushBlock at h
  split at h
  · next hp => exact .inl ⟨hp, by simpa [raise] using h.symm⟩
  · next hp =>
    split at h
    · simp at h
    · split at h
      · simp at h
      · exact .inr ⟨by simpa using hp, ‹_›, by simpa using h.symm⟩

/-- A request appends itself and resumes the buffer, or raises `ReadAfterDispose`. -/
theorem request_next {n : Nat} {al : Bool} {tag : Tag} {s t : State} (h : request n al tag s = .next t) :
    (s.db.phase = .disposed ∨ s.db.phase = .finalized) ∧ t = teardown .readAfterDispose [] s ∨
    (s.db.phase = .opened ∨ s.db.phase = .closing) ∧ (al = true → 0 < n) ∧
      t = { s with
        db := { s.db with reads := s.db.reads ++ [{ length := n, allowLess := al, tag := tag }], paused := false }
        log := s.log ++ drainIf s } := by
  unfold request at h
  split at h
  · next hp => exact .inl ⟨hp, by simpa [raise] using h.symm⟩
  · next hp =>
    have hp : s.db.phase = .opened ∨ s.db.phase = .closing := by
      cases hq : s.db.phase <;> simp_all
    split at h
    · simp at h
    · next hz =>
      split at h
      · simp at h
      · refine .inr ⟨hp, fun ha => Nat.pos_of_ne_zero fun h0 => hz ⟨ha, h0⟩, ?_⟩
        simp only [Host.Outcome.next.injEq] at h
        rw [← h]
        unfold resume drainIf
        cases hq : s.db.paused <;> simp [emit]

/-- Where a request can be made it is. -/
theorem request_open {n : Nat} {al : Bool} {tag : Tag} {s : State} (hp : s.db.phase = .opened ∨ s.db.phase = .closing)
    (hn : al = true → 0 < n) (hr : exceeds s.par.maxReads (s.db.reads.length + 1) = false) :
    request n al tag s = .next { s with
      db := { s.db with reads := s.db.reads ++ [{ length := n, allowLess := al, tag := tag }], paused := false }
      log := s.log ++ drainIf s } := by
  unfold request
  rw [if_neg (by rcases hp with h | h <;> simp [h]), if_neg (by rintro ⟨h1, h2⟩; have := hn h1; omega), if_neg (by simp [hr])]
  unfold resume drainIf
  cases hq : s.db.paused <;> simp [emit, hq]

/-- A close ends an open buffer, has no effect on another, or raises `WriteAfterClose`. -/
theorem closeBuffer_next {last : List Byte} {s t : State} (h : closeBuffer last s = .next t) :
    s.db.phase ≠ .opened ∧ (last = [] ∧ t = s ∨ last ≠ [] ∧ t = teardown .writeAfterClose [] s) ∨
    s.db.phase = .opened ∧ (last = [] ∧ t = closeOpen s ∨ last ≠ [] ∧
      t = closeOpen { s with db := { s.db with blocks := s.db.blocks ++ [last], paused := pausedAfterPush s.db } }) := by
  unfold closeBuffer at h
  split at h
  · next hp =>
    refine .inl ⟨hp, ?_⟩
    split at h
    · exact .inl ⟨‹_›, by simpa using h.symm⟩
    · exact .inr ⟨‹_›, by simpa [raise] using h.symm⟩
  · next hp =>
    refine .inr ⟨by simpa using hp, ?_⟩
    split at h
    · exact .inl ⟨‹_›, by simpa using h.symm⟩
    · obtain ⟨u, hu, hv⟩ := andThen_next h
      rcases pushBlock_next hu with ⟨h1, _⟩ | ⟨_, _, rfl⟩
      · exact absurd h1 hp
      · exact .inr ⟨‹_›, by simpa using hv.symm⟩

/-- What closing an open buffer leaves. -/
theorem closeOpen_cases (s : State) :
    s.db.reads = [] ∧ closeOpen s = finalizeBuffer s ∨
    s.db.reads ≠ [] ∧ closeOpen s = { s with db := { s.db with phase := .closing } } := by
  unfold closeOpen
  split
  · exact .inl ⟨‹_›, rfl⟩
  · exact .inr ⟨‹_›, rfl⟩

/-- An enabled delivery: what its Bool says. -/
theorem delivers_iff (tag : Tag) (data : List Byte) (s : State) :
    delivers tag data s = true ↔ serving s = true ∧ ∃ r rest, s.db.reads = r :: rest ∧ r.tag = tag ∧
      answers r data.length s.db.blocks = true ∧ (takefront s.db.blocks data.length).1 = data := by
  unfold delivers
  cases hr : s.db.reads with
  | nil => simp
  | cons r rest =>
    simp only [Bool.and_eq_true, beq_iff_eq, and_congr_right_iff]
    intro _
    constructor
    · rintro ⟨⟨h1, h2⟩, h3⟩; exact ⟨r, rest, rfl, h1, h2, h3⟩
    · rintro ⟨r', rest', he, h1, h2, h3⟩
      obtain ⟨rfl, rfl⟩ := List.cons.inj he
      exact ⟨⟨h1, h2⟩, h3⟩

theorem serving_iff (s : State) :
    serving s = true ↔ hasBuffer s.kind = true ∧ s.err = none ∧ (s.db.phase = .opened ∨ s.db.phase = .closing) := by
  unfold serving
  cases s.db.phase <;> simp [servingPhase, Option.isNone_iff_eq_none]

/-- A finished `DB.SERVE`, or a labelled delivery, runs in a state whose buffer is open or closing and whose session is not
dead. -/
theorem delivers_serving {tag : Tag} {data : List Byte} {s : State} (h : delivers tag data s = true) :
    hasBuffer s.kind = true ∧ s.err = none ∧ (s.db.phase = .opened ∨ s.db.phase = .closing) :=
  (serving_iff s).1 ((delivers_iff tag data s).1 h).1

end Sys2Proof.Laws
end

