-- ==== Sys2Proof/Laws/Parser.lean ====
section
/-! SUPPORT. What each continuation rule of the parser can answer, said once: the states it can lead to and, for a state it
leads to without raising, the request it ends in. -/

namespace Sys2Proof.Laws

open Sys2Proof.Machine Sys2Proof.Safety

/-- `K.SIG`: the signature leads to a header read, anything else raises. -/
theorem kSig_next {data : List Byte} {s t : State} (h : kSig data s = .next t) :
    data ≠ signature ∧ t = teardown .invalidSignature [] s ∨ data = signature ∧ awaitHeader s = .next t := by
  unfold kSig at h
  split at h
  · exact .inl ⟨‹_›, by simpa [raise] using h.symm⟩
  · next hd => exact .inr ⟨by simpa using hd, h⟩

/-- The state in which `K.HDR` dispatches: the header registers and the seeded CRC. -/
def headerState (ty length : Word) (s : State) : State :=
  crcSeed (bytes32 ty) { s with p := { s.p with length := length, type := ty } }

/-- `K.HDR` on eight bytes: `MissingHeader`, or the dispatch on the type. -/
theorem kHdr_eight (l0 l1 l2 l3 t0 t1 t2 t3 : Byte) (s : State) :
    kHdr [l0, l1, l2, l3, t0, t1, t2, t3] s =
      if s.p.hasIHDR = false ∧ be32 t0 t1 t2 t3 ≠ tyIHDR then
        raise .missingHeader [be32 t0 t1 t2 t3]
          { s with p := { s.p with length := be32 l0 l1 l2 l3, type := be32 t0 t1 t2 t3 } }
      else dispatchClass (classify (be32 t0 t1 t2 t3))
        (crcSeed [t0, t1, t2, t3] { s with p := { s.p with length := be32 l0 l1 l2 l3, type := be32 t0 t1 t2 t3 } }) := rfl

/-- `K.HDR` answers a next state only on eight bytes. -/
theorem kHdr_next {data : List Byte} {s t : State} (h : kHdr data s = .next t) :
    ∃ l0 l1 l2 l3 t0 t1 t2 t3, data = [l0, l1, l2, l3, t0, t1, t2, t3] ∧
      (s.p.hasIHDR = false ∧ be32 t0 t1 t2 t3 ≠ tyIHDR ∧ t = teardown .missingHeader [be32 t0 t1 t2 t3]
          { s with p := { s.p with length := be32 l0 l1 l2 l3, type := be32 t0 t1 t2 t3 } } ∨
       (s.p.hasIHDR = false → be32 t0 t1 t2 t3 = tyIHDR) ∧
        dispatchClass (classify (be32 t0 t1 t2 t3)) (crcSeed [t0, t1, t2, t3]
          { s with p := { s.p with length := be32 l0 l1 l2 l3, type := be32 t0 t1 t2 t3 } }) = .next t) := by
  unfold kHdr at h
  split at h
  · refine ⟨_, _, _, _, _, _, _, _, rfl, ?_⟩
    dsimp only at h
    split at h
    · next hc => exact .inl ⟨hc.1, hc.2, by simpa [raise] using h.symm⟩
    · next hc => exact .inr ⟨fun h0 => by simpa [h0] using hc, h⟩
  · simp at h

/-- The dispatch: by the class of the chunk, the request it ends in or the error it raises. -/
theorem dispatchClass_next {c : ChunkClass} {s t : State} (h : dispatchClass c s = .next t) :
    (c = .ihdr ∧ s.p.hasIHDR = false ∧ awaitPayload .ihdr .ihdr s = .next t) ∨
    (c = .plte ∧ awaitPayload .plte .plte s = .next t) ∨ (c = .trns ∧ awaitPayload .trns .trns s = .next t) ∨
    (c = .gama ∧ awaitPayload .gama .gama s = .next t) ∨ (c = .iend ∧ awaitPayload .iend .iend s = .next t) ∨
    (c = .idat ∧ s.h.colorType = 3 ∧ s.pal.size = 0 ∧ t = teardown .missingPalette [] s) ∨
    (c = .idat ∧ s.p.length.toNat = 0 ∧
      awaitCrc { s with p := { s.p with kind := .idat, remaining := s.p.length.toNat } } = .next t) ∨
    (c = .idat ∧ 0 < s.p.length.toNat ∧
      request s.p.length.toNat true .idat
        { s with p := { s.p with kind := .idat, remaining := s.p.length.toNat, state := .dispatchChunk } } = .next t) ∨
    (c = .ancillary ∧ request (s.p.length.toNat + 4) false .skip
        { s with p := { s.p with kind := .skip, state := .dispatchChunk } } = .next t) ∨
    (c = .critical ∧ t = teardown .unsupportedChunk [s.p.type] s) := by
  cases c with
  | ihdr =>
    simp only [dispatchClass, dispatchIhdr] at h
    split at h
    · simp at h
    · next hh => exact .inl ⟨rfl, by simpa using hh, h⟩
  | plte => exact .inr (.inl ⟨rfl, h⟩)
  | trns => exact .inr (.inr (.inl ⟨rfl, h⟩))
  | gama => exact .inr (.inr (.inr (.inl ⟨rfl, h⟩)))
  | iend => exact .inr (.inr (.inr (.inr (.inl ⟨rfl, h⟩))))
  | idat =>
    simp only [dispatchClass, dispatchIdat] at h
    split at h
    · next hc => exact .inr (.inr (.inr (.inr (.inr (.inl ⟨rfl, hc.1, hc.2, by simpa [raise] using h.symm⟩)))))
    · split at h
      · next hz => exact .inr (.inr (.inr (.inr (.inr (.inr (.inl ⟨rfl, hz, h⟩))))))
      · next hz => exact .inr (.inr (.inr (.inr (.inr (.inr (.inr (.inl ⟨rfl, Nat.pos_of_ne_zero hz, h⟩)))))))
  | ancillary => exact .inr (.inr (.inr (.inr (.inr (.inr (.inr (.inr (.inl ⟨rfl, h⟩))))))))
  | critical =>
    exact .inr (.inr (.inr (.inr (.inr (.inr (.inr (.inr (.inr ⟨rfl, by
      simpa [dispatchClass, dispatchCritical, raise] using h.symm⟩))))))))

/-- `K.IHDR`: a check that fails raises; a header that passes is latched and announced. -/
theorem kIhdr_next {data : List Byte} {s t : State} (h : kIhdr data s = .next t) :
    (∃ e b, t = teardown e b (crcAdd data s)) ∨
    ∃ w h' ct, legalColorType ct = true ∧ w ≠ 0 ∧ h' ≠ 0 ∧
      awaitCrc (constructAndAnnounce w h' ct { crcAdd data s with
        h := { width := w, height := h', bitDepth := 8, colorType := ct, compression := 0, filter := 0, interlace := 0 }
        p := { s.p with hasIHDR := true } }) = .next t := by
  unfold kIhdr at h
  split at h
  · next w0 w1 w2 w3 h0 h1 h2 h3 bd ct cm fm il =>
    dsimp only at h
    split at h
    · next e b _ => exact .inl ⟨e, _, by simpa [raise] using h.symm⟩
    · next hv =>
      have hv : bd = 8 ∧ legalColorType ct = true ∧ cm = 0 ∧ fm = 0 ∧ il = 0 := by
        unfold validate at hv
        split at hv; · simp at hv
        split at hv; · simp at hv
        split at hv; · simp at hv
        split at hv; · simp at hv
        split at hv; · simp at hv
        simp_all
      obtain ⟨rfl, hct, rfl, rfl, rfl⟩ := hv
      split at h
      · simp at h
      · next hz =>
        split at h
        · simp at h
        · exact .inr ⟨_, _, ct, hct, fun h0 => hz (.inl h0), fun h0 => hz (.inr h0), h⟩
  · simp at h

/-- `K.PLTE` appends its entries. -/
theorem kPlte_next {data : List Byte} {s t : State} (h : kPlte data s = .next t) :
    data.length % 3 = 0 ∧ s.pal.size + data.length / 3 ≤ 256 ∧
      awaitCrc { crcAdd data s with
        pal := { size := s.pal.size + data.length / 3
                 mem := Memory.writeBytes s.pal.mem (4 * s.pal.size) (paletteBytes data) } } = .next t := by
  unfold kPlte at h
  split at h
  · simp at h
  · next h3 =>
    split at h
    · simp at h
    · next h256 => exact ⟨by simpa using h3, by omega, h⟩

/-- `K.TRNS` patches the palette, ignores its payload, or raises. -/
theorem kTrns_next {data : List Byte} {s t : State} (h : kTrns data s = .next t) :
    (∃ e b, t = teardown e b (crcAdd data s)) ∨
    (s.h.colorType = 3 ∧ data.length ≤ s.pal.size ∧
      awaitCrc { crcAdd data s with pal := { s.pal with mem := patchAlpha s.pal.mem 0 data } } = .next t) ∨
    (s.h.colorType ≠ 3 ∧ awaitCrc (crcAdd data s) = .next t) := by
  unfold kTrns at h
  dsimp only at h
  split at h
  · next h3 =>
    split at h
    · exact .inl ⟨_, _, by simpa [raise] using h.symm⟩
    · split at h
      · exact .inl ⟨_, _, by simpa [raise] using h.symm⟩
      · exact .inr (.inl ⟨h3, by omega, h⟩)
  · next h3 => exact .inr (.inr ⟨h3, h⟩)

/-- `K.GAMA` sets the gamma register and surfaces it. -/
theorem kGama_next {data : List Byte} {s t : State} (h : kGama data s = .next t) :
    ∃ v, awaitCrc (emit (.gamma v) { crcAdd data s with
      p := { s.p with gamma := v, gammaValid := true } }) = .next t := by
  unfold kGama at h
  split at h
  · exact ⟨_, h⟩
  · simp at h

/-- `INFL.PUSH` appends its bytes. -/
theorem inflPush_next {bytes : List Byte} {s t : State} (h : inflPush bytes s = .next t) :
    s.infl.live = true ∧ s.infl.ended = false ∧
      t = { s with infl := { s.infl with input := s.infl.input ++ bytes } } := by
  unfold inflPush at h
  split at h
  · next hl =>
    dsimp only at h
    split at h
    · simp at h
    · exact ⟨hl.1, hl.2, by simpa using h.symm⟩
  · simp at h

/-- The state of `K.IDAT` before its request. -/
def idatTaken (data : List Byte) (s : State) : State :=
  { crcAdd data s with
    infl := { s.infl with input := s.infl.input ++ data }
    p := { s.p with remaining := s.p.remaining - data.length } }

/-- `K.IDAT` feeds the transform and asks for the rest or the CRC. -/
theorem kIdat_next {data : List Byte} {s t : State} (h : kIdat data s = .next t) :
    s.infl.live = true ∧ s.infl.ended = false ∧
      (data.length < s.p.remaining ∧
          request (s.p.remaining - data.length) true .idat (idatTaken data s) = .next t ∨
       s.p.remaining ≤ data.length ∧ awaitCrc (idatTaken data s) = .next t) := by
  unfold kIdat at h
  obtain ⟨u, hu, h⟩ := andThen_next h
  obtain ⟨h1, h2, rfl⟩ := inflPush_next hu
  refine ⟨by simpa using h1, by simpa using h2, ?_⟩
  dsimp only at h
  split at h
  · next hr =>
    simp only [crcAdd_p] at hr
    exact .inl ⟨by omega, h⟩
  · next hr =>
    simp only [crcAdd_p] at hr
    exact .inr ⟨by omega, h⟩

/-- `K.IEND` sets the terminal flag and ends the transform's input. -/
theorem kIend_next {data : List Byte} {s t : State} (h : kIend data s = .next t) :
    data = [] ∧ awaitCrc { crcAdd data s with
      p := { s.p with hasIEND := true }, infl := { s.infl with ended := true } } = .next t := by
  unfold kIend at h
  split at h
  · exact ⟨rfl, h⟩
  · simp at h

/-- `K.CRC` raises, terminates and closes, or goes on to the next header. -/
theorem kCrc_next {data : List Byte} {s t : State} (h : kCrc data s = .next t) :
    (∃ b, t = teardown .crcMismatch b s) ∨
    (s.p.hasIEND = true ∧ closeBuffer [] { s with p := { s.p with state := .terminated } } = .next t) ∨
    (s.p.hasIEND = false ∧ awaitHeader s = .next t) := by
  unfold kCrc at h
  split at h
  · dsimp only at h
    split at h
    · exact .inl ⟨_, by simpa [raise] using h.symm⟩
    · split at h
      · exact .inr (.inl ⟨‹_›, h⟩)
      · exact .inr (.inr ⟨by simpa using ‹¬ s.p.hasIEND = true›, h⟩)
  · simp at h

/-- What a delivery may answer: for a parser tag the answer of its rule in a decode session, for a user tag the event. -/
theorem deliver_next {tag : Tag} {data : List Byte} {s t : State} (h : deliver tag data s = .next t) :
    isParserTag tag = false ∧ t = emit (.deliver tag data) s ∨
    s.kind = .decode ∧
      (match tag with
       | .sig => kSig data s
       | .hdr => kHdr data s
       | .ihdr => kIhdr data s
       | .plte => kPlte data s
       | .trns => kTrns data s
       | .gama => kGama data s
       | .idat => kIdat data s
       | .iend => kIend data s
       | .skip => kSkip data s
       | .crc => kCrc data s
       | _ => .fault .deliveredLength) = .next t := by
  unfold deliver at h
  split at h
  · simp at h
  · next hc =>
    cases tag
    case user0 => exact .inl ⟨rfl, by simpa [kUser] using h.symm⟩
    case user1 => exact .inl ⟨rfl, by simpa [kUser] using h.symm⟩
    case user2 => exact .inl ⟨rfl, by simpa [kUser] using h.symm⟩
    case user3 => exact .inl ⟨rfl, by simpa [kUser] using h.symm⟩
    case user4 => exact .inl ⟨rfl, by simpa [kUser] using h.symm⟩
    case user5 => exact .inl ⟨rfl, by simpa [kUser] using h.symm⟩
    all_goals exact .inr ⟨by simpa [isParserTag] using hc, h⟩

/-- A labelled delivery is `deliver` of its bytes where it is enabled, and waits elsewhere. -/
theorem parserStep_next {tag : Tag} {rule : List Byte → State → Out} {data : List Byte} {s t : State}
    (h : parserStep tag rule data s = .next t) :
    s.kind = .decode ∧ delivers tag data s = true ∧ rule data (served data.length s) = .next t ∨ t = s := by
  rcases whenEnabled_next h with ⟨h1, h2⟩ | ⟨_, h2⟩
  · simp only [Bool.and_eq_true, beq_iff_eq] at h1
    exact .inl ⟨h1.1, h1.2, h2⟩
  · exact .inr h2

/-- A labelled delivery to a user tag. -/
theorem userStep_next {tag : Tag} {data : List Byte} {s t : State} (h : userStep tag data s = .next t) :
    delivers tag data s = true ∧ t = emit (.deliver tag data) (served data.length s) ∨ t = s := by
  rcases whenEnabled_next h with ⟨h1, h2⟩ | ⟨_, h2⟩
  · exact .inl ⟨h1, by simpa [kUser] using h2.symm⟩
  · exact .inr h2

end Sys2Proof.Laws
end

