-- ==== Sys2Proof/Laws/Deliver.lean ====
section
/-! SUPPORT. What a delivery can lead to: an error taken in the state the rule had reached, or the state with the next read
queued; by rule, with the state spelled out. -/

namespace Sys2Proof.Laws

open Sys2Proof.Machine Sys2Proof.Safety

/-- The state after a read has been queued while reads are served. -/
def withRead (n : Nat) (al : Bool) (tag : Tag) (s : State) : State :=
  { s with
    db := { s.db with reads := s.db.reads ++ [{ length := n, allowLess := al, tag := tag }], paused := false }
    log := s.log ++ drainIf s }

theorem request_serving {n : Nat} {al : Bool} {tag : Tag} {s t : State}
    (hp : s.db.phase = .opened ∨ s.db.phase = .closing) (h : request n al tag s = .next t) :
    (al = true → 0 < n) ∧ t = withRead n al tag s := by
  rcases request_next h with ⟨h1, _⟩ | ⟨_, h2, h3⟩
  · rcases hp with hp | hp <;> simp [hp] at h1
  · exact ⟨h2, h3⟩

theorem awaitCrc_serving {s t : State} (hp : s.db.phase = .opened ∨ s.db.phase = .closing)
    (h : awaitCrc s = .next t) :
    t = withRead 4 false .crc { s with p := { s.p with state := .awaitChunkCRC } } := by
  unfold awaitCrc at h
  exact (request_serving (by exact hp) h).2

theorem awaitHeader_serving {s t : State} (hp : s.db.phase = .opened ∨ s.db.phase = .closing)
    (h : awaitHeader s = .next t) :
    t = withRead 8 false .hdr { s with p := { s.p with state := .awaitChunkHeader } } := by
  unfold awaitHeader at h
  exact (request_serving (by exact hp) h).2

theorem awaitPayload_serving {k : ChunkKind} {tag : Tag} {s t : State}
    (hp : s.db.phase = .opened ∨ s.db.phase = .closing) (h : awaitPayload k tag s = .next t) :
    t = withRead s.p.length.toNat false tag { s with p := { s.p with kind := k, state := .dispatchChunk } } := by
  unfold awaitPayload at h
  exact (request_serving (by exact hp) h).2

/-- The states a chunk header can lead to. -/
theorem kHdr_serving {data : List Byte} {s t : State} (hp : s.db.phase = .opened ∨ s.db.phase = .closing)
    (h : kHdr data s = .next t) :
    (∃ ty len, t = teardown .missingHeader [ty] { s with p := { s.p with length := len, type := ty } } ∧
      s.p.hasIHDR = false ∧ ty ≠ tyIHDR) ∨
    ∃ ty len b, let u := crcSeed b { s with p := { s.p with length := len, type := ty } }
      (s.p.hasIHDR = false → ty = tyIHDR) ∧
      ((classify ty = .ihdr ∧ s.p.hasIHDR = false ∧
          t = withRead len.toNat false .ihdr { u with p := { u.p with kind := .ihdr, state := .dispatchChunk } }) ∨
       (classify ty = .plte ∧
          t = withRead len.toNat false .plte { u with p := { u.p with kind := .plte, state := .dispatchChunk } }) ∨
       (classify ty = .trns ∧
          t = withRead len.toNat false .trns { u with p := { u.p with kind := .trns, state := .dispatchChunk } }) ∨
       (classify ty = .gama ∧
          t = withRead len.toNat false .gama { u with p := { u.p with kind := .gama, state := .dispatchChunk } }) ∨
       (classify ty = .iend ∧
          t = withRead len.toNat false .iend { u with p := { u.p with kind := .iend, state := .dispatchChunk } }) ∨
       (classify ty = .idat ∧ s.h.colorType = 3 ∧ s.pal.size = 0 ∧ t = teardown .missingPalette [] u) ∨
       (classify ty = .idat ∧ len.toNat = 0 ∧ t = withRead 4 false .crc
          { u with p := { u.p with kind := .idat, remaining := len.toNat, state := .awaitChunkCRC } }) ∨
       (classify ty = .idat ∧ 0 < len.toNat ∧ t = withRead len.toNat true .idat
          { u with p := { u.p with kind := .idat, remaining := len.toNat, state := .dispatchChunk } }) ∨
       (classify ty = .ancillary ∧ t = withRead (len.toNat + 4) false .skip
          { u with p := { u.p with kind := .skip, state := .dispatchChunk } }) ∨
       (classify ty = .critical ∧ t = teardown .unsupportedChunk [ty] u)) := by
  obtain ⟨l0, l1, l2, l3, t0, t1, t2, t3, _, hx⟩ := kHdr_next h
  clear h
  rcases hx with ⟨h1, h2, rfl⟩ | ⟨h1, h2⟩
  · exact .inl ⟨_, _, rfl, h1, h2⟩
  · refine .inr ⟨be32 t0 t1 t2 t3, be32 l0 l1 l2 l3, [t0, t1, t2, t3], h1, ?_⟩
    rcases dispatchClass_next h2 with ⟨hc, hh, h⟩ | ⟨hc, h⟩ | ⟨hc, h⟩ | ⟨hc, h⟩ | ⟨hc, h⟩ | ⟨hc, h3, h4, h⟩ | ⟨hc, h3, h⟩ |
      ⟨hc, h3, h⟩ | ⟨hc, h⟩ | ⟨hc, h⟩
    · exact .inl ⟨hc, hh, awaitPayload_serving (by exact hp) h⟩
    · exact .inr (.inl ⟨hc, awaitPayload_serving (by exact hp) h⟩)
    · exact .inr (.inr (.inl ⟨hc, awaitPayload_serving (by exact hp) h⟩))
    · exact .inr (.inr (.inr (.inl ⟨hc, awaitPayload_serving (by exact hp) h⟩)))
    · exact .inr (.inr (.inr (.inr (.inl ⟨hc, awaitPayload_serving (by exact hp) h⟩))))
    · exact .inr (.inr (.inr (.inr (.inr (.inl ⟨hc, h3, h4, h⟩)))))
    · exact .inr (.inr (.inr (.inr (.inr (.inr (.inl ⟨hc, h3, awaitCrc_serving (by exact hp) h⟩))))))
    · exact .inr (.inr (.inr (.inr (.inr (.inr (.inr (.inl ⟨hc, h3, (request_serving (by exact hp) h).2⟩)))))))
    · exact .inr (.inr (.inr (.inr (.inr (.inr (.inr (.inr (.inl ⟨hc, (request_serving (by exact hp) h).2⟩))))))))
    · exact .inr (.inr (.inr (.inr (.inr (.inr (.inr (.inr (.inr ⟨hc, h⟩))))))))

theorem deliver_user {tag : Tag} (hk : isParserTag tag = false) (data : List Byte) (s : State) :
    deliver tag data s = .next (emit (.deliver tag data) s) := by
  cases tag <;> first | rfl | cases hk

/-- Everything a delivery can lead to, the state spelled out. -/
inductive Delivered (tag : Tag) (data : List Byte) (s : State) : State → Prop
  | user : isParserTag tag = false → Delivered tag data s (emit (.deliver tag data) s)
  | error (e : ErrorKind) (info : List Word) (c : Crc) (len ty : Word) : s.kind = .decode →
      tag = .sig ∨ tag = .hdr ∨ tag = .ihdr ∨ tag = .trns ∨ tag = .crc →
      (tag = .hdr ∨ len = s.p.length ∧ ty = s.p.type) → (tag = .sig ∨ tag = .crc → c = s.crc) →
      Delivered tag data s (teardown e info { s with crc := c, p := { s.p with length := len, type := ty } })
  | header : s.kind = .decode → tag = .sig ∨ tag = .skip ∨ tag = .crc ∧ s.p.hasIEND = false →
      Delivered tag data s (withRead 8 false .hdr { s with p := { s.p with state := .awaitChunkHeader } })
  | dispatch (ty len : Word) (b : List Byte) (k : ChunkKind) (remaining : Nat) (p : Parser) : s.kind = .decode →
      tag = .hdr → (k = .ihdr → s.p.hasIHDR = false) → (k ≠ .ihdr → s.p.hasIHDR = true) →
      (k = .idat → remaining = len.toNat ∧ 0 < remaining) → (k ≠ .idat → remaining = s.p.remaining) →
      p = { s.p with length := len, type := ty, kind := k, remaining := remaining, state := .dispatchChunk } →
      Delivered tag data s (withRead (dispatchRead p).length (dispatchRead p).allowLess (dispatchRead p).tag
        { s with crc := { acc := crcFold crcStart b, seeded := true }, p := p })
  | emptyIdat (ty len : Word) (b : List Byte) : s.kind = .decode → tag = .hdr → s.p.hasIHDR = true →
      Delivered tag data s (withRead 4 false .crc { s with
        crc := { acc := crcFold crcStart b, seeded := true }
        p := { s.p with length := len, type := ty, kind := .idat, remaining := 0, state := .awaitChunkCRC } })
  | ihdr (w h : Word) (ct : Byte) : s.kind = .decode → tag = .ihdr → legalColorType ct = true → w ≠ 0 → h ≠ 0 →
      Delivered tag data s (withRead 4 false .crc (constructAndAnnounce w h ct { crcAdd data s with
        h := { width := w, height := h, bitDepth := 8, colorType := ct, compression := 0, filter := 0, interlace := 0 }
        p := { s.p with hasIHDR := true, state := .awaitChunkCRC } }))
  | plte : s.kind = .decode → tag = .plte → data.length % 3 = 0 → s.pal.size + data.length / 3 ≤ 256 →
      Delivered tag data s (withRead 4 false .crc { crcAdd data s with
        pal := { size := s.pal.size + data.length / 3
                 mem := Memory.writeBytes s.pal.mem (4 * s.pal.size) (paletteBytes data) }
        p := { s.p with state := .awaitChunkCRC } })
  | patch : s.kind = .decode → tag = .trns → data.length ≤ s.pal.size →
      Delivered tag data s (withRead 4 false .crc { crcAdd data s with
        pal := { s.pal with mem := patchAlpha s.pal.mem 0 data }, p := { s.p with state := .awaitChunkCRC } })
  | ignore : s.kind = .decode → tag = .trns →
      Delivered tag data s (withRead 4 false .crc { crcAdd data s with p := { s.p with state := .awaitChunkCRC } })
  | gama (v : Word) : s.kind = .decode → tag = .gama →
      Delivered tag data s (withRead 4 false .crc (emit (.gamma v) { crcAdd data s with
        p := { s.p with gamma := v, gammaValid := true, state := .awaitChunkCRC } }))
  | more : s.kind = .decode → tag = .idat → s.infl.live = true → s.infl.ended = false → data.length < s.p.remaining →
      Delivered tag data s (withRead (s.p.remaining - data.length) true .idat (idatTaken data s))
  | last : s.kind = .decode → tag = .idat → s.infl.live = true → s.infl.ended = false →
      Delivered tag data s (withRead 4 false .crc { idatTaken data s with
        p := { s.p with remaining := s.p.remaining - data.length, state := .awaitChunkCRC } })
  | iend : s.kind = .decode → tag = .iend →
      Delivered tag data s (withRead 4 false .crc { crcAdd data s with
        p := { s.p with hasIEND := true, state := .awaitChunkCRC }, infl := { s.infl with ended := true } })
  | finish : s.kind = .decode → tag = .crc → s.p.hasIEND = true → s.db.phase = .opened →
      Delivered tag data s (closeOpen { s with p := { s.p with state := .terminated } })
  | closed : s.kind = .decode → tag = .crc → s.p.hasIEND = true → s.db.phase = .closing →
      Delivered tag data s { s with p := { s.p with state := .terminated } }

theorem classify_ihdr {ty : Word} (h : classify ty ≠ .ihdr) : ty ≠ tyIHDR := by
  rintro rfl; exact h rfl

/-- A delivery while reads are served answers one of the states of `Delivered`. -/
theorem deliver_serving {tag : Tag} {data : List Byte} {s t : State}
    (hp : s.db.phase = .opened ∨ s.db.phase = .closing) (h : deliver tag data s = .next t) : Delivered tag data s t := by
  rcases deliver_next h with ⟨hu, rfl⟩ | ⟨hk, hr⟩
  · exact .user hu
  · cases tag <;> simp only at hr
    case sig =>
      rcases kSig_next hr with ⟨_, rfl⟩ | ⟨_, h⟩
      · exact .error _ _ s.crc s.p.length s.p.type hk (by simp) (by simp) (by simp)
      · rw [awaitHeader_serving hp h]; exact .header hk (by simp)
    case hdr =>
      rcases kHdr_serving hp hr with ⟨_, len, rfl, _⟩ | ⟨ty, len, b, h1, h⟩
      · exact .error _ _ s.crc len _ hk (by simp) (by simp) (by simp)
      · have hi (hc : classify ty ≠ .ihdr) : s.p.hasIHDR = true := by
          by_contra hn; exact classify_ihdr hc (h1 (by simpa using hn))
        rcases h with ⟨_, hn, rfl⟩ | ⟨hc, rfl⟩ | ⟨hc, rfl⟩ | ⟨hc, rfl⟩ | ⟨hc, rfl⟩ | ⟨hc, _, _, rfl⟩ | ⟨hc, hz, rfl⟩ |
          ⟨hc, hz, rfl⟩ | ⟨hc, rfl⟩ | ⟨hc, rfl⟩
        · exact .dispatch ty len b .ihdr s.p.remaining _ hk rfl (fun _ => hn) (by simp) (by simp) (by simp) rfl
        · exact .dispatch ty len b .plte s.p.remaining _ hk rfl (by simp) (fun _ => hi (by simp [hc])) (by simp) (by simp) rfl
        · exact .dispatch ty len b .trns s.p.remaining _ hk rfl (by simp) (fun _ => hi (by simp [hc])) (by simp) (by simp) rfl
        · exact .dispatch ty len b .gama s.p.remaining _ hk rfl (by simp) (fun _ => hi (by simp [hc])) (by simp) (by simp) rfl
        · exact .dispatch ty len b .iend s.p.remaining _ hk rfl (by simp) (fun _ => hi (by simp [hc])) (by simp) (by simp) rfl
        · exact .error _ _ _ len ty hk (by simp) (by simp) (by simp)
        · rw [hz]; exact .emptyIdat ty len b hk rfl (hi (by simp [hc]))
        · exact .dispatch ty len b .idat len.toNat _ hk rfl (by simp) (fun _ => hi (by simp [hc])) (fun _ => ⟨rfl, hz⟩)
            (by simp) rfl
        · exact .dispatch ty len b .skip s.p.remaining _ hk rfl (by simp) (fun _ => hi (by simp [hc])) (by simp) (by simp) rfl
        · exact .error _ _ _ len ty hk (by simp) (by simp) (by simp)
    case ihdr =>
      rcases kIhdr_next hr with ⟨e, b, rfl⟩ | ⟨w, h', ct, h1, h2, h3, h⟩
      · exact .error e b (crcAdd data s).crc s.p.length s.p.type hk (by simp) (by simp) (by simp)
      · rw [awaitCrc_serving (by simpa using hp) h]; exact .ihdr w h' ct hk rfl h1 h2 h3
    case plte =>
      obtain ⟨h1, h2, h⟩ := kPlte_next hr
      rw [awaitCrc_serving (by simpa using hp) h]; exact .plte hk rfl h1 h2
    case trns =>
      rcases kTrns_next hr with ⟨e, b, rfl⟩ | ⟨_, h1, h⟩ | ⟨_, h⟩
      · exact .error e b (crcAdd data s).crc s.p.length s.p.type hk (by simp) (by simp) (by simp)
      · rw [awaitCrc_serving (by simpa using hp) h]; exact .patch hk rfl h1
      · rw [awaitCrc_serving (by simpa using hp) h]; exact .ignore hk rfl
    case gama =>
      obtain ⟨v, h⟩ := kGama_next hr
      rw [awaitCrc_serving (by simpa using hp) h]; exact .gama v hk rfl
    case idat =>
      obtain ⟨h1, h2, ⟨h3, h⟩ | ⟨_, h⟩⟩ := kIdat_next hr
      · rw [(request_serving (by simpa [idatTaken] using hp) h).2]; exact .more hk rfl h1 h2 h3
      · rw [awaitCrc_serving (by simpa [idatTaken] using hp) h]; exact .last hk rfl h1 h2
    case iend =>
      obtain ⟨_, h⟩ := kIend_next hr
      rw [awaitCrc_serving (by simpa using hp) h]; exact .iend hk rfl
    case skip =>
      rw [awaitHeader_serving hp hr]; exact .header hk (by simp)
    case crc =>
      rcases kCrc_next hr with ⟨b, rfl⟩ | ⟨hi, h⟩ | ⟨hi, h⟩
      · exact .error _ b s.crc s.p.length s.p.type hk (by simp) (by simp) (by simp)
      · rcases closeBuffer_next h with ⟨h1, ⟨_, rfl⟩ | ⟨h2, _⟩⟩ | ⟨h1, ⟨_, rfl⟩ | ⟨h2, _⟩⟩
        · exact .closed hk rfl hi (hp.resolve_left h1)
        · simp at h2
        · exact .finish hk rfl hi h1
        · simp at h2
      · rw [awaitHeader_serving hp h]; exact .header hk (.inr (.inr ⟨rfl, hi⟩))
    all_goals cases hr

/-- The tag that a delivery row names; `DB.SERVE` names none. -/
def rowTag : Instr → Option Tag
  | .kSig _ => some .sig
  | .kHdr _ => some .hdr
  | .chunkIhdr _ | .chunkPlte _ | .chunkTrns _ | .chunkGama _ | .chunkIdat _ | .chunkIend _ => some .hdr
  | .chunkAncillaryUnknown _ _ | .chunkCriticalUnknown _ _ => some .hdr
  | .kIhdr _ => some .ihdr
  | .kPlte _ => some .plte
  | .kTrns _ => some .trns
  | .kGama _ => some .gama
  | .kIdat _ => some .idat
  | .kIend _ => some .iend
  | .kSkip _ => some .skip
  | .kCrc _ => some .crc
  | .kUser0 _ => some .user0
  | .kUser1 _ => some .user1
  | .kUser2 _ => some .user2
  | .kUser3 _ => some .user3
  | .kUser4 _ => some .user4
  | .kUser5 _ => some .user5
  | _ => none

/-- The step is the delivery of `data`, which the front of the buffer holds, to the tag of the head request, the given one
where one is given. -/
def IsDelivery (named : Option Tag) (data : List Byte) (s t : State) : Prop :=
  ∃ r rest k, (∀ tag, named = some tag → r.tag = tag) ∧ hasBuffer s.kind = true ∧ s.err = none ∧
    (s.db.phase = .opened ∨ s.db.phase = .closing) ∧ s.db.reads = r :: rest ∧ data = (takefront s.db.blocks k).1 ∧
    (isParserTag r.tag = true → s.kind = .decode) ∧ Delivered r.tag data (served k s) t

theorem parserStep_delivery {tag : Tag} {rule : List Byte → State → Out} {data : List Byte} {s t : State}
    (hr : ∀ u, u.kind = .decode → deliver tag data u = rule data u) (h : parserStep tag rule data s = .next t) :
    t = s ∨ IsDelivery (some tag) data s t := by
  rcases parserStep_next h with ⟨h1, h2, h3⟩ | h
  · obtain ⟨hs, r, rest, hq, rfl, ha, hf⟩ := (delivers_iff _ _ _).1 h2
    obtain ⟨e1, e2, e3⟩ := (serving_iff s).1 hs
    refine .inr ⟨r, rest, data.length, by simp, e1, e2, e3, hq, hf.symm, fun _ => h1, deliver_serving (by simpa using e3) ?_⟩
    rw [hr _ (by simpa using h1)]; exact h3
  · exact .inl h

theorem userStep_delivery {tag : Tag} {data : List Byte} {s t : State} (hk : isParserTag tag = false)
    (h : userStep tag data s = .next t) : t = s ∨ IsDelivery (some tag) data s t := by
  rcases userStep_next h with ⟨h1, h2⟩ | h
  · obtain ⟨hs, r, rest, hq, rfl, ha, hf⟩ := (delivers_iff _ _ _).1 h1
    obtain ⟨e1, e2, e3⟩ := (serving_iff s).1 hs
    refine .inr ⟨r, rest, data.length, by simp, e1, e2, e3, hq, hf.symm, fun h => by simp [hk] at h, ?_⟩
    rw [h2]; exact .user hk
  · exact .inl h

theorem deliveredBytes_dbServe {r : Request} {rest : List Request} {s : State} (hq : s.db.reads = r :: rest) :
    deliveredBytes .dbServe s = (takefront s.db.blocks (serveCount s.par.take r s.db.blocks)).1 := by
  show servedBytes s = _
  simp only [servedBytes, hq]

theorem dbServe_delivery {s t : State} (h : execDbServe s = .next t) :
    t = s ∨ IsDelivery none (deliveredBytes .dbServe s) s t := by
  rcases whenEnabled_next h with ⟨h1, h2⟩ | ⟨_, h2⟩
  · simp only [serveEnabled, Bool.and_eq_true] at h1
    obtain ⟨e1, e2, e3⟩ := (serving_iff s).1 h1.1
    unfold serveHead at h2
    cases hq : s.db.reads with
    | nil => rw [hq] at h2; exact .inl (by simpa using h2.symm)
    | cons r rest =>
      rw [hq] at h2
      rw [deliveredBytes_dbServe hq]
      exact .inr ⟨r, rest, _, by simp, e1, e2, e3, hq, rfl, fun hp => by
        by_contra hn
        simp [deliver, hp, hn] at h2, deliver_serving (by simpa using e3) h2⟩
  · exact .inl h2

theorem chunkStep_delivery {ty len : Word} {s t : State} (h : chunkStep ty len s = .next t) :
    t = s ∨ IsDelivery (some .hdr) (headerBytes ty len) s t :=
  parserStep_delivery (fun u hu => by simp [deliver, hu]) h

/-- Every row that delivers is either waiting or a delivery to the head request. -/
theorem delivery_next {i : Instr} {s t : State} (hd : delivery i = true) (h : exec i s = .next t) :
    t = s ∨ IsDelivery (rowTag i) (deliveredBytes i s) s t := by
  cases i
  case dbServe => exact dbServe_delivery h
  case chunkIhdr => exact chunkStep_delivery h
  case chunkPlte => exact chunkStep_delivery h
  case chunkTrns => exact chunkStep_delivery h
  case chunkGama => exact chunkStep_delivery h
  case chunkIdat => exact chunkStep_delivery h
  case chunkIend => exact chunkStep_delivery h
  case chunkAncillaryUnknown =>
    rcases whenEnabled_next h with ⟨_, h2⟩ | ⟨_, h2⟩
    · exact chunkStep_delivery h2
    · exact .inl h2
  case chunkCriticalUnknown =>
    rcases whenEnabled_next h with ⟨_, h2⟩ | ⟨_, h2⟩
    · exact chunkStep_delivery h2
    · exact .inl h2
  case kSig => exact parserStep_delivery (fun u hu => by simp [deliver, hu]) h
  case kHdr => exact parserStep_delivery (fun u hu => by simp [deliver, hu]) h
  case kIhdr => exact parserStep_delivery (fun u hu => by simp [deliver, hu]) h
  case kPlte => exact parserStep_delivery (fun u hu => by simp [deliver, hu]) h
  case kTrns => exact parserStep_delivery (fun u hu => by simp [deliver, hu]) h
  case kGama => exact parserStep_delivery (fun u hu => by simp [deliver, hu]) h
  case kIdat => exact parserStep_delivery (fun u hu => by simp [deliver, hu]) h
  case kIend => exact parserStep_delivery (fun u hu => by simp [deliver, hu]) h
  case kSkip => exact parserStep_delivery (fun u hu => by simp [deliver, hu]) h
  case kCrc => exact parserStep_delivery (fun u hu => by simp [deliver, hu]) h
  case kUser0 => exact userStep_delivery rfl h
  case kUser1 => exact userStep_delivery rfl h
  case kUser2 => exact userStep_delivery rfl h
  case kUser3 => exact userStep_delivery rfl h
  case kUser4 => exact userStep_delivery rfl h
  case kUser5 => exact userStep_delivery rfl h
  all_goals cases hd

end Sys2Proof.Laws
end

