-- ==== Sys2Proof/Laws/Did.lean ====
section
/-! SUPPORT. Everything an operation can do, said once: `exec` answers a next state only as one of the cases of `Did`. A
rule about every operation is a case analysis of it. -/

namespace Sys2Proof.Laws

open Sys2Proof.Machine Sys2Proof.Safety

/-- What an operation did, and to which state it led. -/
inductive Did (i : Instr) (s : State) : State → Prop
  | wait : (isCommand i = true → s.err.isSome = true) → Did i s s
  | delivery (r : Request) (rest : List Request) (k : Nat) (data : List Byte) (t : State) :
      delivery i = true → data = deliveredBytes i s → (∀ tag, rowTag i = some tag → r.tag = tag) → hasBuffer s.kind = true → s.err = none →
      s.db.phase = .opened ∨ s.db.phase = .closing → s.db.reads = r :: rest → data = (takefront s.db.blocks k).1 →
      (isParserTag r.tag = true → s.kind = .decode) → Delivered r.tag data (served k s) t → Did i s t
  | push (bytes : List Byte) : i = .dbPush bytes ∨ i = .decPush bytes → s.err = none → hasBuffer s.kind = true →
      s.db.phase = .opened → bytes ≠ [] → Did i s { s with
        started := true
        db := { s.db with blocks := s.db.blocks ++ [bytes], paused := pausedAfterPush s.db } }
  | pushLate (bytes : List Byte) :
      i = .dbPush bytes ∨ i = .decPush bytes ∨ i = .dbClose bytes ∨ i = .decClose bytes →
      s.err = none → hasBuffer s.kind = true → s.db.phase ≠ .opened →
      Did i s (teardown .writeAfterClose [] { s with started := true })
  | close : i = .dbClose [] ∨ i = .decClose [] → s.err = none → hasBuffer s.kind = true → s.db.phase = .opened →
      Did i s (closeOpen { s with started := true })
  | closeWith (bytes : List Byte) : i = .dbClose bytes ∨ i = .decClose bytes → s.err = none → hasBuffer s.kind = true →
      s.db.phase = .opened → bytes ≠ [] → Did i s (closeOpen { s with
        started := true
        db := { s.db with blocks := s.db.blocks ++ [bytes], paused := pausedAfterPush s.db } })
  | closeLate : i = .dbClose [] ∨ i = .decClose [] → s.err = none → hasBuffer s.kind = true → s.db.phase ≠ .opened →
      Did i s { s with started := true }
  | request (n : Nat) (al : Bool) (tag : Tag) : i = .dbRequest n al tag → s.err = none → s.kind = .buffer →
      isParserTag tag = false → s.db.phase = .opened ∨ s.db.phase = .closing → (al = true → 0 < n) →
      Did i s (withRead n al tag { s with started := true })
  | requestLate (n : Nat) (al : Bool) (tag : Tag) : i = .dbRequest n al tag → s.err = none → s.kind = .buffer →
      s.db.phase = .disposed ∨ s.db.phase = .finalized →
      Did i s (teardown .readAfterDispose [] { s with started := true })
  | dispose : i = .dbDispose → s.err = none → hasBuffer s.kind = true → Did i s (disposeBuffer { s with started := true })
  | crcInit : i = .crcInit → s.err = none → s.kind = .crc →
      Did i s { s with started := true, crc := { acc := crcStart, seeded := true } }
  | crcUpdate (bytes : List Byte) : i = .crcUpdate bytes → s.err = none → s.kind = .crc →
      Did i s { s with started := true, crc := crcUpdated bytes s.crc }
  | crcFinal : i = .crcFinal → s.err = none → s.kind = .crc →
      Did i s (reply (.bits (crcValue (readAcc s.crc))) { s with started := true })
  | decDispose : i = .decDispose → s.err = none → s.kind = .decode → Did i s (stop { s with started := true })
  | encDispose : i = .encDispose → s.err = none → s.kind = .encode → Did i s (stop { s with started := true })
  | encStart (w h : Word) (pixels : List Byte) : i = .encStart w h pixels → s.err = none → s.kind = .encode →
      s.pk = .idle → w ≠ 0 → h ≠ 0 → pixels.length = w.toNat * h.toNat * 4 →
      Did i s (startEncode w h pixels { s with started := true })
  | pStart : i = .pStart → startPending s = true →
      Did i s (withRead 8 false .sig { s with p := { s.p with state := .awaitSignature } })
  | finalized : i = .finalize ∨ i = .dbDrainend → s.err = none → hasBuffer s.kind = true →
      s.db.phase = .opened ∨ s.db.phase = .closing → s.db.reads = [] → Did i s (finalizeBuffer s)
  | pending : i = .dbDrainend → s.err = none → hasBuffer s.kind = true → s.db.phase = .closing → s.db.reads ≠ [] →
      Did i s (teardown .pendingReadsOnClose [] s)
  | fed (bytes : List Byte) : i = .inflOut bytes.length ∨ i = .feFeed bytes → defilterLive s = true →
      s.infl.live = true → bytes ≠ [] → bytes = (inflPending s).take bytes.length → Did i s (feed bytes s)
  | line (f : FilterType) : runsLine i = true → lineEnabled s = true → Did i s (commitLine f s)
  | finish (m : Memory) : i = .feFinish → finishEnabled s = true →
      s.h.colorType = 3 ∧ resolvePalette s.pal (s.fe.width * s.fe.height) 0 s.pix = some m ∨
        s.h.colorType ≠ 3 ∧ m = s.pix →
      Did i s (complete { s with pix := m })
  | pkSig : i = .pkSig → packing .sig s = true → Did i s (emit (.data signature) { s with pk := .ihdr })
  | pkIhdr : i = .pkIhdr → packing .ihdr s = true →
      Did i s (emitChunk tyIHDR (headerPayload s) { s with pk := .data })
  | encline (f : FilterType) : runsEncline i = true → enclineEnabled s = true → bestFilter s = some f →
      Did i s (commitRow f s)
  | block (b : List Byte) : i = .deflOut b.length ∨ i = .pkIdat b → packing .data s = true → s.defl.live = true →
      b ≠ [] → b = (deflPending s).take b.length → Did i s (emitBlock b s)
  | finishOutput : i = .deflDone ∨ i = .pkIend → deflDoneEnabled s = true → Did i s (emitEnd s)
  | value (v : Result) : returnsValue i = true → Did i s (reply v s)
  | chunk (ty : Word) (payload : List Byte) (v : Result) : i = .pkChunk ty payload → s.err = none → s.kind = .encode →
      Did i s (reply v (chunkCrc ty payload s))
  | teardown (e : ErrorKind) (info : List Word) : i = .teardown e info → s.err = none → s.kind ≠ .crc →
      Did i s (Machine.teardown e info s)

theorem bufferCommand_next {s t : State} {f : State → Out} (h : bufferCommand s f = .next t) :
    s.err.isSome = true ∧ t = s ∨ s.err = none ∧ hasBuffer s.kind = true ∧ f { s with started := true } = .next t := by
  rcases command_next h with ⟨hd, h⟩ | ⟨he, h⟩
  · exact .inl ⟨hd, h⟩
  · split at h
    · exact .inr ⟨he, by simpa using ‹hasBuffer _ = true›, h⟩
    · cases h

theorem decCommand_next {s t : State} {f : State → Out} (h : decCommand s f = .next t) :
    s.err.isSome = true ∧ t = s ∨ s.err = none ∧ s.kind = .decode ∧ f { s with started := true } = .next t := by
  rcases command_next h with ⟨hd, h⟩ | ⟨he, h⟩
  · exact .inl ⟨hd, h⟩
  · split at h
    · exact .inr ⟨he, by simpa using ‹_ = Kind.decode›, h⟩
    · cases h

theorem encCommand_next {s t : State} {f : State → Out} (h : encCommand s f = .next t) :
    s.err.isSome = true ∧ t = s ∨ s.err = none ∧ s.kind = .encode ∧ f { s with started := true } = .next t := by
  rcases command_next h with ⟨hd, h⟩ | ⟨he, h⟩
  · exact .inl ⟨hd, h⟩
  · split at h
    · exact .inr ⟨he, by simpa using ‹_ = Kind.encode›, h⟩
    · cases h

theorem crcCommand_next {s t : State} {f : State → Out} (h : crcCommand s f = .next t) :
    s.err.isSome = true ∧ t = s ∨ s.err = none ∧ s.kind = .crc ∧ f { s with started := true } = .next t := by
  rcases command_next h with ⟨hd, h⟩ | ⟨he, h⟩
  · exact .inl ⟨hd, h⟩
  · cases hk : s.kind <;> simp [hk] at h
    exact .inr ⟨he, rfl, h⟩

theorem did_push {i : Instr} {bytes : List Byte} {s t : State} (hi : i = .dbPush bytes ∨ i = .decPush bytes)
    (he : s.err = none) (hb : hasBuffer s.kind = true) (h : pushBlock bytes { s with started := true } = .next t) :
    Did i s t := by
  rcases pushBlock_next h with ⟨hp, rfl⟩ | ⟨hp, hn, rfl⟩
  · exact .pushLate bytes (by rcases hi with rfl | rfl <;> simp) he hb (by simpa using hp)
  · exact .push bytes hi he hb (by simpa using hp) hn

theorem did_close {i : Instr} {last : List Byte} {s t : State} (hi : i = .dbClose last ∨ i = .decClose last)
    (he : s.err = none) (hb : hasBuffer s.kind = true) (h : closeBuffer last { s with started := true } = .next t) :
    Did i s t := by
  rcases closeBuffer_next h with ⟨hp, ⟨rfl, rfl⟩ | ⟨_, rfl⟩⟩ | ⟨hp, ⟨rfl, rfl⟩ | ⟨hn, rfl⟩⟩
  · exact .closeLate hi he hb (by simpa using hp)
  · exact .pushLate last (by rcases hi with rfl | rfl <;> simp) he hb (by simpa using hp)
  · exact .close hi he hb (by simpa using hp)
  · exact .closeWith last hi he hb (by simpa using hp) hn

/-- A delivery row, waiting or enabled. -/
theorem did_delivery {i : Instr} {s t : State} (hd : delivery i = true) (h : exec i s = .next t) : Did i s t := by
  rcases delivery_next hd h with rfl | ⟨r, rest, k, h1, h2, h3, h4, h5, h6, h7, h8⟩
  · exact .wait (fun hc => by cases i <;> first | (cases hc; done) | (cases hd; done))
  · exact .delivery r rest k _ t hd rfl h1 h2 h3 h4 h5 h6 h7 h8

theorem did_line {i : Instr} {f : FilterType} {data : List Byte} {s t : State} (hi : runsLine i = true)
    (h : defiltStep f data s = .next t) : Did i s t := by
  rcases whenEnabled_next h with ⟨hb, ho⟩ | ⟨_, rfl⟩
  · simp only [Bool.and_eq_true] at hb
    cases ho
    exact .line f hi hb.1
  · exact .wait (fun hc => by cases i <;> first | (cases hc; done) | (cases hi; done))

theorem encodeRow_next {f : FilterType} {s t : State} (h : encodeRow f s = .next t) : t = commitRow f s := by
  unfold encodeRow at h
  split at h
  · cases h
  · exact (Host.Outcome.next.inj h).symm

theorem did_row {i : Instr} {f : FilterType} {y : Nat} {s t : State} (hi : runsEncline i = true)
    (h : filtStep f y s = .next t) : Did i s t := by
  rcases whenEnabled_next h with ⟨hb, ho⟩ | ⟨_, rfl⟩
  · simp only [Bool.and_eq_true, beq_iff_eq] at hb
    rw [encodeRow_next ho]
    exact .encline f hi hb.1.1 hb.2
  · exact .wait (fun hc => by cases i <;> first | (cases hc; done) | (cases hi; done))

theorem length_take_of_le {α : Type} {l : List α} {k : Nat} (h : k ≤ l.length) : (l.take k).length = k := by
  simp [h]

/-- `exec` answers a next state only as one of the cases of `Did`. -/
theorem exec_did {i : Instr} {s t : State} (h : exec i s = .next t) : Did i s t := by
  by_cases hd : delivery i = true
  · exact did_delivery hd h
  cases i with
  | chunkIhdr | chunkPlte | chunkTrns | chunkGama | chunkIdat | chunkIend | chunkAncillaryUnknown
  | chunkCriticalUnknown | kSig | kHdr | kIhdr | kPlte | kTrns | kGama | kIdat | kIend | kSkip | kCrc
  | kUser0 | kUser1 | kUser2 | kUser3 | kUser4 | kUser5 | dbServe => exact absurd rfl hd
  | defiltNone | defiltSub | defiltUp | defiltAvg | defiltPaeth => exact did_line rfl h
  | filtNone | filtSub | filtUp | filtAvg | filtPaeth => exact did_row rfl h
  | dbPush bytes =>
    rcases bufferCommand_next h with ⟨hd, rfl⟩ | ⟨he, hb, h⟩
    · exact .wait fun _ => hd
    · exact did_push (.inl rfl) he hb h
  | decPush bytes =>
    rcases decCommand_next h with ⟨hd, rfl⟩ | ⟨he, hk, h⟩
    · exact .wait fun _ => hd
    · exact did_push (.inr rfl) he (by rw [hk]; rfl) h
  | dbClose last =>
    rcases bufferCommand_next h with ⟨hd, rfl⟩ | ⟨he, hb, h⟩
    · exact .wait fun _ => hd
    · exact did_close (.inl rfl) he hb h
  | decClose last =>
    rcases decCommand_next h with ⟨hd, rfl⟩ | ⟨he, hk, h⟩
    · exact .wait fun _ => hd
    · exact did_close (.inr rfl) he (by rw [hk]; rfl) h
  | dbRequest n al tag =>
    simp only [exec_dbRequest, execDbRequest] at h
    rcases bufferCommand_next h with ⟨hd, rfl⟩ | ⟨he, hb, h⟩
    · exact .wait fun _ => hd
    · split at h
      · cases h
      · next hn =>
        have hk : s.kind = .buffer := by
          cases hk : s.kind <;> simp_all [hasBuffer]
        rcases request_next h with ⟨hp, rfl⟩ | ⟨hp, h0, rfl⟩
        · exact .requestLate n al tag rfl he hk hp
        · exact .request n al tag rfl he hk (by simpa using fun hx => hn (.inr hx)) hp h0
  | dbDispose =>
    simp only [exec_dbDispose, execDbDispose] at h
    rcases bufferCommand_next h with ⟨hd, rfl⟩ | ⟨he, hb, h⟩
    · exact .wait fun _ => hd
    · cases h; exact .dispose rfl he hb
  | crcInit =>
    simp only [exec_crcInit, execCrcInit] at h
    rcases crcCommand_next h with ⟨hd, rfl⟩ | ⟨he, hk, h⟩
    · exact .wait fun _ => hd
    · cases h; exact .crcInit rfl he hk
  | crcUpdate bytes =>
    simp only [exec_crcUpdate, execCrcUpdate] at h
    rcases crcCommand_next h with ⟨hd, rfl⟩ | ⟨he, hk, h⟩
    · exact .wait fun _ => hd
    · cases h; exact .crcUpdate bytes rfl he hk
  | crcFinal =>
    simp only [exec_crcFinal, execCrcFinal] at h
    rcases crcCommand_next h with ⟨hd, rfl⟩ | ⟨he, hk, h⟩
    · exact .wait fun _ => hd
    · cases h; exact .crcFinal rfl he hk
  | decDispose =>
    simp only [exec_decDispose, execDecDispose] at h
    rcases decCommand_next h with ⟨hd, rfl⟩ | ⟨he, hk, h⟩
    · exact .wait fun _ => hd
    · cases h; exact .decDispose rfl he hk
  | encDispose =>
    simp only [exec_encDispose, execEncDispose] at h
    rcases encCommand_next h with ⟨hd, rfl⟩ | ⟨he, hk, h⟩
    · exact .wait fun _ => hd
    · cases h; exact .encDispose rfl he hk
  | encStart w hh pixels =>
    simp only [exec_encStart, execEncStart] at h
    rcases encCommand_next h with ⟨hd, rfl⟩ | ⟨he, hk, h⟩
    · exact .wait fun _ => hd
    · split at h
      · cases h
      · next hp =>
        split at h
        · cases h
        · next hz =>
          rw [not_or] at hz
          split at h
          · cases h
          · split at h
            · cases h
            · next hl =>
              split at h
              · cases h
              · cases h; exact .encStart w hh pixels rfl he hk (by simpa using hp) hz.1 hz.2 (by simpa using hl)
  | pStart =>
    rcases whenEnabled_next h with ⟨hb, h⟩ | ⟨_, rfl⟩
    · have hp : s.db.phase = .opened := by
        simp only [startPending, Bool.and_eq_true, beq_iff_eq] at hb; exact hb.1.1.2
      rw [(request_serving (by exact .inl hp) h).2]; exact .pStart rfl hb
    · exact .wait (by simp [isCommand])
  | dbDrainend =>
    rcases whenEnabled_next h with ⟨hb, h⟩ | ⟨_, rfl⟩
    · simp only [drainEnabled, Bool.and_eq_true, beq_iff_eq, Option.isNone_iff_eq_none] at hb
      obtain ⟨⟨⟨h1, h2⟩, h3⟩, _⟩ := hb
      split at h
      · next hr => cases h; exact .finalized (.inr rfl) h2 h1 (.inr h3) hr
      · next hr => cases h; exact .pending rfl h2 h1 h3 hr
    · exact .wait (by simp [isCommand])
  | finalize =>
    rcases whenEnabled_next h with ⟨hb, h⟩ | ⟨_, rfl⟩
    · simp only [Bool.and_eq_true, beq_iff_eq, serving_iff] at hb
      obtain ⟨⟨h1, h2, h3⟩, h4⟩ := hb
      cases h; exact .finalized (.inl rfl) h2 h1 h3 h4
    · exact .wait (by simp [isCommand])
  | inflOut k =>
    rcases whenEnabled_next h with ⟨hb, h⟩ | ⟨_, rfl⟩
    · simp only [inflOutEnabled, Bool.and_eq_true, decide_eq_true_eq] at hb
      obtain ⟨⟨h1, h2⟩, h3, h4⟩ := hb
      have hl := length_take_of_le h4
      cases h
      exact .fed _ (.inl (by rw [hl])) h1 h2 (by intro h0; rw [h0] at hl; simp at hl; omega) (by rw [hl])
    · exact .wait (by simp [isCommand])
  | feFeed bytes =>
    rcases whenEnabled_next h with ⟨hb, h⟩ | ⟨_, rfl⟩
    · simp only [inflOutEnabled, Bool.and_eq_true, decide_eq_true_eq, beq_iff_eq] at hb
      obtain ⟨⟨⟨h1, h2⟩, h3, h4⟩, h5⟩ := hb
      cases h
      exact .fed _ (.inr rfl) h1 h2 (by rintro rfl; simp at h3) h5.symm
    · exact .wait (by simp [isCommand])
  | feLine =>
    rcases whenEnabled_next h with ⟨hb, h⟩ | ⟨_, rfl⟩
    · split at h
      · cases h; exact .line _ rfl hb
      · cases h
    · exact .wait (by simp [isCommand])
  | feFinish =>
    rcases whenEnabled_next h with ⟨hb, h⟩ | ⟨_, rfl⟩
    · split at h
      · next hc =>
        split at h
        · next m hm => cases h; exact .finish m rfl hb (.inl ⟨hc, hm⟩)
        · cases h
      · next hc => cases h; exact .finish s.pix rfl hb (.inr ⟨hc, rfl⟩)
    · exact .wait (by simp [isCommand])
  | pkSig =>
    rcases whenEnabled_next h with ⟨hb, h⟩ | ⟨_, rfl⟩
    · cases h; exact .pkSig rfl hb
    · exact .wait (by simp [isCommand])
  | pkIhdr =>
    rcases whenEnabled_next h with ⟨hb, h⟩ | ⟨_, rfl⟩
    · cases h; exact .pkIhdr rfl hb
    · exact .wait (by simp [isCommand])
  | feEncline =>
    rcases whenEnabled_next h with ⟨hb, h⟩ | ⟨_, rfl⟩
    · split at h
      · cases h
      · next f hf => rw [encodeRow_next h]; exact .encline f rfl hb hf
    · exact .wait (by simp [isCommand])
  | deflOut k =>
    rcases whenEnabled_next h with ⟨hb, h⟩ | ⟨_, rfl⟩
    · simp only [deflOutEnabled, Bool.and_eq_true, decide_eq_true_eq] at hb
      obtain ⟨⟨h1, h2⟩, h3, h4, h5⟩ := hb
      have hl := length_take_of_le h4
      cases h
      exact .block _ (.inl (by rw [hl])) h1 h2 (by intro h0; rw [h0] at hl; simp at hl; omega) (by rw [hl])
    · exact .wait (by simp [isCommand])
  | pkIdat block =>
    rcases whenEnabled_next h with ⟨hb, h⟩ | ⟨_, rfl⟩
    · simp only [deflOutEnabled, Bool.and_eq_true, decide_eq_true_eq, beq_iff_eq] at hb
      obtain ⟨⟨⟨h1, h2⟩, h3, h4, h5⟩, h6⟩ := hb
      cases h
      exact .block _ (.inr rfl) h1 h2 (by rintro rfl; simp at h3) h6.symm
    · exact .wait (by simp [isCommand])
  | deflDone =>
    rcases whenEnabled_next h with ⟨hb, h⟩ | ⟨_, rfl⟩
    · cases h; exact .finishOutput (.inl rfl) hb
    · exact .wait (by simp [isCommand])
  | pkIend =>
    rcases whenEnabled_next h with ⟨hb, h⟩ | ⟨_, rfl⟩
    · cases h; exact .finishOutput (.inr rfl) hb
    · exact .wait (by simp [isCommand])
  | crc32 | tbl | paeth | pred => cases h; exact .value _ rfl
  | pkChunk ty payload =>
    simp only [exec_pkChunk, execPkChunk] at h
    split at h
    · cases h; exact .wait (by simp [isCommand])
    · next he =>
      split at h
      · cases h
      · next hk =>
        split at h
        · cases h
        · cases h; exact .chunk ty payload _ rfl (by simpa using he) (by simpa using hk)
  | teardown e info =>
    simp only [exec_teardown, execTeardown] at h
    split at h
    · cases h; exact .wait (by simp [isCommand])
    · next he =>
      split at h
      · cases h
      · next hk => cases h; exact .teardown e info rfl (by simpa using he) hk

end Sys2Proof.Laws
end

