-- ==== Sys2Proof/Laws/Memory.lean ====
section
/-! SUPPORT. The laws of the byte memories: a read after a write, and the canonical form kept by every memory operation. -/

namespace Sys2Proof.Laws

open Sys2Proof.Machine

@[simp] theorem read_nil (a : Nat) : Memory.read [] a = none := rfl

@[simp] theorem read_cons (b : Nat) (v : Byte) (m : Memory) (a : Nat) :
    Memory.read ((b, v) :: m) a = if b = a then some v else Memory.read m a := rfl

/-- A read after a write: the byte written at its address, what was there elsewhere. -/
theorem read_write (m : Memory) (a b : Nat) (v : Byte) :
    (m.write a v).read b = if b = a then some v else m.read b := by
  induction m with
  | nil => simp [Memory.write, eq_comm]
  | cons c m ih =>
    obtain ⟨c, w⟩ := c
    simp only [Memory.write]
    split
    · simp only [read_cons, eq_comm]
    · split
      · subst_vars; simp only [read_cons, eq_comm]; split <;> rfl
      · simp only [read_cons, ih]; split <;> split <;> first | rfl | omega

@[simp] theorem read_write_same (m : Memory) (a : Nat) (v : Byte) : (m.write a v).read a = some v := by
  simp [read_write]

theorem read_write_other (m : Memory) {a b : Nat} (v : Byte) (h : b ≠ a) : (m.write a v).read b = m.read b := by
  simp [read_write, h]

/-- Reading after writing a run of bytes. -/
theorem read_writeBytes (m : Memory) (a b : Nat) (vs : List Byte) :
    (m.writeBytes a vs).read b = if a ≤ b ∧ b < a + vs.length then vs[b - a]? else m.read b := by
  induction vs generalizing m a with
  | nil => rw [if_neg (by simp)]; rfl
  | cons v vs ih =>
    rw [Memory.writeBytes, ih]
    simp only [List.length_cons]
    by_cases h1 : b = a
    · subst h1; simp
    · by_cases h2 : a + 1 ≤ b ∧ b < a + 1 + vs.length
      · have : b - a = (b - (a + 1)) + 1 := by omega
        rw [if_pos h2, if_pos (by omega), this]; simp
      · rw [if_neg h2, if_neg (by omega), read_write, if_neg h1]

/-- The addresses of the entries are all above `a`. -/
def above (a : Nat) (m : Memory) : Prop := ∀ e ∈ m, a < e.1

theorem wf_cons (a : Nat) (v : Byte) (m : Memory) :
    Memory.wf ((a, v) :: m) = true ↔ above a m ∧ Memory.wf m = true := by
  induction m generalizing a v with
  | nil => simp [Memory.wf, above]
  | cons c m ih =>
    obtain ⟨c, w⟩ := c
    rw [Memory.wf, Bool.and_eq_true, decide_eq_true_iff, ih]
    simp only [above, List.mem_cons, forall_eq_or_imp]
    constructor
    · rintro ⟨h, h1, h2⟩
      exact ⟨⟨h, fun e he => lt_trans h (h1 e he)⟩, h1, h2⟩
    · rintro ⟨⟨h, _⟩, h1, h2⟩
      exact ⟨h, h1, h2⟩

theorem above_write {a b : Nat} {m : Memory} (v : Byte) (hm : above a m) (hb : a < b) : above a (m.write b v) := by
  induction m with
  | nil => simpa [Memory.write, above] using hb
  | cons c m ih =>
    obtain ⟨c, w⟩ := c
    simp only [above, List.mem_cons, forall_eq_or_imp] at hm
    simp only [Memory.write]
    split
    · simp only [above, List.mem_cons, forall_eq_or_imp]; exact ⟨hb, hm.1, hm.2⟩
    · split
      · simp only [above, List.mem_cons, forall_eq_or_imp]; exact ⟨hb, hm.2⟩
      · have := ih hm.2
        simp only [above, List.mem_cons, forall_eq_or_imp]; exact ⟨hm.1, this⟩

/-- A write keeps the canonical form. -/
theorem wf_write {m : Memory} (a : Nat) (v : Byte) (hm : Memory.wf m = true) : Memory.wf (m.write a v) = true := by
  induction m with
  | nil => rfl
  | cons c m ih =>
    obtain ⟨c, w⟩ := c
    have h := (wf_cons c w m).1 hm
    simp only [Memory.write]
    split
    · rename_i hlt
      rw [wf_cons, and_iff_left hm]
      simp only [above, List.mem_cons, forall_eq_or_imp]
      exact ⟨hlt, fun e he => lt_trans hlt (h.1 e he)⟩
    · split
      · subst_vars; rw [wf_cons]; exact h
      · rw [wf_cons]; exact ⟨above_write v h.1 (by omega), ih h.2⟩

theorem wf_writeBytes {m : Memory} (a : Nat) (vs : List Byte) (hm : Memory.wf m = true) :
    Memory.wf (m.writeBytes a vs) = true := by
  induction vs generalizing m a with
  | nil => exact hm
  | cons v vs ih => exact ih _ (wf_write a v hm)

theorem wf_patchAlpha {m : Memory} (i : Nat) (bs : List Byte) (hm : Memory.wf m = true) :
    Memory.wf (patchAlpha m i bs) = true := by
  induction bs generalizing m i with
  | nil => exact hm
  | cons b bs ih => exact ih _ (wf_write _ b hm)

/-- Reading after the alpha bytes of entries `i`, `i+1`, ... have been replaced. -/
theorem read_patchAlpha (m : Memory) (i : Nat) (bs : List Byte) (a : Nat) :
    (patchAlpha m i bs).read a =
      if a % 4 = 3 ∧ i ≤ a / 4 ∧ a / 4 < i + bs.length then bs[a / 4 - i]? else m.read a := by
  induction bs generalizing m i with
  | nil => rw [if_neg (by simp)]; rfl
  | cons b bs ih =>
    rw [patchAlpha, ih, read_write]
    simp only [List.length_cons]
    by_cases h : a % 4 = 3
    · by_cases h1 : a / 4 = i
      · have : a = 4 * i + 3 := by omega
        rw [if_neg (by omega), if_pos this, if_pos (by omega)]; simp [h1]
      · by_cases h2 : i + 1 ≤ a / 4 ∧ a / 4 < i + 1 + bs.length
        · have : a / 4 - i = (a / 4 - (i + 1)) + 1 := by omega
          rw [if_pos ⟨h, h2⟩, if_pos (by omega), this]; simp
        · rw [if_neg (by tauto), if_neg (by omega), if_neg (by omega)]
    · rw [if_neg (by tauto), if_neg (by omega), if_neg (by tauto)]

theorem wf_defiltPixel {m : Memory} (f : FilterType) (w bpp y : Nat) (data : List Byte) (x : Nat)
    (hm : Memory.wf m = true) : Memory.wf (defiltPixel f w bpp y data m x) = true := by
  simp only [defiltPixel, List.foldl]
  exact wf_write _ _ (wf_write _ _ (wf_write _ _ (wf_write _ _ hm)))

theorem wf_foldl_defiltPixel (f : FilterType) (w bpp y : Nat) (data : List Byte) (xs : List Nat) {m : Memory}
    (hm : Memory.wf m = true) : Memory.wf (xs.foldl (defiltPixel f w bpp y data) m) = true := by
  induction xs generalizing m with
  | nil => exact hm
  | cons x xs ih => exact ih (wf_defiltPixel f w bpp y data x hm)

/-- Defiltering a scanline keeps the canonical form. -/
theorem wf_defilt {m : Memory} (f : FilterType) (w bpp y : Nat) (data : List Byte) (hm : Memory.wf m = true) :
    Memory.wf (defilt f w bpp y data m) = true := wf_foldl_defiltPixel f w bpp y data _ hm

/-- The palette pass keeps the canonical form. -/
theorem wf_resolvePalette {pal : Palette} {n q : Nat} {m m' : Memory} (hm : Memory.wf m = true)
    (h : resolvePalette pal n q m = some m') : Memory.wf m' = true := by
  induction n generalizing q m with
  | zero => simp only [resolvePalette, Option.some.injEq] at h; exact h ▸ hm
  | succ n ih =>
    rw [resolvePalette] at h
    split at h
    · exact ih (wf_writeBytes _ _ hm) h
    · exact absurd h (by simp)

/-- The byte of a pixel's channel depends on memory below the pixel only. -/
theorem defiltByte_congr (f : FilterType) {w y x : Nat} (bpp : Nat) (data : List Byte) (c : Nat) {m n : Memory}
    (hx : x < w) (h : ∀ z < pixAddr w y x 0, n.read z = m.read z) (hc : c < 4) :
    defiltByte f w bpp y data n x c = defiltByte f w bpp y data m x c := by
  have hr (z : Nat) (hz : z < pixAddr w y x 0) : pixRead n z = pixRead m z := by rw [pixRead, h z hz, pixRead]
  have hl : leftOf w n y x c = leftOf w m y x c := by
    unfold leftOf; split
    · rw [hr]; simp only [pixAddr]; omega
    · rfl
  have hy (hp : 0 < y) (x' : Nat) (hx' : x' ≤ x) : pixAddr w (y - 1) x' c < pixAddr w y x 0 := by
    obtain ⟨k, rfl⟩ : ∃ k, y = k + 1 := ⟨y - 1, by omega⟩
    have : (k + 1) * w = k * w + w := Nat.succ_mul k w
    simp only [pixAddr, Nat.add_sub_cancel]; omega
  have hu : upOf w n y x c = upOf w m y x c := by
    unfold upOf; split
    · rw [hr _ (hy ‹_› x le_rfl)]
    · rfl
  have hul : upLeftOf w n y x c = upLeftOf w m y x c := by
    unfold upLeftOf; split
    · next hp => rw [hr _ (hy hp.2 (x - 1) (by omega))]
    · rfl
  simp only [defiltByte, hl, hu, hul]

/-- One pixel of a defiltered row: what each address holds afterwards. -/
theorem read_defiltPixel (f : FilterType) {w y x : Nat} (bpp : Nat) (data : List Byte) (m : Memory) (hx : x < w)
    (a : Nat) : (defiltPixel f w bpp y data m x).read a =
      if pixAddr w y x 0 ≤ a ∧ a < pixAddr w y x 0 + 4
      then some (defiltByte f w bpp y data m x (a - pixAddr w y x 0)) else m.read a := by
  have hb (c : Nat) : pixAddr w y x c = pixAddr w y x 0 + c := rfl
  have low {n : Memory} (h : ∀ z < pixAddr w y x 0, n.read z = m.read z) (c : Nat) (v : Byte) :
      ∀ z < pixAddr w y x 0, (n.write (pixAddr w y x c) v).read z = m.read z := by
    intro z hz; rw [read_write_other _ _ (by rw [hb]; omega), h z hz]
  have h0 : ∀ z < pixAddr w y x 0, m.read z = m.read z := fun _ _ => rfl
  simp only [defiltPixel, List.foldl]
  have h1 := low h0 0 (defiltByte f w bpp y data m x 0)
  rw [defiltByte_congr f bpp data 1 hx h1 (by omega)]
  have h2 := low h1 1 (defiltByte f w bpp y data m x 1)
  rw [defiltByte_congr f bpp data 2 hx h2 (by omega)]
  have h3 := low h2 2 (defiltByte f w bpp y data m x 2)
  rw [defiltByte_congr f bpp data 3 hx h3 (by omega)]
  simp only [read_write, hb 1, hb 2, hb 3]
  by_cases hin : pixAddr w y x 0 ≤ a ∧ a < pixAddr w y x 0 + 4
  · obtain ⟨k, hk, rfl⟩ : ∃ k, k < 4 ∧ a = pixAddr w y x 0 + k := ⟨a - pixAddr w y x 0, by omega, by omega⟩
    rw [if_pos hin]
    have : k = 0 ∨ k = 1 ∨ k = 2 ∨ k = 3 := by omega
    rcases this with rfl | rfl | rfl | rfl <;> simp
  · rw [if_neg hin, if_neg (by omega), if_neg (by omega), if_neg (by omega), if_neg (by omega)]

end Sys2Proof.Laws
end

