-- ==== Sys2Proof/Laws/PerInstr.lean ====
section
/-! SUPPORT. The family Selector: the first byte of an operation's encoding is the selector of its format (log 3), one lemma
per operation. -/

namespace Sys2Proof.Laws.Selector

/-- The decoder that reads an operation: its format in spec/opcode_table.json, the two directions of the filter-type byte
and the four ports told apart (30_encoding.md R118). -/
def selectorOf : Instr → Byte
  | .chunkIhdr _ | .chunkPlte _ | .chunkTrns _ | .chunkGama _ | .chunkIdat _ | .chunkIend _
  | .chunkAncillaryUnknown _ _ | .chunkCriticalUnknown _ _ => 0
  | .defiltNone _ | .defiltSub _ | .defiltUp _ | .defiltAvg _ | .defiltPaeth _ => 1
  | .filtNone _ | .filtSub _ | .filtUp _ | .filtAvg _ | .filtPaeth _ => 2
  | .kSig _ | .kHdr _ | .kIhdr _ | .kPlte _ | .kTrns _ | .kGama _ | .kIdat _ | .kIend _ | .kSkip _ | .kCrc _
  | .kUser0 _ | .kUser1 _ | .kUser2 _ | .kUser3 _ | .kUser4 _ | .kUser5 _ => 3
  | .dbPush _ | .dbRequest _ _ _ | .dbClose _ | .dbDispose => 4
  | .crcInit | .crcUpdate _ | .crcFinal => 5
  | .decPush _ | .decClose _ | .decDispose => 6
  | .encStart _ _ _ | .encDispose => 7
  | .pStart | .dbServe | .dbDrainend | .inflOut _ | .feFeed _ | .feLine | .feFinish | .pkSig | .pkIhdr
  | .feEncline | .deflOut _ | .pkIdat _ | .deflDone | .pkIend => 8
  | .crc32 _ | .tbl _ | .paeth _ _ _ | .pred _ _ _ _ | .pkChunk _ _ | .finalize | .teardown _ _ => 9

/-- The first byte of the encoding is the selector of the operation's format. -/
def Statement (i : Instr) : Prop := ∃ operands, encode i = selectorOf i :: operands

theorem chunkIhdr (length : Word) : Statement (.chunkIhdr length) := ⟨_, rfl⟩

theorem chunkPlte (length : Word) : Statement (.chunkPlte length) := ⟨_, rfl⟩

theorem chunkTrns (length : Word) : Statement (.chunkTrns length) := ⟨_, rfl⟩

theorem chunkGama (length : Word) : Statement (.chunkGama length) := ⟨_, rfl⟩

theorem chunkIdat (length : Word) : Statement (.chunkIdat length) := ⟨_, rfl⟩

theorem chunkIend (length : Word) : Statement (.chunkIend length) := ⟨_, rfl⟩

theorem chunkAncillaryUnknown (ty length : Word) : Statement (.chunkAncillaryUnknown ty length) := ⟨_, rfl⟩

theorem chunkCriticalUnknown (ty length : Word) : Statement (.chunkCriticalUnknown ty length) := ⟨_, rfl⟩

theorem defiltNone (data : List Byte) : Statement (.defiltNone data) := ⟨_, rfl⟩

theorem defiltSub (data : List Byte) : Statement (.defiltSub data) := ⟨_, rfl⟩

theorem defiltUp (data : List Byte) : Statement (.defiltUp data) := ⟨_, rfl⟩

theorem defiltAvg (data : List Byte) : Statement (.defiltAvg data) := ⟨_, rfl⟩

theorem defiltPaeth (data : List Byte) : Statement (.defiltPaeth data) := ⟨_, rfl⟩

theorem filtNone (y : Nat) : Statement (.filtNone y) := ⟨_, rfl⟩

theorem filtSub (y : Nat) : Statement (.filtSub y) := ⟨_, rfl⟩

theorem filtUp (y : Nat) : Statement (.filtUp y) := ⟨_, rfl⟩

theorem filtAvg (y : Nat) : Statement (.filtAvg y) := ⟨_, rfl⟩

theorem filtPaeth (y : Nat) : Statement (.filtPaeth y) := ⟨_, rfl⟩

theorem kSig (data : List Byte) : Statement (.kSig data) := ⟨_, rfl⟩

theorem kHdr (data : List Byte) : Statement (.kHdr data) := ⟨_, rfl⟩

theorem kIhdr (data : List Byte) : Statement (.kIhdr data) := ⟨_, rfl⟩

theorem kPlte (data : List Byte) : Statement (.kPlte data) := ⟨_, rfl⟩

theorem kTrns (data : List Byte) : Statement (.kTrns data) := ⟨_, rfl⟩

theorem kGama (data : List Byte) : Statement (.kGama data) := ⟨_, rfl⟩

theorem kIdat (data : List Byte) : Statement (.kIdat data) := ⟨_, rfl⟩

theorem kIend (data : List Byte) : Statement (.kIend data) := ⟨_, rfl⟩

theorem kSkip (data : List Byte) : Statement (.kSkip data) := ⟨_, rfl⟩

theorem kCrc (data : List Byte) : Statement (.kCrc data) := ⟨_, rfl⟩

theorem kUser0 (data : List Byte) : Statement (.kUser0 data) := ⟨_, rfl⟩

theorem kUser1 (data : List Byte) : Statement (.kUser1 data) := ⟨_, rfl⟩

theorem kUser2 (data : List Byte) : Statement (.kUser2 data) := ⟨_, rfl⟩

theorem kUser3 (data : List Byte) : Statement (.kUser3 data) := ⟨_, rfl⟩

theorem kUser4 (data : List Byte) : Statement (.kUser4 data) := ⟨_, rfl⟩

theorem kUser5 (data : List Byte) : Statement (.kUser5 data) := ⟨_, rfl⟩

theorem dbPush (bytes : List Byte) : Statement (.dbPush bytes) := ⟨_, rfl⟩

theorem dbRequest (length : Nat) (allowLess : Bool) (tag : Tag) :
    Statement (.dbRequest length allowLess tag) := ⟨_, rfl⟩

theorem dbClose (last : List Byte) : Statement (.dbClose last) := ⟨_, rfl⟩

theorem dbDispose : Statement .dbDispose := ⟨_, rfl⟩

theorem crcInit : Statement .crcInit := ⟨_, rfl⟩

theorem crcUpdate (bytes : List Byte) : Statement (.crcUpdate bytes) := ⟨_, rfl⟩

theorem crcFinal : Statement .crcFinal := ⟨_, rfl⟩

theorem decPush (bytes : List Byte) : Statement (.decPush bytes) := ⟨_, rfl⟩

theorem decClose (last : List Byte) : Statement (.decClose last) := ⟨_, rfl⟩

theorem decDispose : Statement .decDispose := ⟨_, rfl⟩

theorem encStart (width height : Word) (pixels : List Byte) : Statement (.encStart width height pixels) := ⟨_, rfl⟩

theorem encDispose : Statement .encDispose := ⟨_, rfl⟩

theorem pStart : Statement .pStart := ⟨_, rfl⟩

theorem dbServe : Statement .dbServe := ⟨_, rfl⟩

theorem dbDrainend : Statement .dbDrainend := ⟨_, rfl⟩

theorem inflOut (k : Nat) : Statement (.inflOut k) := ⟨_, rfl⟩

theorem feFeed (bytes : List Byte) : Statement (.feFeed bytes) := ⟨_, rfl⟩

theorem feLine : Statement .feLine := ⟨_, rfl⟩

theorem feFinish : Statement .feFinish := ⟨_, rfl⟩

theorem pkSig : Statement .pkSig := ⟨_, rfl⟩

theorem pkIhdr : Statement .pkIhdr := ⟨_, rfl⟩

theorem feEncline : Statement .feEncline := ⟨_, rfl⟩

theorem deflOut (k : Nat) : Statement (.deflOut k) := ⟨_, rfl⟩

theorem pkIdat (block : List Byte) : Statement (.pkIdat block) := ⟨_, rfl⟩

theorem deflDone : Statement .deflDone := ⟨_, rfl⟩

theorem pkIend : Statement .pkIend := ⟨_, rfl⟩

theorem crc32 (bytes : List Byte) : Statement (.crc32 bytes) := ⟨_, rfl⟩

theorem tbl (n : Byte) : Statement (.tbl n) := ⟨_, rfl⟩

theorem paeth (left above upLeft : Byte) : Statement (.paeth left above upLeft) := ⟨_, rfl⟩

theorem pred (f : FilterType) (left up upLeft : Byte) : Statement (.pred f left up upLeft) := ⟨_, rfl⟩

theorem pkChunk (ty : Word) (payload : List Byte) : Statement (.pkChunk ty payload) := ⟨_, rfl⟩

theorem finalize : Statement .finalize := ⟨_, rfl⟩

theorem teardown (kind : ErrorKind) (info : List Word) : Statement (.teardown kind info) := ⟨_, rfl⟩

end Sys2Proof.Laws.Selector
end

