-- ==== Sys2Proof/Laws/Pixels.lean ====
section
/-! SUPPORT. What the pixel memory holds after a scanline is defiltered and after the palette pass, said once. -/

namespace Sys2Proof.Laws

open Sys2Proof.Machine

theorem foldl_range_succ {α : Type} (g : α → Nat → α) (a : α) (n : Nat) :
    (List.range (n + 1)).foldl g a = g ((List.range n).foldl g a) n := by
  rw [List.range_succ, List.foldl_append]; rfl

/-- The first `k` pixels of a defiltered row. -/
theorem read_defilt_pixels (f : FilterType) {w y : Nat} (bpp : Nat) (data : List Byte) (m : Memory) {k : Nat} (hk : k ≤ w) :
    let m' := (List.range k).foldl (defiltPixel f w bpp y data) m
    (∀ x < k, ∀ c < 4, m'.read (pixAddr w y x c) = some (defiltByte f w bpp y data m' x c)) ∧
      ∀ a, a < pixAddr w y 0 0 ∨ pixAddr w y 0 0 + 4 * k ≤ a → m'.read a = m.read a := by
  induction k with
  | zero => exact ⟨fun _ h => absurd h (by omega), fun _ _ => rfl⟩
  | succ k ih =>
    obtain ⟨ih1, ih2⟩ := ih (by omega)
    simp only [foldl_range_succ]
    generalize (List.range k).foldl (defiltPixel f w bpp y data) m = n at ih1 ih2 ⊢
    have hr := read_defiltPixel f (w := w) (y := y) bpp data n (x := k) (by omega)
    have base : pixAddr w y k 0 = pixAddr w y 0 0 + 4 * k := by simp only [pixAddr]; omega
    have low : ∀ z < pixAddr w y k 0, (defiltPixel f w bpp y data n k).read z = n.read z := by
      intro z hz; rw [hr, if_neg (by omega)]
    refine ⟨fun x hx c hc => ?_, fun a ha => ?_⟩
    · rcases Nat.lt_succ_iff_lt_or_eq.1 hx with h | rfl
      · have hlt : pixAddr w y x c < pixAddr w y k 0 := by simp only [pixAddr]; omega
        rw [low _ hlt, ih1 x h c hc,
          defiltByte_congr f bpp data c (by omega) (fun z hz => low z ?_) hc]
        refine lt_of_lt_of_le hz ?_
        simp only [pixAddr]; omega
      · have hin : pixAddr w y x 0 ≤ pixAddr w y x c ∧ pixAddr w y x c < pixAddr w y x 0 + 4 := by
          simp only [pixAddr]; omega
        have hc' : pixAddr w y x c - pixAddr w y x 0 = c := by simp only [pixAddr]; omega
        rw [hr, if_pos hin, hc', defiltByte_congr f bpp data c (by omega) low hc]
    · rw [hr, if_neg (by omega), ih2 a (by omega)]

/-- A defiltered row: each byte of the row is the filtered byte plus its predictor, the neighbours being bytes of the result;
every byte outside the row is as before. -/
theorem read_defilt (f : FilterType) (w bpp y : Nat) (data : List Byte) (m : Memory) :
    (∀ x < w, ∀ c < 4, (defilt f w bpp y data m).read (pixAddr w y x c)
        = some (defiltByte f w bpp y data (defilt f w bpp y data m) x c)) ∧
      ∀ a, a < pixAddr w y 0 0 ∨ pixAddr w y 0 0 + 4 * w ≤ a → (defilt f w bpp y data m).read a = m.read a :=
  read_defilt_pixels f bpp data m le_rfl

theorem palEntry_length (m : Memory) (i : Nat) : (palEntry m i).length = 4 := rfl

theorem palEntry_get (m : Memory) (i c : Nat) (hc : c < 4) : (palEntry m i)[c]? = some (palRead m (4 * i + c)) := by
  have : c = 0 ∨ c = 1 ∨ c = 2 ∨ c = 3 := by omega
  rcases this with rfl | rfl | rfl | rfl <;> rfl

/-- The palette pass over the pixels `q`, ..., `q+n-1`: each index lies below the palette's size, each pixel becomes its
entry, and every other byte is as before. -/
theorem read_resolvePalette {pal : Palette} {n q : Nat} {m m' : Memory} (h : resolvePalette pal n q m = some m') :
    (∀ i, q ≤ i → i < q + n → (pixRead m (4 * i)).toNat < pal.size ∧
      ∀ c < 4, m'.read (4 * i + c) = some (palRead pal.mem (4 * (pixRead m (4 * i)).toNat + c))) ∧
    ∀ a, a < 4 * q ∨ 4 * (q + n) ≤ a → m'.read a = m.read a := by
  induction n generalizing q m with
  | zero =>
    simp only [resolvePalette, Option.some.injEq] at h
    exact ⟨fun i h1 h2 => absurd h2 (by omega), fun a _ => by rw [h]⟩
  | succ n ih =>
    rw [resolvePalette] at h
    split at h
    · next hlt =>
      obtain ⟨h1, h2⟩ := ih h
      have hw (a : Nat) (ha : a < 4 * q ∨ 4 * q + 4 ≤ a) :
          Memory.read (m.writeBytes (4 * q) (palEntry pal.mem (pixRead m (4 * q)).toNat)) a = m.read a := by
        rw [read_writeBytes, if_neg (by rw [palEntry_length]; omega)]
      refine ⟨fun i hi hn => ?_, fun a ha => ?_⟩
      · rcases Nat.eq_or_lt_of_le hi with rfl | hgt
        · refine ⟨hlt, fun c hc => ?_⟩
          rw [h2 _ (by omega), read_writeBytes, if_pos (by rw [palEntry_length]; omega), Nat.add_sub_cancel_left,
            palEntry_get _ _ _ hc]
        · have := h1 i (by omega) (by omega)
          have e : pixRead (m.writeBytes (4 * q) (palEntry pal.mem (pixRead m (4 * q)).toNat)) (4 * i)
              = pixRead m (4 * i) := by rw [pixRead, hw _ (by omega), pixRead]
          rw [e] at this; exact this
      · rw [h2 _ (by omega), hw _ (by omega)]
    · exact absurd h (by simp)

/-- The palette pass fails only where some index is not below the palette's size. -/
theorem resolvePalette_isSome {pal : Palette} {n q : Nat} {m : Memory}
    (h : ∀ i, q ≤ i → i < q + n → (pixRead m (4 * i)).toNat < pal.size) :
    (resolvePalette pal n q m).isSome = true := by
  induction n generalizing q m with
  | zero => rfl
  | succ n ih =>
    rw [resolvePalette, if_pos (h q le_rfl (by omega))]
    refine ih fun i hi hn => ?_
    rw [pixRead, read_writeBytes, if_neg (by rw [palEntry_length]; omega)]
    exact h i (by omega) (by omega)

end Sys2Proof.Laws
end

