-- ==== Sys2Proof/Laws/Step.lean ====
section
/-! SUPPORT. What a step can answer, said once: the next state of an operation, of a configuration write, of the construction
of a session, or the same state where nothing is offered and no agent can move. -/

namespace Sys2Proof.Laws

open Sys2Proof.Machine Sys2Proof.Safety

theorem configure_next {k : Kind} {c : Cfg} {s t : State} (h : configure k c s = .next t) :
    s.kind = k ∧ s.started = false ∧ t = { s with cfg := c } := by
  unfold configure at h
  split at h
  · cases h
  · next hk =>
    split at h
    · cases h
    · next hs => cases h; exact ⟨by simpa using hk, by simpa using hs, rfl⟩

/-- A construction that is not refused: the read queue has room for the parser's first request. -/
theorem constructSession_next {k : Kind} {par : Config.Params} {s t : State} (h : constructSession k par s = .next t) :
    exceeds par.maxReads (firstReads k).length = false ∧ t = { State.construct k par with agenda := s.agenda } := by
  unfold constructSession at h
  split at h
  · cases h
  · next hr => cases h; exact ⟨by simpa using hr, rfl⟩

/-- The states a step can lead to. -/
theorem step_next {s t : State} (h : step s = .next t) :
    (∃ i u, (u = s ∨ ∃ rest, u = { s with agenda := rest }) ∧ exec i u = .next t) ∨ t = s ∨
    (∃ c rest, s.started = false ∧ t = { s with cfg := c, agenda := rest }) ∨
    ∃ k par rest, exceeds par.maxReads (firstReads k).length = false ∧
      t = { State.construct k par with agenda := rest } := by
  unfold step fetch at h
  cases ha : s.agenda with
  | nil =>
    simp only [ha] at h
    cases hp : autoPick s with
    | some i => simp only [hp] at h; exact .inl ⟨i, s, .inl rfl, h⟩
    | none => simp only [hp] at h; cases h; exact .inr (.inl rfl)
  | cons e rest =>
    cases e with
    | op word =>
      simp only [ha] at h
      cases hd : decode word with
      | ok i => simp only [hd] at h; exact .inl ⟨i, _, .inr ⟨rest, rfl⟩, h⟩
      | error r => simp only [hd] at h; cases h
    | cfgCheckCRC on =>
      simp only [ha] at h
      obtain ⟨_, h2, rfl⟩ := configure_next h
      exact .inr (.inr (.inl ⟨_, rest, h2, rfl⟩))
    | cfgCandidates types =>
      simp only [ha] at h
      obtain ⟨_, h2, rfl⟩ := configure_next h
      exact .inr (.inr (.inl ⟨_, rest, h2, rfl⟩))
    | cfgTransform a b c =>
      simp only [ha] at h
      obtain ⟨_, h2, rfl⟩ := configure_next h
      exact .inr (.inr (.inl ⟨_, rest, h2, rfl⟩))
    | construct k par =>
      simp only [ha] at h
      exact .inr (.inr (.inr ⟨k, par, rest, constructSession_next h⟩))

end Sys2Proof.Laws
end

