-- ==== Sys2Proof/Laws/Session.lean ====
section
/-! SUPPORT. What closing an open buffer, stopping a session and taking an error leave of each field; what a delivery's
request leaves; and the one induction of every invariant a step keeps. -/

namespace Sys2Proof.Laws

open Sys2Proof.Machine Sys2Proof.Safety

@[simp] theorem closeOpen_log (s : State) :
    (closeOpen s).log = s.log ++ (if s.db.reads = [] then [.finished] else []) := by
  unfold closeOpen finalizeBuffer; split <;> simp [emit]

/-- What closing an open buffer leaves of it. -/
theorem closeOpen_db (s : State) : (closeOpen s).db =
    if s.db.reads = [] then { s.db with blocks := [], reads := [], phase := .finalized }
    else { s.db with phase := .closing } := by
  unfold closeOpen finalizeBuffer; split <;> simp [emit]

@[simp] theorem stop_p_hasIHDR (s : State) : (stop s).p.hasIHDR = s.p.hasIHDR := by
  unfold stop; split <;> rfl

@[simp] theorem stop_p_hasIEND (s : State) : (stop s).p.hasIEND = s.p.hasIEND := by
  unfold stop; split <;> rfl

@[simp] theorem stop_fe_row (s : State) : (stop s).fe.row = s.fe.row := by
  unfold stop; split <;> rfl

@[simp] theorem stop_fe_mode (s : State) : (stop s).fe.mode = s.fe.mode := by
  unfold stop; split <;> rfl

@[simp] theorem stop_fe_width (s : State) : (stop s).fe.width = s.fe.width := by
  unfold stop; split <;> rfl

@[simp] theorem stop_fe_height (s : State) : (stop s).fe.height = s.fe.height := by
  unfold stop; split <;> rfl

@[simp] theorem stop_fe_bpp (s : State) : (stop s).fe.bpp = s.fe.bpp := by
  unfold stop; split <;> rfl

@[simp] theorem stop_fe_inq (s : State) : (stop s).fe.inq = s.fe.inq := by
  unfold stop; split <;> rfl

@[simp] theorem stop_fe_done (s : State) : (stop s).fe.done = s.fe.done := by
  unfold stop; split <;> rfl

@[simp] theorem stop_db_paused (s : State) : (stop s).db.paused = s.db.paused := by
  unfold stop; split <;> rfl

@[simp] theorem stop_infl_input (s : State) : (stop s).infl.input = s.infl.input := by
  unfold stop; split <;> rfl

@[simp] theorem stop_infl_ended (s : State) : (stop s).infl.ended = s.infl.ended := by
  unfold stop; split <;> rfl

@[simp] theorem stop_infl_emitted (s : State) : (stop s).infl.emitted = s.infl.emitted := by
  unfold stop; split <;> rfl

@[simp] theorem stop_defl_input (s : State) : (stop s).defl.input = s.defl.input := by
  unfold stop; split <;> rfl

@[simp] theorem stop_defl_ended (s : State) : (stop s).defl.ended = s.defl.ended := by
  unfold stop; split <;> rfl

@[simp] theorem stop_defl_emitted (s : State) : (stop s).defl.emitted = s.defl.emitted := by
  unfold stop; split <;> rfl

/-- Where the engine is live after stopping, the session has none: stopping had nothing to end. -/
theorem stop_fe_live {s : State} (h : (stop s).fe.live = true) :
    s.fe.live = true ∧ s.kind ≠ .decode ∧ s.kind ≠ .encode := by
  unfold stop at h; split at h <;> simp_all

@[simp] theorem teardown_p_hasIHDR (e : ErrorKind) (info : List Word) (s : State) :
    (teardown e info s).p.hasIHDR = s.p.hasIHDR := by
  simp [teardown, emit]

@[simp] theorem teardown_p_hasIEND (e : ErrorKind) (info : List Word) (s : State) :
    (teardown e info s).p.hasIEND = s.p.hasIEND := by
  simp [teardown, emit]

@[simp] theorem teardown_fe_row (e : ErrorKind) (info : List Word) (s : State) :
    (teardown e info s).fe.row = s.fe.row := by
  simp [teardown, emit]

@[simp] theorem teardown_fe_mode (e : ErrorKind) (info : List Word) (s : State) :
    (teardown e info s).fe.mode = s.fe.mode := by
  simp [teardown, emit]

@[simp] theorem teardown_fe_width (e : ErrorKind) (info : List Word) (s : State) :
    (teardown e info s).fe.width = s.fe.width := by
  simp [teardown, emit]

@[simp] theorem teardown_fe_height (e : ErrorKind) (info : List Word) (s : State) :
    (teardown e info s).fe.height = s.fe.height := by
  simp [teardown, emit]

@[simp] theorem teardown_fe_bpp (e : ErrorKind) (info : List Word) (s : State) :
    (teardown e info s).fe.bpp = s.fe.bpp := by
  simp [teardown, emit]

@[simp] theorem teardown_fe_inq (e : ErrorKind) (info : List Word) (s : State) :
    (teardown e info s).fe.inq = s.fe.inq := by
  simp [teardown, emit]

@[simp] theorem teardown_fe_done (e : ErrorKind) (info : List Word) (s : State) :
    (teardown e info s).fe.done = s.fe.done := by
  simp [teardown, emit]

@[simp] theorem teardown_db_paused (e : ErrorKind) (info : List Word) (s : State) :
    (teardown e info s).db.paused = s.db.paused := by
  simp [teardown, emit]

@[simp] theorem teardown_infl_input (e : ErrorKind) (info : List Word) (s : State) :
    (teardown e info s).infl.input = s.infl.input := by
  simp [teardown, emit]

@[simp] theorem teardown_infl_ended (e : ErrorKind) (info : List Word) (s : State) :
    (teardown e info s).infl.ended = s.infl.ended := by
  simp [teardown, emit]

@[simp] theorem teardown_infl_emitted (e : ErrorKind) (info : List Word) (s : State) :
    (teardown e info s).infl.emitted = s.infl.emitted := by
  simp [teardown, emit]

@[simp] theorem teardown_defl_input (e : ErrorKind) (info : List Word) (s : State) :
    (teardown e info s).defl.input = s.defl.input := by
  simp [teardown, emit]

@[simp] theorem teardown_defl_ended (e : ErrorKind) (info : List Word) (s : State) :
    (teardown e info s).defl.ended = s.defl.ended := by
  simp [teardown, emit]

@[simp] theorem teardown_defl_emitted (e : ErrorKind) (info : List Word) (s : State) :
    (teardown e info s).defl.emitted = s.defl.emitted := by
  simp [teardown, emit]

theorem teardown_fe_live {e : ErrorKind} {info : List Word} {s : State} (h : (teardown e info s).fe.live = true) :
    s.fe.live = true ∧ s.kind ≠ .decode ∧ s.kind ≠ .encode := by
  simpa using stop_fe_live h

/-- A parser rule that runs in a state it can be delivered in queues its next read and resumes the buffer, whatever it has
written apart from the buffer, the parameters and the events `ev`. -/
theorem request_delivered {g : Tag} {data : List Byte} {s u : State} {n : Nat} {al : Bool} {tag : Tag} {ev : List Event}
    (hd : Delivers g data s) (hr : RoomForRead s) (hn : al = true → 0 < n)
    (h1 : u.db = (served data.length s).db) (h2 : u.par = s.par) (h3 : u.log = s.log ++ ev) :
    request n al tag u = .next { u with
      db := { blocks := (takefront s.db.blocks data.length).2
              reads := s.db.reads.tail ++ [{ length := n, allowLess := al, tag := tag }]
              paused := false
              phase := s.db.phase }
      log := s.log ++ ev ++ drainIf s } := by
  have h4 : u.db.reads = s.db.reads.tail := by rw [h1]; rfl
  have hph : u.db.phase = .opened ∨ u.db.phase = .closing := by
    have := (delivers_serving hd.2).2.2
    rw [h1]; exact this
  have hroom : exceeds u.par.maxReads (u.db.reads.length + 1) = false := by
    obtain ⟨_, r, rest, hq, _⟩ := (delivers_iff _ _ _).1 hd.2
    rw [h2, h4, hq]
    unfold RoomForRead at hr
    rw [hq] at hr
    simpa using hr
  rw [request_open hph hn hroom]
  have h5 : drainIf u = drainIf s := by unfold drainIf; rw [h1]; rfl
  rw [h5, h3, h4]
  simp [h1]

/-- An invariant that no operation breaks, that does not look at the agenda, that a configuration write before the first
command keeps and that holds of every constructed session with room for its first read is kept by every step. -/
theorem step_keeps {Inv : State → Prop} (agenda : ∀ s rest, Inv s → Inv { s with agenda := rest })
    (config : ∀ s c rest, s.started = false → Inv s → Inv { s with cfg := c, agenda := rest })
    (construct : ∀ k par rest, exceeds par.maxReads (firstReads k).length = false →
      Inv { State.construct k par with agenda := rest })
    (operation : ∀ i s t, Inv s → exec i s = .next t → Inv t) {s t : State} (hs : Inv s) (h : step s = .next t) : Inv t := by
  rcases step_next h with ⟨i, u, hu, hx⟩ | rfl | ⟨c, rest, h1, rfl⟩ | ⟨k, par, rest, hr, rfl⟩
  · rcases hu with rfl | ⟨rest, rfl⟩
    · exact operation _ _ _ hs hx
    · exact operation _ _ _ (agenda _ _ hs) hx
  · exact hs
  · exact config _ _ _ h1 hs
  · exact construct _ _ _ hr

end Sys2Proof.Laws
end

