-- ==== Sys2Proof/Tests/Slice0.lean ====
section
/-! SUPPORT. Tests: the well-formedness checks, one word for each row of spec/opcode_table.json, single steps whose expected
values are those of spec/95_test_vectors.md, and a witness for the hypotheses of each statement. -/

namespace Sys2Proof.Tests

open Sys2Proof Sys2Proof.Machine Sys2Proof.Safety

/-! ### Well-formedness -/

/-- An unknown ancillary row carries no known type: gAMA has its own row (30 R98). -/
theorem test_wf_ancillary_known : Instr.wf (.chunkAncillaryUnknown 0x67414D41 4) = false := by decide
/-- Nor one whose bit 29 is clear (V30.2: `41 62 63 64`). -/
theorem test_wf_ancillary_clear : Instr.wf (.chunkAncillaryUnknown 0x41626364 2) = false := by decide
/-- An unknown critical row carries no known type: IDAT has its own row. -/
theorem test_wf_critical_known : Instr.wf (.chunkCriticalUnknown 0x49444154 4) = false := by decide
/-- Nor one whose bit 29 is set (V30.2: `61 42 43 44`). -/
theorem test_wf_critical_set : Instr.wf (.chunkCriticalUnknown 0x61424344 2) = false := by decide
/-- A block of 2^32 bytes does not fit a chunk (45 R327). -/
theorem test_wf_idat_long : Instr.wf (.pkIdat (List.replicate (2 ^ 32) 0)) = false := by
  simp only [Instr.wf, List.length_replicate]; decide
/-- Nor does such a payload. -/
theorem test_wf_chunk_long (ty : Word) : Instr.wf (.pkChunk ty (List.replicate (2 ^ 32) 0)) = false := by
  simp only [Instr.wf, List.length_replicate]; decide
/-- Their well-formed counterparts: tEXt, `ABCD` (V30.2), a block of one byte. -/
theorem test_wf_accepts : Instr.wf (.chunkAncillaryUnknown 0x74455874 2) = true ∧
    Instr.wf (.chunkCriticalUnknown 0x41424344 2) = true ∧ Instr.wf (.pkIdat [0xAB]) = true ∧
    Instr.wf (.pkChunk tyIDAT [0xAB]) = true := by decide

/-! ### Decoding: a word for each row, the codes from 30_encoding.md R97, R98, R106, R109 to R111, R115 -/

theorem test_decode_chunks :
    decode [0, 0x49, 0x48, 0x44, 0x52, 0, 0, 0, 0x0D] = .ok (.chunkIhdr 13) ∧
    decode [0, 0x50, 0x4C, 0x54, 0x45, 0, 0, 0, 6] = .ok (.chunkPlte 6) ∧
    decode [0, 0x74, 0x52, 0x4E, 0x53, 0, 0, 0, 1] = .ok (.chunkTrns 1) ∧
    decode [0, 0x67, 0x41, 0x4D, 0x41, 0, 0, 0, 4] = .ok (.chunkGama 4) ∧
    decode [0, 0x49, 0x44, 0x41, 0x54, 0, 0, 3, 0xE8] = .ok (.chunkIdat 1000) ∧
    decode [0, 0x49, 0x45, 0x4E, 0x44, 0, 0, 0, 0] = .ok (.chunkIend 0) ∧
    decode [0, 0x70, 0x48, 0x59, 0x73, 0xFF, 0xFF, 0xFF, 0xFF] = .ok (.chunkAncillaryUnknown 0x70485973 4294967295) ∧
    decode [0, 0x41, 0x62, 0x63, 0x64, 0x80, 0, 0, 0] = .ok (.chunkCriticalUnknown 0x41626364 2147483648) :=
  ⟨rfl, rfl, rfl, rfl, rfl, rfl, rfl, rfl⟩

theorem test_decode_filters :
    decode [1, 0, 0x0A] = .ok (.defiltNone [0x0A]) ∧ decode [1, 1, 0x0A] = .ok (.defiltSub [0x0A]) ∧
    decode [1, 2, 0x0A] = .ok (.defiltUp [0x0A]) ∧ decode [1, 3, 0x0A] = .ok (.defiltAvg [0x0A]) ∧
    decode [1, 4, 0x0A] = .ok (.defiltPaeth [0x0A]) ∧ decode [2, 0] = .ok (.filtNone 0) ∧
    decode [2, 1, 1] = .ok (.filtSub 1) ∧ decode [2, 2, 0, 1] = .ok (.filtUp 256) ∧
    decode [2, 3, 5] = .ok (.filtAvg 5) ∧ decode [2, 4, 255] = .ok (.filtPaeth 255) :=
  ⟨rfl, rfl, rfl, rfl, rfl, rfl, rfl, rfl, rfl, rfl⟩

theorem test_decode_tags :
    decode [3, 0, 7] = .ok (.kSig [7]) ∧ decode [3, 1, 7] = .ok (.kHdr [7]) ∧ decode [3, 2, 7] = .ok (.kIhdr [7]) ∧
    decode [3, 3, 7] = .ok (.kPlte [7]) ∧ decode [3, 4, 7] = .ok (.kTrns [7]) ∧ decode [3, 5, 7] = .ok (.kGama [7]) ∧
    decode [3, 6, 7] = .ok (.kIdat [7]) ∧ decode [3, 7] = .ok (.kIend []) ∧ decode [3, 8, 7] = .ok (.kSkip [7]) ∧
    decode [3, 9, 7] = .ok (.kCrc [7]) ∧ decode [3, 10, 7] = .ok (.kUser0 [7]) ∧ decode [3, 11, 7] = .ok (.kUser1 [7]) ∧
    decode [3, 12, 7] = .ok (.kUser2 [7]) ∧ decode [3, 13, 7] = .ok (.kUser3 [7]) ∧
    decode [3, 14, 7] = .ok (.kUser4 [7]) ∧ decode [3, 15, 7] = .ok (.kUser5 [7]) :=
  ⟨rfl, rfl, rfl, rfl, rfl, rfl, rfl, rfl, rfl, rfl, rfl, rfl, rfl, rfl, rfl, rfl⟩

theorem test_decode_ports :
    decode [4, 0, 1, 2] = .ok (.dbPush [1, 2]) ∧ decode [4, 1, 1, 10, 5] = .ok (.dbRequest 5 true .user0) ∧
    decode [4, 2, 9] = .ok (.dbClose [9]) ∧ decode [4, 3] = .ok .dbDispose ∧ decode [5, 0] = .ok .crcInit ∧
    decode [5, 1, 0x61] = .ok (.crcUpdate [0x61]) ∧ decode [5, 2] = .ok .crcFinal ∧
    decode [6, 0, 0x89] = .ok (.decPush [0x89]) ∧ decode [6, 2] = .ok (.decClose []) ∧ decode [6, 3] = .ok .decDispose ∧
    decode [7, 0, 0, 0, 2, 0x80, 0, 0, 0, 1, 9] = .ok (.encStart 640 1 [9]) ∧ decode [7, 3] = .ok .encDispose :=
  ⟨rfl, rfl, rfl, rfl, rfl, rfl, rfl, rfl, rfl, rfl, rfl, rfl⟩

/-- Internal steps and functions have no code in the spec; these are the model's, in the table's order (log 3). -/
theorem test_decode_internal :
    decode [8, 0] = .ok .pStart ∧ decode [8, 1] = .ok .dbServe ∧ decode [8, 2] = .ok .dbDrainend ∧
    decode [8, 3, 11] = .ok (.inflOut 11) ∧ decode [8, 4, 7] = .ok (.feFeed [7]) ∧ decode [8, 5] = .ok .feLine ∧
    decode [8, 6] = .ok .feFinish ∧ decode [8, 7] = .ok .pkSig ∧ decode [8, 8] = .ok .pkIhdr ∧
    decode [8, 9] = .ok .feEncline ∧ decode [8, 10, 11] = .ok (.deflOut 11) ∧ decode [8, 11, 7] = .ok (.pkIdat [7]) ∧
    decode [8, 12] = .ok .deflDone ∧ decode [8, 13] = .ok .pkIend :=
  ⟨rfl, rfl, rfl, rfl, rfl, rfl, rfl, rfl, rfl, rfl, rfl, rfl, rfl, rfl⟩

theorem test_decode_functions :
    decode [9, 0, 7] = .ok (.crc32 [7]) ∧ decode [9, 1, 128] = .ok (.tbl 128) ∧
    decode [9, 2, 10, 10, 0] = .ok (.paeth 10 10 0) ∧ decode [9, 3, 3, 1, 2, 3] = .ok (.pred .average 1 2 3) ∧
    decode [9, 4, 0x49, 0x44, 0x41, 0x54, 0xAB] = .ok (.pkChunk 0x49444154 [0xAB]) ∧ decode [9, 5] = .ok .finalize ∧
    decode [9, 6, 8, 0x41, 0x42, 0x43, 0x44] = .ok (.teardown .unsupportedChunk [0x41424344]) :=
  ⟨rfl, rfl, rfl, rfl, rfl, rfl, rfl⟩

/-- Rejected: no format, the codes that name nothing (30 R109 to R111, R115), filter bytes above 4, `84` (V30.5). -/
theorem test_decode_rejects :
    decode [] = .error .noFormat ∧ decode [10] = .error .noFormat ∧ decode [3, 16] = .error .noSuchCode ∧
    decode [4, 4] = .error .noSuchCode ∧ decode [5, 3] = .error .noSuchCode ∧ decode [6, 1] = .error .noSuchCode ∧
    decode [7, 1] = .error .noSuchCode ∧ decode [7, 2] = .error .noSuchCode ∧ decode [1, 5] = .error .noSuchFilter ∧
    decode [2, 0x84] = .error .noSuchFilter ∧ decode [4, 3, 0] = .error .badOperands ∧
    decode [9, 6, 0] = .error .badOperands := ⟨rfl, rfl, rfl, rfl, rfl, rfl, rfl, rfl, rfl, rfl, rfl, rfl⟩

/-- A table row's word runs as the first operation after reset: IHDR's header, and the signature's tag. -/
theorem test_table_word : decodeTableWord 32 0x49484452 = some (.chunkIhdr 0) ∧
    decodeTableWord 8 8 = some (.kSkip [0, 0, 0, 0]) := ⟨rfl, rfl⟩

/-! ### Small states and views -/

/-- A session of the kind, as constructed, with the default parameters. -/
def fresh (kind : Kind) : State := State.construct kind Config.Params.initial

/-- The session with these blocks buffered and one read queued. -/
def suspended (blocks : List (List Byte)) (length : Nat) (allowLess : Bool) (tag : Tag) (s : State) : State :=
  { s with db := { blocks := blocks, reads := [{ length := length, allowLess := allowLess, tag := tag }], paused := false,
                   phase := .opened } }

/-- A decode session whose IHDR gave this width, height and colour type, its engine live. -/
def headed (w h : Word) (ct : Byte) : State :=
  { fresh .decode with
    p := { (fresh .decode).p with hasIHDR := true, state := .awaitChunkHeader }
    h := { width := w, height := h, bitDepth := 8, colorType := ct, compression := 0, filter := 0, interlace := 0 }
    fe := { live := true, mode := .decode, width := w.toNat, height := h.toNat, bpp := bppOf ct, row := 0, inq := [],
            done := false } }

/-- That session with a chunk header about to be delivered. -/
def atHeader (data : List Byte) (s : State) : State := suspended [data] 8 false .hdr s

/-- That session with the rows of pixels and a scanline about to be defiltered. -/
def atLine (w : Word) (h : Word) (ct : Byte) (row : Nat) (above line : List Byte) : State :=
  { headed w h ct with
    pix := Memory.writeBytes [] 0 above
    fe := { (headed w h ct).fe with row := row, inq := line } }

/-- An encode session in the packer's phase `Data`, this row of the image next. -/
def atRow (w h row : Nat) (pixels : List Byte) : State :=
  { fresh .encode with
    started := true, pk := .data, pix := Memory.writeBytes [] 0 pixels
    fe := { live := true, mode := .encode, width := w, height := h, bpp := 4, row := row, inq := [], done := false } }

/-- A CRC Engine that has been given these bytes. -/
def seeded (acc : Word) : State := { fresh .crc with crc := { acc := acc, seeded := true } }

/-- A view of the next state, `none` where the step stops. -/
def view {α : Type} (f : State → α) (o : Out) : Option α :=
  match o with
  | .next s => some (f s)
  | .fault _ => none
  | .refused _ => none

/-- The fault a step stops with. -/
def faultOf (o : Out) : Option Fault :=
  match o with
  | .fault r => some r
  | .next _ => none
  | .refused _ => none

/-- The refusal a step stops with. -/
def refusalOf (o : Out) : Option Refusal :=
  match o with
  | .refused r => some r
  | .next _ => none
  | .fault _ => none

/-- The bytes a memory lists, in order. -/
def listed (m : Memory) : List Byte := m.map Prod.snd

/-- A request. -/
def read (length : Nat) (allowLess : Bool) (tag : Tag) : Option Request :=
  some { length := length, allowLess := allowLess, tag := tag }

/-- The head request. -/
def headRead (s : State) : Option Request := s.db.reads.head?

/-! ### The CRC Engine: V40 -/

theorem test_tbl_1 : view (·.result) (exec (.tbl 1) (fresh .crc)) = some (.bits 0x77073096) := by decide
theorem test_tbl_255 : view (·.result) (exec (.tbl 255) (fresh .crc)) = some (.bits 0x2D02EF8D) := by decide
/-- V40.1. -/
theorem test_crc_init : view (·.crc.acc) (exec .crcInit (fresh .crc)) = some 0xFFFFFFFF := by decide
/-- V40.2. -/
theorem test_crc_update : view (·.crc.acc) (exec (.crcUpdate [0x61]) (seeded 0xFFFFFFFF)) = some 0x174841BC := by decide
/-- V40.12, the second piece. -/
theorem test_crc_update_again :
    view (·.crc.acc) (exec (.crcUpdate [0, 0, 0, 1, 0]) (seeded 0x575E51F5)) = some 0x79A64E82 := by decide +kernel
/-- V40.6 and V40.13: the value, and the accumulator stays. -/
theorem test_crc_final : view (fun t => (t.result, t.crc.acc)) (exec .crcFinal (seeded 0x51BD9F7D)) =
    some (.bits 0xAE426082, 0x51BD9F7D) := by decide
/-- 40_crc.md R133: "an empty `bytes` leaves `CRC.acc` unchanged", before the first `CRC.INIT` too. -/
theorem test_crc_update_empty : view (·.crc) (exec (.crcUpdate []) (fresh .crc)) = some (fresh .crc).crc := by decide
/-- Before the first `CRC.INIT` both commands complete; what they read is free (10_state.md R21). `CRC.FINAL` leaves the
accumulator (R134). -/
theorem test_crc_update_first : view (·.crc.seeded) (exec (.crcUpdate [0x61]) (fresh .crc)) = some true := by decide
theorem test_crc_final_first : view (·.crc) (exec .crcFinal (fresh .crc)) = some (fresh .crc).crc := by decide
/-- V40.5. -/
theorem test_crc32 : view (·.result)
    (exec (.crc32 [0x31, 0x32, 0x33, 0x34, 0x35, 0x36, 0x37, 0x38, 0x39]) (fresh .crc)) = some (.bits 0xCBF43926) := by
  decide +kernel
/-- V40.15. -/
theorem test_crc32_gama : view (·.result) (exec (.crc32 [0x67, 0x41, 0x4D, 0x41, 0, 0, 0xB1, 0x8E]) (fresh .crc)) =
    some (.bits 0x7CFB5193) := by decide +kernel

/-! ### The Demand Buffer: V41 -/

/-- V41.1. -/
theorem test_push_pauses : view (·.db) (exec (.dbPush [1, 2, 3]) (fresh .buffer)) =
    some { blocks := [[1, 2, 3]], reads := [], paused := true, phase := .opened } := by decide
/-- V41.11. -/
theorem test_push_late : view (fun t => (t.errCode, t.db.phase, t.log))
    (exec (.dbPush [1]) { fresh .buffer with db := { (fresh .buffer).db with phase := .finalized } }) =
    some (14, .disposed, [.error 14 []]) := by decide
/-- V41.2, the second request. -/
theorem test_request_drains : view (fun t => (t.db.paused, t.log, headRead t))
    (exec (.dbRequest 1 false .user1) { fresh .buffer with
      db := { blocks := [[3]], reads := [], paused := true, phase := .opened } }) =
    some (false, [.drain], read 1 false .user1) := by decide
/-- V41.13, the last line. -/
theorem test_request_disposed : view (fun t => (t.errCode, t.log))
    (exec (.dbRequest 1 false .user1) { fresh .buffer with db := { (fresh .buffer).db with phase := .disposed } }) =
    some (15, [.error 15 []]) := by decide
/-- V41.7. -/
theorem test_close_discards : view (fun t => (t.db, t.log)) (exec (.dbClose []) { fresh .buffer with
      db := { blocks := [[7]], reads := [], paused := true, phase := .opened } }) =
    some ({ blocks := [], reads := [], paused := true, phase := .finalized }, [.finished]) := by decide
/-- V41.8, the close. -/
theorem test_close_with_bytes : view (fun t => (t.db.blocks, t.db.phase))
    (exec (.dbClose [2, 3, 4]) (suspended [[1]] 3 false .user0 (fresh .buffer))) =
    some ([[1], [2, 3, 4]], .closing) := by decide
/-- V41.13. -/
theorem test_dispose : view (fun t => (t.db, t.log))
    (exec .dbDispose (suspended [[1], [2, 3]] 8 false .user0 (fresh .buffer))) =
    some ({ blocks := [], reads := [], paused := false, phase := .disposed }, []) := by decide
/-- V41.3, the first delivery. -/
theorem test_serve_first_block : view (fun t => (t.log, t.db.blocks))
    (exec .dbServe (suspended [[1, 2, 3], [4, 5, 6, 7, 8]] 4 true .user0 (fresh .buffer))) =
    some ([.deliver .user0 [1, 2, 3]], [[4, 5, 6, 7, 8]]) := by decide
/-- V41.4, the first delivery: `TAKE = min(n, buffered)`. -/
theorem test_serve_buffered : view (fun t => (t.log, t.db.blocks))
    (exec .dbServe { suspended [[1, 2, 3], [4, 5, 6, 7, 8]] 4 true .user0 (fresh .buffer) with
      par := { Config.Params.initial with take := .buffered } }) =
    some ([.deliver .user0 [1, 2, 3, 4]], [[5, 6, 7, 8]]) := by decide
/-- V41.8, `DB.DRAINEND`. -/
theorem test_drainend : view (fun t => (t.db.phase, t.log))
    (exec .dbDrainend { fresh .buffer with db := { (fresh .buffer).db with phase := .closing } }) =
    some (.finalized, [.finished]) := by decide
/-- V41.10. -/
theorem test_drainend_pending : view (fun t => (t.errCode, t.db.phase, t.log))
    (exec .dbDrainend { fresh .buffer with
      db := { blocks := [], reads := [{ length := 5, allowLess := true, tag := .user0 }], paused := false,
              phase := .closing } }) = some (13, .disposed, [.error 13 []]) := by decide
/-- V41.7, the call of `finalize()`. -/
theorem test_finalize : view (fun t => (t.db.phase, t.db.blocks, t.log)) (exec .finalize { fresh .buffer with
      db := { blocks := [[7]], reads := [], paused := true, phase := .opened } }) =
    some (.finalized, [], [.finished]) := by decide
/-- V41.2, V41.3, V41.6, V41.14: deliveries to user tags. -/
theorem test_user0 : view (·.log) (exec (.kUser0 [1, 2]) (suspended [[1, 2]] 2 false .user0 (fresh .buffer))) =
    some [.deliver .user0 [1, 2]] := by decide
theorem test_user1 : view (fun t => (t.log, t.db.blocks))
    (exec (.kUser1 [4, 5]) (suspended [[4, 5, 6, 7, 8]] 2 true .user1 (fresh .buffer))) =
    some ([.deliver .user1 [4, 5]], [[6, 7, 8]]) := by decide
theorem test_user2 : view (·.log) (exec (.kUser2 [6, 7, 8]) (suspended [[6, 7, 8]] 10 true .user2 (fresh .buffer))) =
    some [.deliver .user2 [6, 7, 8]] := by decide
/-- A cut that `TAKE` may choose though the first block holds more (41 R162). -/
theorem test_user3 : view (fun t => (t.log, t.db.blocks))
    (exec (.kUser3 [6]) (suspended [[6, 7, 8]] 10 true .user3 (fresh .buffer))) =
    some ([.deliver .user3 [6]], [[7, 8]]) := by decide
/-- V41.5. -/
theorem test_user4 : view (fun t => (t.log, t.db.reads)) (exec (.kUser4 []) (suspended [] 0 false .user4 (fresh .buffer))) =
    some ([.deliver .user4 []], []) := by decide
/-- V41.6: the head cannot be served, so the step waits. -/
theorem test_user5 : view (fun t => (t.log, t.db.blocks))
    (exec (.kUser5 [1]) (suspended [[1, 2, 3, 4, 5]] 10 false .user0 (fresh .buffer))) =
    some ([], [[1, 2, 3, 4, 5]]) := by decide

/-! ### The Chunk Parser: V42 -/

/-- V42.4. -/
theorem test_chunk_ihdr : view (fun t => (t.p.length, t.p.type, t.crc.acc, headRead t))
    (exec (.chunkIhdr 13) (atHeader [0, 0, 0, 0x0D, 0x49, 0x48, 0x44, 0x52] (fresh .decode))) =
    some (13, 0x49484452, 0x575E51F5, read 13 false .ihdr) := by decide +kernel
/-- V42.5. -/
theorem test_chunk_plte : view (fun t => (t.crc.acc, headRead t))
    (exec (.chunkPlte 6) (atHeader [0, 0, 0, 6, 0x50, 0x4C, 0x54, 0x45] (headed 1 1 6))) =
    some (0xB45776AA, read 6 false .plte) := by decide +kernel
/-- V42.6. -/
theorem test_chunk_trns : view (fun t => (t.crc.acc, headRead t))
    (exec (.chunkTrns 1) (atHeader [0, 0, 0, 1, 0x74, 0x52, 0x4E, 0x53] (headed 1 1 6))) =
    some (0xC9468F33, read 1 false .trns) := by decide +kernel
/-- V42.7. -/
theorem test_chunk_gama : view (fun t => (t.crc.acc, headRead t))
    (exec (.chunkGama 4) (atHeader [0, 0, 0, 4, 0x67, 0x41, 0x4D, 0x41] (headed 1 1 6))) =
    some (0x4D1E48E0, read 4 false .gama) := by decide +kernel
/-- V42.8. -/
theorem test_chunk_idat : view (fun t => (t.crc.acc, t.p.remaining, headRead t))
    (exec (.chunkIdat 1000) (atHeader [0, 0, 3, 0xE8, 0x49, 0x44, 0x41, 0x54] (headed 1 1 6))) =
    some (0xCA50F9E1, 1000, read 1000 true .idat) := by decide +kernel
/-- V42.9. -/
theorem test_chunk_idat_empty : view (fun t => (t.p.state, t.p.remaining, headRead t))
    (exec (.chunkIdat 0) (atHeader [0, 0, 0, 0, 0x49, 0x44, 0x41, 0x54] (headed 1 1 6))) =
    some (.awaitChunkCRC, 0, read 4 false .crc) := by decide
/-- V42.11. -/
theorem test_chunk_iend : view (fun t => (t.crc.acc, headRead t))
    (exec (.chunkIend 0) (atHeader [0, 0, 0, 0, 0x49, 0x45, 0x4E, 0x44] (headed 1 1 6))) =
    some (0x51BD9F7D, read 0 false .iend) := by decide +kernel
/-- V42.14: no wrap. -/
theorem test_chunk_ancillary : view (fun t => (t.p.kind, headRead t))
    (exec (.chunkAncillaryUnknown 0x74455874 0xFFFFFFFF)
      (atHeader [0xFF, 0xFF, 0xFF, 0xFF, 0x74, 0x45, 0x58, 0x74] (headed 1 1 6))) =
    some (.skip, read 4294967299 false .skip) := by decide
/-- V42.13. -/
theorem test_chunk_critical : view (fun t => (t.errCode, t.log))
    (exec (.chunkCriticalUnknown 0x41424344 2) (atHeader [0, 0, 0, 2, 0x41, 0x42, 0x43, 0x44] (headed 1 1 6))) =
    some (8, [.error 8 [0x41424344]]) := by decide
/-- V42.1. -/
theorem test_sig : view (fun t => (t.p.state, headRead t))
    (exec (.kSig [0x89, 0x50, 0x4E, 0x47, 0x0D, 0x0A, 0x1A, 0x0A])
      (suspended [[0x89, 0x50, 0x4E, 0x47, 0x0D, 0x0A, 0x1A, 0x0A]] 8 false .sig (fresh .decode))) =
    some (.awaitChunkHeader, read 8 false .hdr) := by decide
/-- V42.3. -/
theorem test_sig_wrong : view (fun t => (t.errCode, t.p.state))
    (exec (.kSig [0x88, 0x50, 0x4E, 0x47, 0x0D, 0x0A, 0x1A, 0x0A])
      (suspended [[0x88, 0x50, 0x4E, 0x47, 0x0D, 0x0A, 0x1A, 0x0A]] 8 false .sig (fresh .decode))) =
    some (1, .failed) := by decide
/-- V42.10. -/
theorem test_hdr_no_palette : view (·.errCode) (exec (.kHdr [0, 0, 0, 5, 0x49, 0x44, 0x41, 0x54])
    (atHeader [0, 0, 0, 5, 0x49, 0x44, 0x41, 0x54] (headed 2 2 3))) = some 10 := by decide
/-- V42.18. -/
theorem test_hdr_missing : view (·.errCode) (exec (.kHdr [0, 0, 0, 0x0D, 0x69, 0x48, 0x44, 0x52])
    (atHeader [0, 0, 0, 0x0D, 0x69, 0x48, 0x44, 0x52] (fresh .decode))) = some 2 := by decide

/-- A decode session with this payload about to be delivered, the CRC seeded as the chunk's type leaves it. -/
def atPayload (tag : Tag) (data : List Byte) (acc : Word) (s : State) : State :=
  { suspended (if data = [] then [] else [data]) data.length false tag s with crc := { acc := acc, seeded := true } }

/-- V42.21. -/
theorem test_ihdr : view (fun t => (t.fe.bpp, lineLength t.fe, t.log, t.crc.acc))
    (exec (.kIhdr [0, 0, 0, 3, 0, 0, 0, 2, 8, 2, 0, 0, 0])
      (atPayload .ihdr [0, 0, 0, 3, 0, 0, 0, 2, 8, 2, 0, 0, 0] 0x575E51F5 (fresh .decode))) =
    some (3, 10, [.metadata 3 2 false true false], 0xEDE90EB2) := by decide +kernel
/-- V42.34. -/
theorem test_ihdr_checks : view (·.errCode) (exec (.kIhdr [0, 0, 0, 1, 0, 0, 0, 1, 8, 7, 1, 1, 1])
    (atPayload .ihdr [0, 0, 0, 1, 0, 0, 0, 1, 8, 7, 1, 1, 1] 0x575E51F5 (fresh .decode))) = some 4 := by decide
/-- V42.37. -/
theorem test_plte : view (fun t => (listed t.pal.mem, t.pal.size, t.crc.acc))
    (exec (.kPlte [0xFF, 0, 0, 0, 0xFF, 0, 0, 0, 0xFF])
      (atPayload .plte [0xFF, 0, 0, 0, 0xFF, 0, 0, 0, 0xFF] 0xB45776AA (headed 2 2 3))) =
    some ([0xFF, 0, 0, 0xFF, 0, 0xFF, 0, 0xFF, 0, 0, 0xFF, 0xFF], 3, 0xD2B53275) := by decide +kernel
/-- A decode session of colour type 3 with the palette of V42.37. -/
def paletted : State :=
  { headed 2 1 3 with
    pal := { size := 3, mem := Memory.writeBytes [] 0 [0xFF, 0, 0, 0xFF, 0, 0xFF, 0, 0xFF, 0, 0, 0xFF, 0xFF] } }
/-- V42.40. -/
theorem test_trns : view (fun t => listed t.pal.mem)
    (exec (.kTrns [0x80, 0x40, 0]) (atPayload .trns [0x80, 0x40, 0] 0 paletted)) =
    some [0xFF, 0, 0, 0x80, 0, 0xFF, 0, 0x40, 0, 0, 0xFF, 0] := by decide
/-- V42.41. -/
theorem test_trns_long : view (fun t => (t.errCode, t.log))
    (exec (.kTrns [1, 2, 3, 4]) (atPayload .trns [1, 2, 3, 4] 0 paletted)) = some (12, [.error 12 [4, 3]]) := by decide
/-- V42.46. -/
theorem test_gama : view (fun t => (t.p.gamma, t.log, t.crc.acc))
    (exec (.kGama [0, 0, 0xB1, 0x8F]) (atPayload .gama [0, 0, 0xB1, 0x8F] 0x4D1E48E0 (headed 1 1 6))) =
    some (45455, [.gamma 45455], 0xF4039EFA) := by decide +kernel

/-- A decode session of a 1×1 image inside an IDAT chunk, this much of it left and this block buffered. -/
def inIdat (left : Nat) (block : List Byte) : State :=
  { suspended [block] left true .idat (headed 1 1 6) with
    crc := { acc := 0xCA50F9E1, seeded := true }
    p := { (headed 1 1 6).p with state := .dispatchChunk, kind := .idat, length := 11, type := tyIDAT,
                                 remaining := left } }
/-- V42.48. -/
theorem test_idat : view (fun t => (t.infl.input, t.p.remaining, t.crc.acc, headRead t))
    (exec (.kIdat [0x78, 0x9C, 0x63, 0xF8]) (inIdat 11 [0x78, 0x9C, 0x63, 0xF8])) =
    some ([0x78, 0x9C, 0x63, 0xF8], 7, 0xB2E89355, read 7 true .idat) := by decide +kernel
/-- V42.49. -/
theorem test_idat_last : view (fun t => (t.p.remaining, t.p.state, headRead t))
    (exec (.kIdat [0xFD]) (inIdat 1 [0xFD])) = some (0, .awaitChunkCRC, read 4 false .crc) := by decide
/-- V42.50. -/
theorem test_iend : view (fun t => (t.p.hasIEND, t.infl.ended, t.crc.acc, headRead t))
    (exec (.kIend []) (atPayload .iend [] 0x51BD9F7D (headed 1 1 6))) =
    some (true, true, 0x51BD9F7D, read 4 false .crc) := by decide
/-- V42.51. -/
theorem test_skip : view (fun t => (t.p.state, headRead t, t.db.blocks))
    (exec (.kSkip [0x68, 0x69, 0, 0, 0, 0]) (atPayload .skip [0x68, 0x69, 0, 0, 0, 0] 0 (headed 1 1 6))) =
    some (.awaitChunkHeader, read 8 false .hdr, []) := by decide
/-- V42.53. -/
theorem test_crc_mismatch : view (fun t => (t.errCode, t.log))
    (exec (.kCrc [0x1F, 0x15, 0xC4, 0x88]) (atPayload .crc [0x1F, 0x15, 0xC4, 0x88] 0xE0EA3B76 (headed 1 1 6))) =
    some (9, [.error 9 [0x1F15C488, 0x1F15C489]]) := by decide

/-- A decode session that waits for the CRC of IEND. -/
def atEnd : State :=
  let s := headed 1 1 6
  { atPayload .crc [0xAE, 0x42, 0x60, 0x82] 0x51BD9F7D s with
    p := { s.p with state := .awaitChunkCRC, kind := .iend, type := tyIEND, hasIEND := true }
    infl := { s.infl with ended := true } }
/-- V42.55. -/
theorem test_crc_end : view (fun t => (t.p.state, t.db.phase, t.log)) (exec (.kCrc [0xAE, 0x42, 0x60, 0x82]) atEnd) =
    some (.terminated, .finalized, [.finished]) := by decide

/-! ### The Filter Engine, decode: V43 -/

/-- V43.1: the two ties, and an overshoot of 255. -/
theorem test_paeth_tie : view (·.result) (exec (.paeth 10 10 0) (fresh .decode)) = some (.byte 10) := by decide
theorem test_paeth : view (·.result) (exec (.paeth 12 7 10) (fresh .decode)) = some (.byte 10) := by decide
/-- V43.15: the 9-bit sum. -/
theorem test_pred_average : view (·.result) (exec (.pred .average 0x80 0xFF 0) (fresh .decode)) = some (.byte 191) := by
  decide
theorem test_pred_up : view (·.result) (exec (.pred .up 1 2 3) (fresh .decode)) = some (.byte 2) := by decide
/-- V43.2. -/
theorem test_defilt_none : view (fun t => listed t.pix) (exec (.defiltNone [0x0A, 0x14, 0x1E, 0x28, 0x32, 0x3C])
    (atLine 2 2 2 0 [] [0, 0x0A, 0x14, 0x1E, 0x28, 0x32, 0x3C])) =
    some [0x0A, 0x14, 0x1E, 0xFF, 0x28, 0x32, 0x3C, 0xFF] := by decide
/-- V43.16: grey with alpha. -/
theorem test_defilt_sub : view (fun t => listed t.pix) (exec (.defiltSub [0x10, 0x80, 0x05, 0x90])
    (atLine 2 2 4 0 [] [1, 0x10, 0x80, 0x05, 0x90])) =
    some [0x10, 0x10, 0x10, 0x80, 0x15, 0x15, 0x15, 0x10] := by decide
/-- V43.4. -/
theorem test_defilt_up : view (fun t => (listed t.pix).drop 8) (exec (.defiltUp [1, 2, 3, 0xFF, 0xFE, 0x80])
    (atLine 2 2 2 1 [0x64, 0xC8, 0x32, 0xFF, 0x96, 0xFA, 0x10, 0xFF] [2, 1, 2, 3, 0xFF, 0xFE, 0x80])) =
    some [0x65, 0xCA, 0x35, 0xFF, 0x95, 0xF8, 0x90, 0xFF] := by decide
/-- V43.5. -/
theorem test_defilt_average : view (fun t => (listed t.pix).drop 8) (exec (.defiltAvg [1, 2, 3, 4, 5, 6])
    (atLine 2 2 2 1 [0x64, 0xC8, 0x32, 0xFF, 0x96, 0xFA, 0x10, 0xFF] [3, 1, 2, 3, 4, 5, 6])) =
    some [0x33, 0x66, 0x1C, 0xFF, 0x68, 0xB5, 0x1C, 0xFF] := by decide
/-- V43.6. -/
theorem test_defilt_paeth : view (fun t => (listed t.pix).drop 8) (exec (.defiltPaeth [1, 2, 3, 4, 5, 6])
    (atLine 2 2 2 1 [0x64, 0xC8, 0x32, 0xFF, 0x96, 0xFA, 0x10, 0xFF] [4, 1, 2, 3, 4, 5, 6])) =
    some [0x65, 0xCA, 0x35, 0xFF, 0x9A, 0xFF, 0x16, 0xFF] := by decide
/-- V43.17, with a byte of the next scanline behind. -/
theorem test_line : view (fun t => (listed t.pix, t.fe.row, t.fe.inq))
    (exec .feLine (atLine 3 2 0 0 [] [1, 2, 1, 0xFF, 7])) =
    some ([2, 2, 2, 0xFF, 3, 3, 3, 0xFF, 2, 2, 2, 0xFF], 1, [7]) := by decide
/-- V43.23. -/
theorem test_line_fault : faultOf (exec .feLine (atLine 1 1 2 0 [] [5, 0, 0, 0])) = some .filterType := by decide
/-- V43.20. -/
theorem test_finish : view (fun t => (listed t.pix, t.fe.done)) (exec .feFinish { paletted with
      pix := Memory.writeBytes [] 0 [1, 1, 1, 0xFF, 0, 0, 0, 0xFF], fe := { paletted.fe with row := 1 } }) =
    some ([0, 0xFF, 0, 0xFF, 0xFF, 0, 0, 0xFF], true) := by decide
/-- V43.20: the index is not below `PAL.size`. -/
theorem test_finish_index : faultOf (exec .feFinish { paletted with
      pix := Memory.writeBytes [] 0 [3, 3, 3, 0xFF, 0, 0, 0, 0xFF], fe := { paletted.fe with row := 1 } }) =
    some .paletteIndex := by decide

/-- Parameters in which the transforms answer as program P2 and V45.8 have it (G9). -/
def transforms : Config.Params :=
  { Config.Params.initial with
    inflate := [([0x78, 0x9C, 0x63, 0xF8, 0x0F, 0x04, 0x00, 0x09, 0xFB, 0x03, 0xFD], [0, 0xFF, 0xFF, 0xFF, 0xFF])]
    deflate := [{ chunkSize := 0, level := 0, strategy := 0, input := [0, 0xFF, 0xFF, 0xFF, 0xFF], ended := true,
                  output := [0x78, 0x9C, 0x63, 0xF8, 0x0F, 0x04, 0x00, 0x09, 0xFB, 0x03, 0xFD] }] }

/-- A decode session of a 1×1 image whose compressed bytes have all been pushed. -/
def inflated : State :=
  { headed 1 1 6 with
    par := transforms
    infl := { input := [0x78, 0x9C, 0x63, 0xF8, 0x0F, 0x04, 0x00, 0x09, 0xFB, 0x03, 0xFD], ended := false, emitted := 0,
              live := true } }
/-- Two bytes of the five (20 R76, G9). -/
theorem test_inflout : view (fun t => (t.fe.inq, t.infl.emitted)) (exec (.inflOut 2) inflated) =
    some ([0, 0xFF], 2) := by decide
theorem test_feed : view (fun t => (t.fe.inq, t.infl.emitted)) (exec (.feFeed [0, 0xFF, 0xFF, 0xFF, 0xFF]) inflated) =
    some ([0, 0xFF, 0xFF, 0xFF, 0xFF], 5) := by decide

/-! ### The Filter Engine, encode: V44 -/

/-- V44.6: one candidate. -/
theorem test_filt_none : view (·.defl.input) (exec (.filtNone 0) { atRow 2 2 0 [0x64, 0xC8, 0x32, 0xFF, 0x96, 0xFA, 0x10, 0xFF,
      0x65, 0xCA, 0x35, 0xFF, 0x9A, 0xFF, 0x16, 0x80] with cfg := { (fresh .encode).cfg with candidates := [0] } }) =
    some [0, 0x64, 0xC8, 0x32, 0xFF, 0x96, 0xFA, 0x10, 0xFF] := by decide
/-- V44.1, row 0. -/
theorem test_filt_sub : view (·.defl.input) (exec (.filtSub 0) (atRow 2 2 0 [0x64, 0xC8, 0x32, 0xFF, 0x96, 0xFA, 0x10, 0xFF,
      0x65, 0xCA, 0x35, 0xFF, 0x9A, 0xFF, 0x16, 0x80])) =
    some [1, 0x64, 0xC8, 0x32, 0xFF, 0x32, 0x32, 0xDE, 0] := by decide
/-- V44.2, row 1. -/
theorem test_filt_up : view (·.defl.input) (exec (.filtUp 1) (atRow 2 3 1 [0x80, 0x40, 0x20, 0x30, 0x10, 0x10, 0x20, 0x40,
      0x80, 0x40, 0x1F, 0x31, 0x0F, 0x10, 0x21, 0x42])) = some [2, 0, 0, 0xFF, 1, 0xFF, 0, 1, 2] := by decide
/-- V44.2, row 0. -/
theorem test_filt_average : view (·.defl.input) (exec (.filtAvg 0) (atRow 2 2 0 [0x80, 0x40, 0x20, 0x30, 0x10, 0x10, 0x20,
      0x40, 0x80, 0x40, 0x1F, 0x31, 0x0F, 0x10, 0x21, 0x42])) =
    some [3, 0x80, 0x40, 0x20, 0x30, 0xD0, 0xF0, 0x10, 0x28] := by decide
/-- V44.5, row 1. -/
theorem test_filt_paeth : view (·.defl.input) (exec (.filtPaeth 1) { atRow 2 2 1 [0x64, 0xC8, 0x32, 0xFF, 0x96, 0xFA, 0x10,
      0xFF, 0x65, 0xCA, 0x35, 0xFF, 0x9A, 0xFF, 0x16, 0x80] with
      cfg := { (fresh .encode).cfg with candidates := [4] } }) = some [4, 1, 2, 3, 0, 4, 5, 6, 0x81] := by decide
/-- V44.3, the last row of its image. -/
theorem test_encline : view (fun t => (t.defl.input, t.defl.ended, t.fe.done)) (exec .feEncline
    (atRow 1 1 0 [0xFF, 0xFF, 0xFF, 0xFF])) = some ([0, 0xFF, 0xFF, 0xFF, 0xFF], true, true) := by decide
/-- V44.7: the wrapped bytes, chosen by the unwrapped cost. -/
theorem test_encline_wrap : view (·.defl.input) (exec .feEncline
    (atRow 2 2 0 [0x00, 0x80, 0xFF, 0x7F, 0xFF, 0x00, 0x00, 0x80, 0, 0, 0, 0, 0, 0, 0, 0])) =
    some [0, 0x00, 0x80, 0xFF, 0x7F, 0xFF, 0x00, 0x00, 0x80] := by decide

/-! ### The encode session and the packer: V45 -/

/-- V45.8, the command. -/
theorem test_start : view (fun t => (t.pk, listed t.pix, t.fe.row))
    (exec (.encStart 1 1 [0xFF, 0xFF, 0xFF, 0xFF]) (fresh .encode)) =
    some (.sig, [0xFF, 0xFF, 0xFF, 0xFF], 0) := by decide
/-- V45.9: three bytes for a 1×1 image. -/
theorem test_start_short : refusalOf (exec (.encStart 1 1 [0xFF, 0xFF, 0xFF]) (fresh .encode)) = some .pixelCount := by
  decide
theorem test_pksig : view (fun t => (t.pk, t.log)) (exec .pkSig { atRow 1 1 0 [0xFF, 0xFF, 0xFF, 0xFF] with pk := .sig }) =
    some (.ihdr, [.data [0x89, 0x50, 0x4E, 0x47, 0x0D, 0x0A, 0x1A, 0x0A]]) := by decide
theorem test_pkihdr : view (fun t => (t.pk, t.log))
    (exec .pkIhdr { atRow 1 1 0 [0xFF, 0xFF, 0xFF, 0xFF] with pk := .ihdr }) =
    some (.data, [.data [0, 0, 0, 0x0D, 0x49, 0x48, 0x44, 0x52, 0, 0, 0, 1, 0, 0, 0, 1, 8, 6, 0, 0, 0, 0x1F, 0x15, 0xC4,
      0x89]]) := by decide +kernel

/-- V45.8 after its row: the transform has all its input. -/
def deflated : State :=
  { atRow 1 1 1 [0xFF, 0xFF, 0xFF, 0xFF] with
    par := transforms
    defl := { input := [0, 0xFF, 0xFF, 0xFF, 0xFF], ended := true, emitted := 0, live := true } }
theorem test_deflout : view (fun t => (t.log, t.defl.emitted)) (exec (.deflOut 11) deflated) =
    some ([.data [0, 0, 0, 0x0B, 0x49, 0x44, 0x41, 0x54, 0x78, 0x9C, 0x63, 0xF8, 0x0F, 0x04, 0x00, 0x09, 0xFB, 0x03, 0xFD,
      0xFB, 0x5E, 0x6B, 0x2B]], 11) := by decide +kernel
theorem test_pkidat : view (·.log)
    (exec (.pkIdat [0x78, 0x9C, 0x63, 0xF8, 0x0F, 0x04, 0x00, 0x09, 0xFB, 0x03, 0xFD]) deflated) =
    some [.data [0, 0, 0, 0x0B, 0x49, 0x44, 0x41, 0x54, 0x78, 0x9C, 0x63, 0xF8, 0x0F, 0x04, 0x00, 0x09, 0xFB, 0x03, 0xFD,
      0xFB, 0x5E, 0x6B, 0x2B]] := by decide +kernel
theorem test_defldone : view (fun t => (t.log, t.pk))
    (exec .deflDone { deflated with defl := { deflated.defl with emitted := 11 } }) =
    some ([.data [0, 0, 0, 0, 0x49, 0x45, 0x4E, 0x44, 0xAE, 0x42, 0x60, 0x82], .endOfStream], .done) := by decide +kernel
theorem test_pkiend : view (fun t => (t.log, t.pk))
    (exec .pkIend { deflated with defl := { deflated.defl with emitted := 11 } }) =
    some ([.data [0, 0, 0, 0, 0x49, 0x45, 0x4E, 0x44, 0xAE, 0x42, 0x60, 0x82], .endOfStream], .done) := by decide +kernel
/-- V45.4. -/
theorem test_pkchunk : view (·.result) (exec (.pkChunk tyIDAT [0xAB]) (fresh .encode)) =
    some (.bytes [0, 0, 0, 1, 0x49, 0x44, 0x41, 0x54, 0xAB, 0x69, 0x3C, 0x07, 0x88]) := by decide +kernel
/-- V45.9: disposal after the `PK.IHDR` step. -/
theorem test_enc_dispose : view (fun t => (t.pk, t.log, t.defl.live)) (exec .encDispose (atRow 1 1 0 [1, 2, 3, 4])) =
    some (.failed, [], false) := by decide

/-! ### The decode session: V60 -/

theorem test_start_parser : view headRead (exec .pStart (State.fresh .decode Config.Params.initial)) =
    some (read 8 false .sig) := by decide
/-- V60.1, the push: a read is queued, so it does not pause. -/
theorem test_dec_push : view (fun t => (t.db.blocks, t.db.paused)) (exec (.decPush [0x89, 0x50]) (fresh .decode)) =
    some ([[0x89, 0x50]], false) := by decide
/-- V60.17, the close: the read stays pending. -/
theorem test_dec_close : view (fun t => (t.db.phase, t.errCode)) (exec (.decClose [])
    (suspended [[0x89, 0x50, 0x4E, 0x47]] 8 false .sig (fresh .decode))) = some (.closing, 0) := by decide
/-- V60.21. -/
theorem test_dec_dispose : view (fun t => (t.errCode, t.db.phase, t.p.state, t.log)) (exec .decDispose (headed 1 1 6)) =
    some (0, .disposed, .failed, []) := by decide
/-- R371. -/
theorem test_teardown : view (fun t => (t.errCode, t.db.phase, t.p.state, t.fe.live, t.infl.live))
    (exec (.teardown .crcMismatch [1, 2]) (headed 1 1 6)) = some (9, .disposed, .failed, false, false) := by decide
/-- V60.20: a dead session ignores a push. -/
theorem test_dead : view (fun t => (t.log, t.db.blocks)) (exec (.decPush [0]) (teardown .crcMismatch [] (headed 1 1 6))) =
    some ([.error 9 []], []) := by decide

/-! ### Witnesses: states and operands that meet the hypotheses of each statement -/

/-- A step that goes on has a next state. -/
theorem goes {o : Out} (h : (view (fun _ => true) o).isSome = true) : ∃ t, o = .next t := by
  cases o with
  | next s => exact ⟨s, rfl⟩
  | fault r => simp [view] at h
  | refused r => simp [view] at h

/-- A decode session inside an IDAT chunk, its CRC still to come. -/
def midway : State := inIdat 11 [0x78, 0x9C, 0x63, 0xF8]

/-- `deflated` with what the packer has emitted before it. -/
def packed : State := { deflated with log := [.data signature, .data (headerChunk deflated)] }

/-- A Demand Buffer on its own, paused, with one block. -/
def pausedBuffer : State := { fresh .buffer with db := { blocks := [[3]], reads := [], paused := true, phase := .opened } }

theorem witness_decodeEncode : Instr.WellFormed (.chunkAncillaryUnknown 0x74455874 0xFFFFFFFF) ∧
    decode [3, 0] = .ok (.kSig []) := ⟨by decide, rfl⟩

theorem witness_fieldsAndTypes :
    (0x74455874 : Word) ∉ [0x49484452, 0x504C5445, 0x74524E53, 0x67414D41, 0x49444154, 0x49454E44] ∧
    (0x74455874 : Word).getLsbD 29 = true ∧
    (0x41626364 : Word) ∉ [0x49484452, 0x504C5445, 0x74524E53, 0x67414D41, 0x49444154, 0x49454E44] ∧
    (0x41626364 : Word).getLsbD 29 = false := by decide

theorem witness_stepRunsDecoded :
    ({ fresh .crc with agenda := [.op [5, 0]] } : State).agenda = .op [5, 0] :: [] ∧ decode [5, 0] = .ok .crcInit ∧
    decode [5, 3] = .error .noSuchCode ∧ midway.agenda = [] ∧ autoPick midway = some .dbServe ∧
    autoPick (fresh .encode) = none := ⟨rfl, rfl, rfl, rfl, by decide, by decide⟩

theorem witness_hostEntries :
    ({ fresh .decode with agenda := [.cfgCheckCRC false] } : State).agenda = .cfgCheckCRC false :: [] ∧
    (fresh .decode).kind = .decode ∧ (fresh .decode).started = false ∧ (fresh .encode).kind = .encode ∧
    packed.kind = .encode ∧ packed.started = true ∧
    ({ fresh .crc with agenda := [.construct .decode Config.Params.initial] } : State).agenda =
      .construct .decode Config.Params.initial :: [] ∧
    exceeds Config.Params.initial.maxReads (firstReads .decode).length = false ∧
    exceeds (some 0) (firstReads .decode).length = true := by decide

theorem witness_scheduleIsComplete : autoPick (fresh .encode) = none ∧ autoPick (fresh .decode) = none := by decide

theorem midway_buffer : BufferOk midway := ⟨by decide, by decide, by decide⟩

theorem midway_parser : ParserInv midway := fun _ _ =>
  ⟨by decide, by decide, by decide, by decide, by decide, by decide⟩

theorem midway_steps : ∃ t, step midway = .next t := goes (by decide)

theorem witness_memoryKept : MemoryOk paletted ∧ (∃ t, step paletted = .next t) ∧ PaletteOk midway ∧
    ∃ t, step midway = .next t :=
  ⟨⟨by decide, by decide⟩, goes (by decide), ⟨by decide, fun a => by simp [midway, inIdat, suspended, headed, fresh,
    State.construct, State.fresh]⟩, midway_steps⟩

theorem witness_bufferKept : BufferOk midway ∧ ∃ t, step midway = .next t := ⟨midway_buffer, midway_steps⟩

theorem witness_parserKept : ParserInv midway ∧ ∃ t, step midway = .next t := ⟨midway_parser, midway_steps⟩

theorem witness_headerKept : HeaderOk midway ∧ EngineOk midway ∧ (∃ t, step midway = .next t) ∧ ParserInv midway ∧
    midway.p.hasIHDR = true ∧ ∃ t, exec .dbServe midway = .next t :=
  ⟨by unfold HeaderOk; decide, ⟨by decide, by decide, by decide⟩, midway_steps, midway_parser, by decide, goes (by decide)⟩

theorem witness_pixelsKept : PixelsOk midway ∧ ∃ t, step midway = .next t :=
  ⟨⟨fun _ _ a => by simp [midway, inIdat, suspended, headed, fresh, State.construct, State.fresh],
    fun _ h => by simp [midway, inIdat, suspended, headed] at h⟩, midway_steps⟩

theorem witness_errorKept : ErrorOk midway ∧ (∃ t, step midway = .next t) ∧
    ErrorOk (teardown .crcMismatch [1, 2] midway) ∧ ∃ t, step (teardown .crcMismatch [1, 2] midway) = .next t :=
  ⟨⟨by decide, fun k h => by simp [midway, inIdat, suspended, headed, fresh, State.construct, State.fresh] at h⟩,
    midway_steps,
    ⟨fun h => by simp [teardown, stop, emit, midway, inIdat, suspended, headed, fresh, State.construct, State.fresh] at h,
      fun k h => by
        obtain rfl : ErrorKind.crcMismatch = k := Option.some.inj h
        exact ⟨⟨rfl, rfl, rfl, rfl, rfl, rfl⟩, [], [1, 2], rfl, by decide⟩⟩,
    goes (by decide)⟩

theorem packed_output : OutputOk packed := fun _ =>
  ⟨rfl, [], ⟨by decide, by decide, fun _ => rfl⟩, rfl⟩

theorem packed_rows : RowsOk packed :=
  ⟨fun _ h => by simp [packed, deflated, atRow] at h,
    fun _ _ => ⟨by decide, by decide, by decide, ⟨fun _ => .none, by decide⟩, by decide⟩⟩

theorem witness_outputKept : OutputOk packed ∧ RowsOk packed ∧ ∃ t, step packed = .next t :=
  ⟨packed_output, packed_rows, goes (by decide)⟩

/-- The compressed block of V45.8. -/
def whiteBlock : List Byte := [0x78, 0x9C, 0x63, 0xF8, 0x0F, 0x04, 0x00, 0x09, 0xFB, 0x03, 0xFD]

/-- `packed` at its end: the block and IEND emitted. -/
def finished : State :=
  { packed with
    pk := .done
    defl := { packed.defl with emitted := 11 }
    log := packed.log ++ [.data (chunkBytes tyIDAT whiteBlock), .data (chunkBytes tyIEND []), .endOfStream] }

theorem finished_output : OutputOk finished := fun _ =>
  ⟨rfl, [whiteBlock], ⟨by decide, rfl, fun _ => rfl⟩, rfl, rfl, rfl, rfl⟩

theorem finished_rows : RowsOk finished :=
  ⟨fun _ h => by simp [finished] at h,
    fun _ _ => ⟨by decide, by decide, by decide, ⟨fun _ => .none, by decide⟩, by decide⟩⟩

/-- The transforms of V45.8 are what 20_memory.md R76 and R77 assume of them. -/
theorem finished_transforms : InflMonotone finished.par ∧ RoundTrip finished.par finished.cfg [] ∧
    RoundTrip finished.par finished.cfg finished.defl.input := by
  refine ⟨fun x y => ?_, by unfold RoundTrip; decide, by unfold RoundTrip; decide⟩
  simp only [inflateStream, longestPrefix, finished, packed, deflated, transforms, List.isPrefixOf_iff_prefix]
  by_cases h : whiteBlock <+: x
  · rw [if_pos ⟨h, Nat.zero_le _⟩, if_pos ⟨h.trans (List.prefix_append x y), Nat.zero_le _⟩]
  · rw [if_neg fun hx => h hx.1]
    exact List.nil_prefix

theorem witness_outputKept_done : OutputOk finished ∧ RowsOk finished ∧ finished.kind = .encode ∧ finished.pk = .done ∧
    InflMonotone finished.par ∧ RoundTrip finished.par finished.cfg [] ∧
    RoundTrip finished.par finished.cfg finished.defl.input :=
  ⟨finished_output, finished_rows, rfl, rfl, finished_transforms⟩

theorem witness_deadSession : (teardown .crcMismatch [] midway).err ≠ none ∧
    ∃ t, exec (.decPush [1]) (teardown .crcMismatch [] midway) = .next t := ⟨by decide, goes (by decide)⟩

theorem witness_writersOnly : (∃ t, exec .dbServe midway = .next t) ∧ writes .cfg .dbServe = false ∧
    writes .deflIn .dbServe = false := ⟨goes (by decide), by decide, by decide⟩

theorem witness_onlyForward : (∃ t, exec .decDispose midway = .next t) ∧
    ({ midway with db := { midway.db with phase := .disposed } } : State).db.phase = .disposed :=
  ⟨goes (by decide), rfl⟩

theorem witness_drainOnce : pausedBuffer.db.phase = .opened ∧ (∃ t, request 1 false .user0 pausedBuffer = .next t) ∧
    ∃ t, exec (.dbRequest 1 false .user0) pausedBuffer = .next t ∧ pausedBuffer.db.paused = true ∧ t.db.paused = false :=
  ⟨by decide, goes (by decide), _, rfl, rfl, rfl⟩

theorem witness_streamConserved : ∃ t, exec (.dbPush [4]) pausedBuffer = .next t ∧ t.db.phase = .opened ∧
    pausedBuffer.err = none ∧ hasBuffer pausedBuffer.kind = true ∧ delivery (.dbPush [4]) = false := ⟨_, rfl, rfl, rfl, rfl, rfl⟩

/-- Deliveries: two bytes of three by `DB.SERVE` and by the tag's row. -/
theorem witness_streamConserved_delivery :
    let s := suspended [[1, 2, 3]] 2 false .user0 (fresh .buffer)
    s.err = none ∧ hasBuffer s.kind = true ∧ delivery .dbServe = true ∧ delivery (.kUser0 [1, 2]) = true ∧
    (∃ t, exec .dbServe s = .next t ∧ t.db.phase = .opened ∧ t.db.blocks = [[3]]) ∧
    ∃ t, exec (.kUser0 [1, 2]) s = .next t ∧ t.db.phase = .opened ∧ t.db.blocks = [[3]] :=
  ⟨rfl, rfl, rfl, rfl, ⟨_, rfl, rfl, rfl⟩, _, rfl, rfl, rfl⟩

theorem witness_takefront : 4 ≤ buffered [[1, 2, 3], [4]] ∧ (∀ b ∈ [[1, 2, 3], [4]], b ≠ ([] : List Byte)) ∧ 0 < 4 := by
  decide

theorem witness_pushAppends : midway.err = none ∧ midway.db.phase = .opened ∧ ([7] : List Byte) ≠ [] ∧
    exceeds midway.par.capacity (buffered midway.db.blocks + [(7 : Byte)].length) = false ∧
    hasBuffer midway.kind = true ∧ midway.kind = .decode := by decide

theorem witness_requestQueues : pausedBuffer.kind = .buffer ∧ pausedBuffer.err = none ∧ pausedBuffer.db.phase = .opened ∧
    isParserTag .user5 = false ∧ (true = true → 0 < 1) ∧
    exceeds pausedBuffer.par.maxReads (pausedBuffer.db.reads.length + 1) = false := by decide

/-- A buffer in another phase. -/
def inPhase (phase : DbPhase) (s : State) : State := { s with db := { s.db with phase := phase } }

theorem witness_bufferErrors :
    (inPhase .closing midway).err = none ∧ (inPhase .closing midway).db.phase ≠ .opened ∧
    hasBuffer (inPhase .closing midway).kind = true ∧ (inPhase .closing midway).kind = .decode ∧
    (inPhase .finalized pausedBuffer).kind = .buffer ∧ (inPhase .finalized pausedBuffer).db.phase = .finalized ∧
    (inPhase .disposed pausedBuffer).db.phase = .disposed ∧ isParserTag .user0 = false := by decide

theorem witness_bufferEnds :
    pausedBuffer.err = none ∧ hasBuffer pausedBuffer.kind = true ∧ pausedBuffer.db.reads = [] ∧ midway.kind = .decode ∧
    (inPhase .closing pausedBuffer).db.phase = .closing ∧
    (inPhase .closing (suspended [[1]] 2 false .user0 (fresh .buffer))).db.reads =
      { length := 2, allowLess := false, tag := .user0 } :: [] ∧
    buffered (inPhase .closing (suspended [[1]] 2 false .user0 (fresh .buffer))).db.blocks < 2 ∧
    buffered (inPhase .closing (suspended [] 5 true .user0 (fresh .buffer))).db.blocks = 0 ∧
    serveEnabled (inPhase .closing (suspended [[1]] 1 false .user0 (fresh .buffer))) = true ∧
    Serving pausedBuffer := by unfold Serving; decide

theorem witness_closeIsPushThenClose : ([9] : List Byte) ≠ [] := by decide

theorem witness_delivery :
    BufferOk midway ∧ midway.kind = .decode ∧ serveEnabled midway = true ∧
    BufferOk (suspended [[1, 2, 3]] 3 false .user0 (fresh .buffer)) ∧ isParserTag .user0 = false ∧
    serveEnabled (suspended [[1, 2, 3]] 3 false .user0 (fresh .buffer)) = true ∧
    serveEnabled (suspended [[1, 2, 3]] 4 false .user0 (fresh .buffer)) = false ∧
    delivers .user0 [1, 2, 3] (suspended [[1, 2, 3]] 3 false .user0 (fresh .buffer)) = true :=
  ⟨midway_buffer, by decide, by decide, ⟨by decide, by decide, by decide⟩, by decide, by decide, by decide, by decide⟩

/-- S5: blocks of sizes 3, 5, 2 and exact reads of 4 and 6. -/
def sliced : State :=
  { fresh .buffer with
    db := { blocks := [[0, 1, 2], [3, 4, 5, 6, 7], [8, 9]], paused := false, phase := .opened
            reads := [{ length := 4, allowLess := false, tag := .user0 },
                      { length := 6, allowLess := false, tag := .user1 }] } }

theorem witness_exactSlices : sliced.kind = .buffer ∧ sliced.err = none ∧ sliced.db.phase = .opened ∧
    (∀ r ∈ sliced.db.reads, r.allowLess = false ∧ isParserTag r.tag = false) ∧
    (sliced.db.reads.map Request.length).sum ≤ buffered sliced.db.blocks := by decide

theorem witness_backpressure : (fresh .buffer).kind = .buffer ∧ (fresh .buffer).err = none ∧
    (fresh .buffer).db.reads = [] ∧ (fresh .buffer).db.phase = .opened ∧
    ∃ t, exec (.dbPush [1]) (fresh .buffer) = .next t ∧ (∃ u, exec (.dbPush [2]) t = .next u) ∧
      ∃ v, exec (.dbRequest 1 true .user0) t = .next v :=
  ⟨rfl, rfl, rfl, rfl, _, rfl, ⟨_, rfl⟩, ⟨_, rfl⟩⟩

theorem witness_crcCommands : (seeded 5).kind = .crc ∧ (seeded 5).err = none ∧ (seeded 5).crc.seeded = true ∧
    (fresh .crc).kind = .crc ∧ (fresh .crc).err = none ∧ (fresh .crc).crc.seeded = false ∧ ([0x61] : List Byte) ≠ [] := by
  decide

theorem witness_crcFunction : (fresh .crc).kind = .crc ∧ (fresh .crc).err = none ∧ (seeded 5).kind = .crc := by
  decide

theorem witness_crcSensitivity : (0x8F : Byte) ≠ 0x8E ∧ crcByte 5 0x8F = crcByte 5 0x8F ∧
    (tblEntry 1).extractLsb' 24 8 = (tblEntry 1).extractLsb' 24 8 := by decide

theorem witness_parserOpens :
    startPending (State.fresh .decode Config.Params.initial) = true ∧
    exceeds (State.fresh .decode Config.Params.initial).par.maxReads 1 = false ∧
    Delivers .sig signature (suspended [signature] 8 false .sig (fresh .decode)) ∧
    RoomForRead (suspended [signature] 8 false .sig (fresh .decode)) ∧
    Delivers .sig [0, 0, 0, 0, 0, 0, 0, 0] (suspended [[0, 0, 0, 0, 0, 0, 0, 0]] 8 false .sig (fresh .decode)) ∧
    ([0, 0, 0, 0, 0, 0, 0, 0] : List Byte) ≠ [0x89, 0x50, 0x4E, 0x47, 0x0D, 0x0A, 0x1A, 0x0A] := by
  unfold Delivers RoomForRead; decide

theorem witness_missingHeader :
    Delivers .hdr (headerBytes 0x74455874 2) (atHeader (headerBytes 0x74455874 2) (fresh .decode)) ∧
    (atHeader (headerBytes 0x74455874 2) (fresh .decode)).p.hasIHDR = false ∧ (0x74455874 : Word) ≠ 0x49484452 := by
  unfold Delivers; decide

theorem witness_headerDispatch :
    Delivers .hdr (headerBytes tyIHDR 13) (atHeader (headerBytes tyIHDR 13) (fresh .decode)) ∧
    (atHeader (headerBytes tyIHDR 13) (fresh .decode)).p.hasIHDR = false ∧
    RoomForRead (atHeader (headerBytes tyIHDR 13) (fresh .decode)) ∧ (headed 1 1 6).p.hasIHDR = true ∧
    Delivers .hdr (headerBytes tyPLTE 0xFFFFFFFF) (atHeader (headerBytes tyPLTE 0xFFFFFFFF) (headed 1 1 6)) ∧
    Delivers .hdr (headerBytes tyTRNS 0) (atHeader (headerBytes tyTRNS 0) (headed 1 1 6)) ∧
    Delivers .hdr (headerBytes tyGAMA 4) (atHeader (headerBytes tyGAMA 4) (headed 1 1 6)) ∧
    Delivers .hdr (headerBytes tyIEND 0) (atHeader (headerBytes tyIEND 0) (headed 1 1 6)) := by
  unfold Delivers RoomForRead; decide

theorem witness_idatDispatch :
    Delivers .hdr (headerBytes tyIDAT 5) (atHeader (headerBytes tyIDAT 5) (headed 2 2 3)) ∧
    (headed 2 2 3).p.hasIHDR = true ∧ (headed 2 2 3).h.colorType = 3 ∧ (headed 2 2 3).pal.size = 0 ∧
    Delivers .hdr (headerBytes tyIDAT 0) (atHeader (headerBytes tyIDAT 0) (headed 1 1 6)) ∧
    (headed 1 1 6).h.colorType ≠ 3 ∧ RoomForRead (atHeader (headerBytes tyIDAT 0) (headed 1 1 6)) ∧
    paletted.h.colorType = 3 ∧ paletted.pal.size ≠ 0 := by unfold Delivers RoomForRead; decide

theorem witness_unknownChunks :
    Delivers .hdr (headerBytes 0x74455874 0xFFFFFFFF) (atHeader (headerBytes 0x74455874 0xFFFFFFFF) (headed 1 1 6)) ∧
    unknownType 0x74455874 = true ∧ (0x74455874 : Word).getLsbD 29 = true ∧
    Delivers .hdr (headerBytes 0x41424344 0) (atHeader (headerBytes 0x41424344 0) (headed 1 1 6)) ∧
    unknownType 0x41424344 = true ∧ (0x41424344 : Word).getLsbD 29 = false ∧ (headed 1 1 6).p.hasIHDR = true ∧
    RoomForRead (atHeader (headerBytes 0x74455874 0xFFFFFFFF) (headed 1 1 6)) := by unfold Delivers RoomForRead; decide

/-- A decode session with an IHDR payload about to be delivered. -/
def atIhdr (data : List Byte) : State := atPayload .ihdr data 0x575E51F5 (fresh .decode)

theorem witness_ihdrAccepted :
    Delivers .ihdr (bytes32 1 ++ bytes32 0xFFFFFFFF ++ [8, 6, 0, 0, 0])
      (atIhdr (bytes32 1 ++ bytes32 0xFFFFFFFF ++ [8, 6, 0, 0, 0])) ∧
    RoomForRead (atIhdr (bytes32 1 ++ bytes32 0xFFFFFFFF ++ [8, 6, 0, 0, 0])) ∧ (6 : Byte) ∈ [0, 2, 3, 4, 6] ∧
    exceeds (atIhdr (bytes32 1 ++ bytes32 0xFFFFFFFF ++ [8, 6, 0, 0, 0])).par.maxPixels
      ((1 : Word).toNat * (0xFFFFFFFF : Word).toNat) = false := by unfold Delivers RoomForRead; decide

/-- V42.33 to V42.36, and V42.32: each of the five checks is the first to fail. -/
theorem witness_ihdrChecks :
    Delivers .ihdr (bytes32 1 ++ bytes32 1 ++ [16, 7, 1, 1, 1]) (atIhdr (bytes32 1 ++ bytes32 1 ++ [16, 7, 1, 1, 1])) ∧
    Delivers .ihdr (bytes32 1 ++ bytes32 1 ++ [8, 7, 1, 1, 1]) (atIhdr (bytes32 1 ++ bytes32 1 ++ [8, 7, 1, 1, 1])) ∧
    Delivers .ihdr (bytes32 1 ++ bytes32 1 ++ [8, 6, 1, 1, 1]) (atIhdr (bytes32 1 ++ bytes32 1 ++ [8, 6, 1, 1, 1])) ∧
    Delivers .ihdr (bytes32 1 ++ bytes32 1 ++ [8, 6, 0, 1, 1]) (atIhdr (bytes32 1 ++ bytes32 1 ++ [8, 6, 0, 1, 1])) ∧
    Delivers .ihdr (bytes32 1 ++ bytes32 1 ++ [8, 6, 0, 0, 1]) (atIhdr (bytes32 1 ++ bytes32 1 ++ [8, 6, 0, 0, 1])) ∧
    (7 : Byte) ∉ [0, 2, 3, 4, 6] := by unfold Delivers; decide

/-- A palette with one entry of room. -/
def nearlyFull : State := { headed 2 1 3 with pal := { size := 255, mem := [] } }

theorem witness_paletteFilled :
    Delivers .plte [1, 2, 3] (atPayload .plte [1, 2, 3] 0 nearlyFull) ∧
    RoomForRead (atPayload .plte [1, 2, 3] 0 nearlyFull) ∧ nearlyFull.pal.size + [1, 2, 3].length / 3 ≤ 256 ∧
    Delivers .trns [] (atPayload .trns [] 0 (headed 2 2 3)) ∧ (headed 2 2 3).pal.size = 0 ∧
    (headed 2 2 3).h.colorType = 3 ∧ Delivers .trns [1, 2, 3, 4] (atPayload .trns [1, 2, 3, 4] 0 paletted) ∧
    paletted.pal.size < [1, 2, 3, 4].length ∧ Delivers .trns [1, 2, 3] (atPayload .trns [1, 2, 3] 0 paletted) ∧
    [1, 2, 3].length ≤ paletted.pal.size ∧ RoomForRead (atPayload .trns [1, 2, 3] 0 paletted) := by
  unfold Delivers RoomForRead; decide

theorem witness_transparencyIgnored : Delivers .trns [0, 0, 0, 0, 0, 0] (atPayload .trns [0, 0, 0, 0, 0, 0] 0 (headed 1 1 2)) ∧
    RoomForRead (atPayload .trns [0, 0, 0, 0, 0, 0] 0 (headed 1 1 2)) ∧ (headed 1 1 2).h.colorType ≠ 3 := by
  unfold Delivers RoomForRead; decide

theorem witness_gammaEndAndSkip :
    Delivers .gama (bytes32 45455) (atPayload .gama (bytes32 45455) 0 (headed 1 1 6)) ∧
    Delivers .iend [] (atPayload .iend [] 0 (headed 1 1 6)) ∧
    Delivers .skip [0, 0, 0, 0] (atPayload .skip [0, 0, 0, 0] 0 (headed 1 1 6)) ∧
    RoomForRead (atPayload .skip [0, 0, 0, 0] 0 (headed 1 1 6)) := by unfold Delivers RoomForRead; decide

theorem witness_idatStreamed :
    Delivers .idat [0x78] (inIdat 11 [0x78, 0x9C]) ∧ RoomForRead (inIdat 11 [0x78, 0x9C]) ∧
    (inIdat 11 [0x78, 0x9C]).infl.live = true ∧ (inIdat 11 [0x78, 0x9C]).infl.ended = false ∧
    (inIdat 11 [0x78, 0x9C]).par.inflRejects.contains ((inIdat 11 [0x78, 0x9C]).infl.input ++ [0x78]) = false ∧
    [(0x78 : Byte)].length < (inIdat 11 [0x78, 0x9C]).p.remaining ∧ Delivers .idat [0xFD] (inIdat 1 [0xFD]) ∧
    ¬ [(0xFD : Byte)].length < (inIdat 1 [0xFD]).p.remaining := by unfold Delivers RoomForRead; decide

/-- U14: a decompressor that rejects the first byte it is given. -/
theorem witness_idatStreamed_rejected :
    let s := { inIdat 11 [0x79] with par := { Config.Params.initial with inflRejects := [[0x79]] } }
    Delivers .idat [0x79] s ∧ s.infl.live = true ∧ s.infl.ended = false ∧
    s.par.inflRejects.contains (s.infl.input ++ [0x79]) = true := by unfold Delivers; decide

theorem witness_crcCheck :
    Delivers .crc (bytes32 0xAE426082) atEnd ∧ (0xAE426082 : Word) = atEnd.crc.acc ^^^ 0xFFFFFFFF ∧
    atEnd.p.hasIEND = true ∧ atEnd.db.reads = [crcRead] ∧ atEnd.cfg.checkCRC = true ∧
    Delivers .crc (bytes32 0x1F15C489) (atPayload .crc (bytes32 0x1F15C489) 0xE0EA3B76 (headed 1 1 6)) ∧
    (0x1F15C489 : Word) = 0xE0EA3B76 ^^^ 0xFFFFFFFF ∧ (headed 1 1 6).p.hasIEND = false ∧
    RoomForRead (atPayload .crc (bytes32 0x1F15C489) 0xE0EA3B76 (headed 1 1 6)) ∧
    Delivers .crc (bytes32 0x1F15C488) (atPayload .crc (bytes32 0x1F15C488) 0xE0EA3B76 (headed 1 1 6)) ∧
    (0x1F15C488 : Word) ≠ 0xE0EA3B76 ^^^ 0xFFFFFFFF ∧
    ({ atEnd with cfg := { atEnd.cfg with checkCRC := false } } : State).cfg.checkCRC = false ∧
    Delivers .crc (bytes32 0xAE426082) (inPhase .closing atEnd) := by unfold Delivers RoomForRead; decide

theorem witness_decodeStops :
    Delivers .ihdr [1] (atIhdr [1]) ∧ Delivers .gama [1, 2, 3] (atPayload .gama [1, 2, 3] 0 (headed 1 1 6)) ∧
    Delivers .iend [1] (atPayload .iend [1] 0 (headed 1 1 6)) ∧
    Delivers .plte [1, 2, 3, 4] (atPayload .plte [1, 2, 3, 4] 0 nearlyFull) ∧
    Delivers .plte [1, 2, 3, 4, 5, 6] (atPayload .plte [1, 2, 3, 4, 5, 6] 0 nearlyFull) ∧
    256 < nearlyFull.pal.size + [1, 2, 3, 4, 5, 6].length / 3 ∧
    Delivers .hdr (headerBytes tyIHDR 13) (atHeader (headerBytes tyIHDR 13) (headed 1 1 6)) ∧
    (headed 1 1 6).p.hasIHDR = true ∧
    Delivers .ihdr (bytes32 0 ++ bytes32 1 ++ [8, 0, 0, 0, 0]) (atIhdr (bytes32 0 ++ bytes32 1 ++ [8, 0, 0, 0, 0])) ∧
    Delivers .ihdr (bytes32 2 ++ bytes32 2 ++ [8, 6, 0, 0, 0])
      { atIhdr (bytes32 2 ++ bytes32 2 ++ [8, 6, 0, 0, 0]) with par := { Config.Params.initial with maxPixels := some 3 } } ∧
    exceeds (some 3) ((2 : Word).toNat * (2 : Word).toNat) = true ∧
    lineEnabled (atLine 1 1 2 0 [] [5, 0, 0, 0]) = true ∧
    finishEnabled { paletted with
      pix := Memory.writeBytes [] 0 [3, 3, 3, 0xFF, 0, 0, 0, 0xFF], fe := { paletted.fe with row := 1 } } = true ∧
    paletted.pal.size ≤ (pixRead (Memory.writeBytes [] 0 [3, 3, 3, 0xFF, 0, 0, 0, 0xFF]) (4 * 0)).toNat := by
  unfold Delivers; decide

theorem witness_transformOut :
    inflated.kind = .decode ∧ inflated.err = none ∧ inflated.fe.live = true ∧ inflated.fe.mode = .decode ∧
    inflated.infl.live = true ∧ inflated.infl.emitted + 5 ≤ (inflateStream inflated.par inflated.infl.input).length ∧
    packed.kind = .encode ∧ packed.err = none ∧ packed.pk = .data ∧ packed.defl.live = true ∧ 11 < 2 ^ 32 ∧
    packed.defl.emitted + 11 ≤ (deflateStream packed.par packed.cfg packed.defl.input packed.defl.ended).length := by
  decide

theorem witness_lineDefiltered : lineEnabled (atLine 3 2 0 0 [] [1, 2, 1, 0xFF, 7]) = true ∧
    (atLine 3 2 0 0 [] [1, 2, 1, 0xFF, 7]).fe.inq.take (1 + 3 * 1) = FilterType.sub.byte :: [2, 1, 0xFF] := by decide

/-- An image of colour type 3 whose rows are all in `PIX`, its indices inside the palette. -/
def unresolved : State :=
  { paletted with
    pix := Memory.writeBytes [] 0 [2, 2, 2, 0xFF, 0, 0, 0, 0xFF], fe := { paletted.fe with row := 1 } }

theorem witness_finish :
    finishEnabled unresolved = true ∧ unresolved.h.colorType = 3 ∧
    (∀ q < unresolved.fe.width * unresolved.fe.height, (pixRead unresolved.pix (4 * q)).toNat < unresolved.pal.size) ∧
    (∃ t, exec .feFinish unresolved = .next t) ∧ finishEnabled (atLine 1 1 6 1 [1, 2, 3, 4] []) = true ∧
    (atLine 1 1 6 1 [1, 2, 3, 4] []).h.colorType ≠ 3 :=
  ⟨by decide, by decide, by decide, goes (by decide), by decide, by decide⟩

/-- A decode session fed the rows of the image of V44.1, row 0 filtered with Paeth, row 1 with Average. -/
def refiltered : State :=
  let s := headed 2 2 6
  let image := Memory.writeBytes [] 0 [0x64, 0xC8, 0x32, 0xFF, 0x96, 0xFA, 0x10, 0xFF, 0x65, 0xCA, 0x35, 0xFF, 0x9A, 0xFF,
    0x16, 0x80]
  { s with fe := { s.fe with
      inq := (List.range 2).flatMap (fun y => filteredRow (if y = 0 then .paeth else .average) (4 * 2) image y) } }

theorem witness_filterInverse : refiltered.kind = .decode ∧ refiltered.err = none ∧ refiltered.fe.live = true ∧
    refiltered.fe.mode = .decode ∧ refiltered.fe.done = false ∧ refiltered.fe.row = 0 ∧ refiltered.fe.bpp = 4 ∧
    refiltered.fe.inq = (List.range refiltered.fe.height).flatMap (fun y =>
      filteredRow (if y = 0 then .paeth else .average) (4 * refiltered.fe.width)
        (Memory.writeBytes [] 0 [0x64, 0xC8, 0x32, 0xFF, 0x96, 0xFA, 0x10, 0xFF, 0x65, 0xCA, 0x35, 0xFF, 0x9A, 0xFF, 0x16,
          0x80]) y) := ⟨rfl, rfl, rfl, rfl, rfl, rfl, rfl, rfl⟩

/-- An image of two black rows, the second one next. -/
def black : State := atRow 1 2 1 [0, 0, 0, 0, 0, 0, 0, 0]

theorem witness_selection :
    candidateTypes (fresh .encode).cfg.candidates = some allFilters ∧
    black.par.cost = .unwrapped ∧ black.cfg.candidates = [0, 1, 2, 3, 4] ∧
    (∀ i < 4 * black.fe.width, rawByte (4 * black.fe.width) black.pix black.fe.row i = 0 ∧
      (0 < black.fe.row → rawByte (4 * black.fe.width) black.pix (black.fe.row - 1) i = 0)) ∧
    (atRow 1 1 0 [0xFF, 0xFF, 0xFF, 0xFF]).fe.width = 1 ∧
    (∀ i < 4, pixRead (atRow 1 1 0 [0xFF, 0xFF, 0xFF, 0xFF]).pix i = 0xFF) := by decide

theorem witness_rowFiltered : enclineEnabled black = true ∧ bestFilter black = some .none ∧
    black.par.deflRejects.contains (black.defl.input ++ [0, 0, 0, 0, 0]) = false ∧
    ({ black.par with deflRejects := [[0, 0, 0, 0, 0]] } : Config.Params).deflRejects.contains
      (black.defl.input ++ [0, 0, 0, 0, 0]) = true := by decide

theorem witness_encodeStart : (fresh .encode).kind = .encode ∧ (fresh .encode).err = none ∧ (fresh .encode).pk = .idle ∧
    exceeds (fresh .encode).par.maxPixels ((1 : Word).toNat * (1 : Word).toNat) = false ∧
    ([1, 2, 3, 4] : List Byte).length = (1 : Word).toNat * (1 : Word).toNat * 4 ∧
    candidateTypes (fresh .encode).cfg.candidates ≠ none := by decide

theorem witness_packerEnds :
    ({ packed with pk := .sig } : State).kind = .encode ∧ packed.err = none ∧ ({ packed with pk := .sig } : State).pk = .sig ∧
    ({ packed with pk := .ihdr } : State).pk = .ihdr ∧ packed.pk = .data ∧ packed.defl.live = true ∧
    packed.defl.ended = true ∧ ({ packed.defl with emitted := 11 } : Transform).emitted = 11 ∧
    (deflateStream packed.par packed.cfg packed.defl.input true).length = 11 := by decide

theorem witness_chunkLayout : (fresh .encode).err = none ∧ (fresh .encode).kind = .encode ∧ ([] : List Byte).length < 2 ^ 32 ∧
    2 ^ 32 ≤ (List.replicate (2 ^ 32) (0 : Byte)).length ∧
    Delivers .crc ((chunkBytes tyIDAT [0xAB]).drop (8 + 1))
      (atPayload .crc ((chunkBytes tyIDAT [0xAB]).drop (8 + 1)) (crcFold (crcFold 0xFFFFFFFF (bytes32 tyIDAT)) [0xAB])
        (headed 1 1 6)) :=
  ⟨by decide, by decide, by decide, by rw [List.length_replicate], by decide, by decide +kernel⟩

theorem witness_commandRefusals :
    hasBuffer pausedBuffer.kind = true ∧ pausedBuffer.err = none ∧ pausedBuffer.db.phase = .opened ∧
    exceeds (some 1) (buffered pausedBuffer.db.blocks + [(4 : Byte)].length) = true ∧ pausedBuffer.kind = .buffer ∧
    exceeds (some 0) (pausedBuffer.db.reads.length + 1) = true ∧ (true = true → 0 < 1) ∧ (false = true → 0 < 0) ∧
    midway.db.phase = .opened ∧ exceeds (some 4) (buffered midway.db.blocks + [(4 : Byte)].length) = true ∧
    hasBuffer (fresh .encode).kind = false ∧ hasBuffer (fresh .crc).kind = false ∧ isParserTag .sig = true ∧ isParserTag .user0 = false ∧
    midway.kind = .decode ∧ packed.kind = .encode ∧ packed.pk ≠ .idle ∧ (fresh .encode).pk = .idle ∧
    exceeds (some 0) ((1 : Word).toNat * (1 : Word).toNat) = true ∧
    ([1, 2, 3] : List Byte).length ≠ (1 : Word).toNat * (1 : Word).toNat * 4 ∧ candidateTypes [1, 2] = none ∧
    (fresh .crc).kind ≠ .encode ∧ (fresh .crc).kind ≠ .decode := by decide

/-- `Obligations.Teardown` and `Obligations.Disposal`, each kind of instance. -/
theorem witness_ends : midway.err = none ∧ midway.kind = .decode ∧ packed.err = none ∧ packed.kind = .encode ∧
    pausedBuffer.err = none ∧ pausedBuffer.kind = .buffer ∧ hasBuffer pausedBuffer.kind = true ∧ (fresh .crc).kind = .crc ∧
    (fresh .crc).err = none := by decide

/-- 60_exceptions.md R372: a dead session raises no second error. -/
theorem test_teardown_twice : view (·.log) (exec (.teardown .crcMismatch [])
    (teardown .invalidSignature [] midway)) = some [.error 1 []] := by decide

end Sys2Proof.Tests
end

section
/-! PROOFS. The scope of the model (spec/00_scope.md): the step and its schedule, byte order and the chunk classes, and the
commands to which the spec gives no meaning. First the equations of the operations concerned, then the statements. -/

namespace Sys2Proof.Proofs

open Sys2Proof.Machine Sys2Proof.Safety Sys2Proof.Laws

/-! ### The step -/

theorem step_of_decode_ok {s : State} {word : List Byte} {rest : List Input} {i : Instr} (ha : s.agenda = .op word :: rest)
    (hd : decode word = .ok i) : step s = exec i { s with agenda := rest } := by
  simp [step, fetch, ha, hd]

theorem step_of_decode_error {s : State} {word : List Byte} {rest : List Input} {r : Reject}
    (ha : s.agenda = .op word :: rest) (hd : decode word = .error r) : step s = .refused (.undecodable r) := by
  simp [step, fetch, ha, hd]

theorem step_of_autoPick_some {s : State} {i : Instr} (ha : s.agenda = []) (hp : autoPick s = some i) :
    step s = exec i s := by
  simp [step, fetch, ha, hp]

theorem step_of_autoPick_none {s : State} (ha : s.agenda = []) (hp : autoPick s = none) : step s = .next s := by
  simp [step, fetch, ha, hp]

/-- Settles O4: the four cases of `fetch`. -/
theorem stepRunsDecoded : Obligations.StepRunsDecoded :=
  ⟨fun _ _ _ ha => ⟨fun _ => step_of_decode_ok ha, fun _ => step_of_decode_error ha⟩,
   fun _ ha => ⟨fun _ => step_of_autoPick_some ha, step_of_autoPick_none ha⟩⟩

/-! ### Byte order and the chunk classes -/

/-- Appending a `k`-bit word below another is shifting the other up by `k` bits and adding. -/
theorem toNat_append_eq_add {n k : Nat} (x : BitVec n) (y : BitVec k) :
    (x ++ y).toNat = x.toNat * 2 ^ k + y.toNat := by
  rw [BitVec.toNat_append, ← Nat.shiftLeft_add_eq_or_of_lt y.isLt, Nat.shiftLeft_eq]

theorem be32_toNat (b0 b1 b2 b3 : Byte) :
    (be32 b0 b1 b2 b3).toNat = b0.toNat * 2 ^ 24 + b1.toNat * 2 ^ 16 + b2.toNat * 2 ^ 8 + b3.toNat := by
  simp only [be32, toNat_append_eq_add]
  omega

/-- The byte of a word at bit `k` is a digit of its value. -/
theorem extractByte_toNat (v : Word) (k : Nat) : (v.extractLsb' k 8).toNat = v.toNat / 2 ^ k % 2 ^ 8 := by
  rw [BitVec.extractLsb'_toNat, Nat.shiftRight_eq_div_pow]

@[simp] theorem bytes32_be32 (b0 b1 b2 b3 : Byte) : bytes32 (be32 b0 b1 b2 b3) = [b0, b1, b2, b3] := by
  simp only [bytes32, List.cons.injEq, and_true, ← BitVec.toNat_inj, extractByte_toNat, be32_toNat]
  omega

/-- Putting the four bytes of a word together gives the word back. -/
theorem be32_extractBytes (v : Word) :
    be32 (v.extractLsb' 24 8) (v.extractLsb' 16 8) (v.extractLsb' 8 8) (v.extractLsb' 0 8) = v := by
  simp only [← BitVec.toNat_inj, be32_toNat, extractByte_toNat]
  omega

/-- A type that is none of the six known ones is classed by its ancillary bit (30_encoding.md R98). -/
theorem classify_of_unknown {ty : Word} (h : ty ∉ [tyIHDR, tyPLTE, tyTRNS, tyGAMA, tyIDAT, tyIEND]) :
    classify ty = if ancillaryBit ty then .ancillary else .critical := by
  simp only [List.mem_cons, List.not_mem_nil, or_false, not_or] at h
  obtain ⟨h1, h2, h3, h4, h5, h6⟩ := h
  rw [classify, if_neg h1, if_neg h2, if_neg h3, if_neg h4, if_neg h5, if_neg h6]

/-- Settles O3. -/
theorem fieldsAndTypes : Obligations.FieldsAndTypes :=
  ⟨⟨fun b0 b1 b2 b3 => ⟨be32_toNat b0 b1 b2 b3, bytes32_be32 b0 b1 b2 b3⟩,
    fun v => ⟨rfl, _, _, _, _, rfl, be32_extractBytes v⟩⟩,
   by decide, by decide, by decide, by decide, by decide, by decide,
   fun _ hty => ⟨fun hbit => (classify_of_unknown hty).trans (if_pos hbit),
    fun hbit => (classify_of_unknown hty).trans (if_neg (ne_true_of_eq_false hbit))⟩⟩

/-! ### The schedule -/

/-- No agent can move by itself: each enabling condition that the schedule asks for is false. -/
structure NothingEnabled (s : State) : Prop where
  serve : serveEnabled s = false
  drain : drainEnabled s = false
  inflOut : inflOutEnabled (inflPending s).length s = false
  line : lineEnabled s = false
  finish : finishEnabled s = false
  sig : packing .sig s = false
  ihdr : packing .ihdr s = false
  encline : enclineEnabled s = false
  deflOut : deflOutEnabled (eagerBlock s) s = false
  deflDone : deflDoneEnabled s = false

theorem nothingEnabled_of_autoPick {s : State} (h : autoPick s = none) : NothingEnabled s := by
  simp only [autoPick, ite_eq_iff, reduceCtorEq, and_false, false_or, and_true, Bool.not_eq_true] at h
  obtain ⟨h1, h2, h3, h4, h5, h6, h7, h8, h9, h10⟩ := h
  exact ⟨h1, h2, h3, h4, h5, h6, h7, h8, h9, h10⟩

/-- A step whose condition is false waits (60_exceptions.md R389). -/
theorem whenEnabled_of_not {b : Bool} {s : State} {o : Out} (h : b = false) : whenEnabled b s o = .next s := by
  rw [h, whenEnabled_false]

/-- 20_memory.md R76: `INFL.OUT` can hand over from one byte to all that is pending. -/
theorem inflOutEnabled_iff (k : Nat) (s : State) : inflOutEnabled k s = true ↔
    defilterLive s = true ∧ s.infl.live = true ∧ 1 ≤ k ∧ k ≤ (inflPending s).length := by
  simp only [inflOutEnabled, Bool.and_eq_true, decide_eq_true_eq, and_assoc]

/-- 20_memory.md R77, 45_chunk_packer.md R324: `DEFL.OUT` can hand over from one byte to all that is pending and one chunk can
carry. -/
theorem deflOutEnabled_iff (k : Nat) (s : State) : deflOutEnabled k s = true ↔
    packing .data s = true ∧ s.defl.live = true ∧ 1 ≤ k ∧ k ≤ (deflPending s).length ∧ k < 2 ^ 32 := by
  simp only [deflOutEnabled, Bool.and_eq_true, decide_eq_true_eq, and_assoc]

/-- If `INFL.OUT` can hand over some of its output, it can hand over all of it. -/
theorem inflOutEnabled_all {k : Nat} {s : State} (h : inflOutEnabled k s = true) :
    inflOutEnabled (inflPending s).length s = true := by
  obtain ⟨hengine, hlive, hpos, hle⟩ := (inflOutEnabled_iff k s).1 h
  exact (inflOutEnabled_iff _ s).2 ⟨hengine, hlive, hpos.trans hle, le_rfl⟩

/-- If `DEFL.OUT` can hand over some block, it can hand over the eager one. -/
theorem deflOutEnabled_eager {k : Nat} {s : State} (h : deflOutEnabled k s = true) :
    deflOutEnabled (eagerBlock s) s = true := by
  obtain ⟨hpacking, hlive, hpos, hle, hlt⟩ := (deflOutEnabled_iff k s).1 h
  have hfits : 1 ≤ eagerBlock s ∧ eagerBlock s ≤ (deflPending s).length ∧ eagerBlock s < 2 ^ 32 := by
    unfold eagerBlock
    omega
  exact (deflOutEnabled_iff _ s).2 ⟨hpacking, hlive, hfits⟩

/-- A request that some number of buffered bytes answers can be served. -/
theorem servable_of_answers {r : Request} {k : Nat} {blocks : List (List Byte)} (h : answers r k blocks = true) :
    servable r blocks = true := by
  cases hl : r.allowLess with
  | true =>
    simp only [answers, servable, hl, if_true, decide_eq_true_eq] at h ⊢
    omega
  | false =>
    simp only [answers, servable, hl, Bool.false_eq_true, if_false, decide_eq_true_eq] at h ⊢
    omega

/-- Where some delivery is enabled, `DB.SERVE` is. -/
theorem serveEnabled_of_delivers {tag : Tag} {data : List Byte} {s : State} (h : delivers tag data s = true) :
    serveEnabled s = true := by
  obtain ⟨hs, r, rest, hq, _, ha, _⟩ := (delivers_iff tag data s).1 h
  simp [serveEnabled, hs, hq, servable_of_answers ha]

theorem parserStep_eq_deliver {tag : Tag} {rule : List Byte → State → Out}
    (hr : ∀ data t, t.kind = .decode → deliver tag data t = rule data t) (data : List Byte) (s : State) :
    parserStep tag rule data s =
      whenEnabled (s.kind == .decode && delivers tag data s) s (deliver tag data (served data.length s)) := by
  by_cases hk : s.kind = .decode
  · rw [parserStep, hr _ _ (by simpa using hk)]
  · have hk : (s.kind == .decode) = false := beq_false_of_ne hk
    simp [parserStep, hk]

/-- A tag's row is the delivery of its bytes to that tag, where it is enabled; a parser's tag needs a decode session
(41_demand_buffer.md R175, log 5). -/
theorem exec_tagInstr (tag : Tag) (data : List Byte) (s : State) :
    exec (tagInstr tag data) s =
      whenEnabled ((!isParserTag tag || s.kind == .decode) && delivers tag data s) s
        (deliver tag data (served data.length s)) := by
  cases tag
  case user0 | user1 | user2 | user3 | user4 | user5 => rfl
  all_goals exact parserStep_eq_deliver (fun _ t ht => by simp [deliver, ht]) data s

/-- A delivery that is not enabled waits (60_exceptions.md R389). -/
theorem exec_tagInstr_of_not_delivers {tag : Tag} {data : List Byte} {s : State} (h : delivers tag data s = false) :
    exec (tagInstr tag data) s = .next s := by
  simp [exec_tagInstr, h]

/-- Settles O6: an operation is enabled only where the schedule finds one, since `INFL.OUT`, `DEFL.OUT` and `DB.SERVE` are
enabled in their eager form where they are in any. -/
theorem scheduleIsComplete : Obligations.ScheduleIsComplete := by
  intro s h
  have hn := nothingEnabled_of_autoPick h
  have hinfl (k : Nat) : inflOutEnabled k s = false :=
    Bool.eq_false_iff.2 fun hk => ne_true_of_eq_false hn.inflOut (inflOutEnabled_all hk)
  have hdefl (k : Nat) : deflOutEnabled k s = false :=
    Bool.eq_false_iff.2 fun hk => ne_true_of_eq_false hn.deflOut (deflOutEnabled_eager hk)
  have hdel (tag : Tag) (data : List Byte) : delivers tag data s = false :=
    Bool.eq_false_iff.2 fun hk => ne_true_of_eq_false hn.serve (serveEnabled_of_delivers hk)
  exact ⟨whenEnabled_of_not hn.serve, whenEnabled_of_not hn.drain, fun k => whenEnabled_of_not (hinfl k),
    whenEnabled_of_not hn.line, whenEnabled_of_not hn.finish, whenEnabled_of_not hn.sig, whenEnabled_of_not hn.ihdr,
    whenEnabled_of_not hn.encline, fun k => whenEnabled_of_not (hdefl k), whenEnabled_of_not hn.deflDone,
    fun tag data => exec_tagInstr_of_not_delivers (hdel tag data)⟩

/-! ### Who may use a port -/

/-- A command of a live session whose instance has a Demand Buffer runs its rule. -/
theorem bufferCommand_of_hasBuffer {s : State} (he : s.err = none) (hb : hasBuffer s.kind = true) (f : State → Out) :
    bufferCommand s f = f { s with started := true } :=
  (command_live he _).trans (if_pos hb)

theorem bufferCommand_absent {s : State} (he : s.err = none) (hb : hasBuffer s.kind = false) (f : State → Out) :
    bufferCommand s f = .refused .unitAbsent :=
  (command_live he _).trans (if_neg (ne_true_of_eq_false hb))

theorem decCommand_of_decode {s : State} (he : s.err = none) (hk : s.kind = .decode) (f : State → Out) :
    decCommand s f = f { s with started := true } :=
  (command_live he _).trans (if_pos hk)

theorem decCommand_absent {s : State} (he : s.err = none) (hk : s.kind ≠ .decode) (f : State → Out) :
    decCommand s f = .refused .unitAbsent :=
  (command_live he _).trans (if_neg hk)

theorem encCommand_of_encode {s : State} (he : s.err = none) (hk : s.kind = .encode) (f : State → Out) :
    encCommand s f = f { s with started := true } :=
  (command_live he _).trans (if_pos hk)

theorem encCommand_absent {s : State} (he : s.err = none) (hk : s.kind ≠ .encode) (f : State → Out) :
    encCommand s f = .refused .unitAbsent :=
  (command_live he _).trans (if_neg hk)

/-- A session owns its CRC Engine (93 U3). -/
theorem crcCommand_owned {s : State} (he : s.err = none) (hk : s.kind = .decode ∨ s.kind = .encode) (f : State → Out) :
    crcCommand s f = .refused .ownedBySession := by
  rw [crcCommand, command_live he]
  rcases hk with hk | hk <;> simp only [hk]

theorem crcCommand_absent {s : State} (he : s.err = none) (hk : s.kind = .buffer) (f : State → Out) :
    crcCommand s f = .refused .unitAbsent := by
  rw [crcCommand, command_live he]
  simp only [hk]

/-! ### What the Demand Buffer refuses -/

theorem pushBlock_empty {s : State} (hp : s.db.phase = .opened) : pushBlock [] s = .refused .emptyPush := by
  simp [pushBlock, hp]

theorem pushBlock_full {bytes : List Byte} {s : State} (hp : s.db.phase = .opened) (hb : bytes ≠ [])
    (hc : exceeds s.par.capacity (buffered s.db.blocks + bytes.length) = true) :
    pushBlock bytes s = .refused .bufferFull := by
  simp [pushBlock, hp, hb, hc]

/-- A close with bytes pushes them first (41_demand_buffer.md R165), and is refused where the push is. -/
theorem closeBuffer_full {bytes : List Byte} {s : State} (hp : s.db.phase = .opened) (hb : bytes ≠ [])
    (hc : exceeds s.par.capacity (buffered s.db.blocks + bytes.length) = true) :
    closeBuffer bytes s = .refused .bufferFull := by
  simp [closeBuffer, hp, hb, pushBlock_full hp hb hc, andThen]

theorem request_emptyAtMost {tag : Tag} {s : State} (hp : s.db.phase = .opened ∨ s.db.phase = .closing) :
    request 0 true tag s = .refused .emptyAtMostRead := by
  rcases hp with hp | hp <;> simp [request, hp]

theorem request_full {length : Nat} {allowLess : Bool} {tag : Tag} {s : State}
    (hp : s.db.phase = .opened ∨ s.db.phase = .closing) (hn : allowLess = true → 0 < length)
    (hr : exceeds s.par.maxReads (s.db.reads.length + 1) = true) :
    request length allowLess tag s = .refused .readsFull := by
  have hn : ¬ (allowLess = true ∧ length = 0) := fun ⟨ha, hz⟩ => (hn ha).ne' hz
  rcases hp with hp | hp <;> simp [request, hp, hn, hr]

/-- From outside, a decode session's buffer and the parser's tags belong to the session (93 U3). -/
theorem execDbRequest_owned {length : Nat} {allowLess : Bool} {tag : Tag} {s : State} (he : s.err = none)
    (hb : hasBuffer s.kind = true) (ho : s.kind = .decode ∨ isParserTag tag = true) :
    execDbRequest length allowLess tag s = .refused .ownedBySession :=
  (bufferCommand_of_hasBuffer he hb _).trans (if_pos ho)

/-- A client's request to a Demand Buffer on its own is the buffer's `request`. -/
theorem execDbRequest_client {length : Nat} {allowLess : Bool} {tag : Tag} {s : State} (he : s.err = none)
    (hk : s.kind = .buffer) (ht : isParserTag tag = false) :
    execDbRequest length allowLess tag s = request length allowLess tag { s with started := true } :=
  (bufferCommand_of_hasBuffer he (by rw [hk]; rfl) _).trans (if_neg (by simp [hk, ht]))

/-! ### What `ENC.START` refuses, in the order of log 15 -/

section EncStart

variable {width height : Word} {pixels : List Byte} {s : State}

theorem execEncStart_notIdle (he : s.err = none) (hk : s.kind = .encode) (hi : s.pk ≠ .idle) :
    execEncStart width height pixels s = .refused .notIdle :=
  (encCommand_of_encode he hk _).trans (if_pos hi)

theorem execEncStart_zeroDimension (he : s.err = none) (hk : s.kind = .encode) (hi : s.pk = .idle)
    (hz : width = 0 ∨ height = 0) : execEncStart width height pixels s = .refused .zeroDimension := by
  rw [execEncStart, encCommand_of_encode he hk, if_neg (not_not.2 hi), if_pos hz]

theorem execEncStart_tooManyPixels (he : s.err = none) (hk : s.kind = .encode) (hi : s.pk = .idle) (hw : width ≠ 0)
    (hh : height ≠ 0) (hm : exceeds s.par.maxPixels (width.toNat * height.toNat) = true) :
    execEncStart width height pixels s = .refused .tooManyPixels := by
  rw [execEncStart, encCommand_of_encode he hk, if_neg (not_not.2 hi), if_neg (not_or.2 ⟨hw, hh⟩), if_pos hm]

theorem execEncStart_pixelCount (he : s.err = none) (hk : s.kind = .encode) (hi : s.pk = .idle) (hw : width ≠ 0)
    (hh : height ≠ 0) (hm : exceeds s.par.maxPixels (width.toNat * height.toNat) = false)
    (hl : pixels.length ≠ width.toNat * height.toNat * 4) :
    execEncStart width height pixels s = .refused .pixelCount := by
  rw [execEncStart, encCommand_of_encode he hk, if_neg (not_not.2 hi), if_neg (not_or.2 ⟨hw, hh⟩),
    if_neg (ne_true_of_eq_false hm), if_pos hl]

theorem execEncStart_illegalCandidates (he : s.err = none) (hk : s.kind = .encode) (hi : s.pk = .idle) (hw : width ≠ 0)
    (hh : height ≠ 0) (hm : exceeds s.par.maxPixels (width.toNat * height.toNat) = false)
    (hl : pixels.length = width.toNat * height.toNat * 4) (hc : candidateTypes s.cfg.candidates = none) :
    execEncStart width height pixels s = .refused .illegalCandidates := by
  rw [execEncStart, encCommand_of_encode he hk, if_neg (not_not.2 hi), if_neg (not_or.2 ⟨hw, hh⟩),
    if_neg (ne_true_of_eq_false hm), if_neg (not_not.2 hl), if_pos hc]

end EncStart

/-! ### The refusals of the commands -/

/-- An open buffer refuses an empty push, and a push or close beyond its capacity, at both ports. -/
theorem pushRefusals {s : State} (he : s.err = none) (hp : s.db.phase = .opened) :
    (hasBuffer s.kind = true → exec (.dbPush []) s = .refused .emptyPush) ∧
    (s.kind = .decode → exec (.decPush []) s = .refused .emptyPush) ∧
    ∀ bytes, bytes ≠ [] → exceeds s.par.capacity (buffered s.db.blocks + bytes.length) = true →
      (hasBuffer s.kind = true → exec (.dbPush bytes) s = .refused .bufferFull ∧
        exec (.dbClose bytes) s = .refused .bufferFull) ∧
      (s.kind = .decode → exec (.decPush bytes) s = .refused .bufferFull ∧
        exec (.decClose bytes) s = .refused .bufferFull) := by
  refine ⟨fun hk => ?_, fun hk => ?_, fun bytes hb hc => ⟨fun hk => ⟨?_, ?_⟩, fun hk => ⟨?_, ?_⟩⟩⟩
  · exact (bufferCommand_of_hasBuffer he hk _).trans (pushBlock_empty hp)
  · exact (decCommand_of_decode he hk _).trans (pushBlock_empty hp)
  · exact (bufferCommand_of_hasBuffer he hk _).trans (pushBlock_full hp hb hc)
  · exact (bufferCommand_of_hasBuffer he hk _).trans (closeBuffer_full hp hb hc)
  · exact (decCommand_of_decode he hk _).trans (pushBlock_full hp hb hc)
  · exact (decCommand_of_decode he hk _).trans (closeBuffer_full hp hb hc)

/-- Settles O57: a command that its port lets through is its rule, which refuses it; another is refused by the port. -/
theorem commandRefusals : Obligations.CommandRefusals := by
  refine ⟨fun s he => ⟨pushRefusals he, ?owned, ?client, ?noBuffer⟩, fun bytes s he => ⟨?crcOwned, ?crcAbsent⟩,
    fun width height pixels last s he => ⟨?encode, ?notEncode, ?notDecode⟩⟩
  case owned => exact fun _ _ _ hb ho => execDbRequest_owned he hb ho
  case client =>
    exact fun tag hk ht hp => ⟨(execDbRequest_client he hk ht).trans (request_emptyAtMost hp),
      fun _ _ hn hr => (execDbRequest_client he hk ht).trans (request_full hp hn hr)⟩
  case noBuffer =>
    intro hb
    simp [execDbDispose, execDbPush, execDbClose, execDbRequest, bufferCommand_absent he hb]
  case crcOwned =>
    intro hk
    simp [execCrcInit, execCrcUpdate, execCrcFinal, crcCommand_owned he hk]
  case crcAbsent =>
    intro hk
    simp [execCrcInit, execCrcUpdate, execCrcFinal, crcCommand_absent he hk]
  case encode =>
    exact fun hk => ⟨execEncStart_notIdle he hk, execEncStart_zeroDimension he hk, fun hi hw hh =>
      ⟨execEncStart_tooManyPixels he hk hi hw hh, fun hm =>
        ⟨execEncStart_pixelCount he hk hi hw hh hm, execEncStart_illegalCandidates he hk hi hw hh hm⟩⟩⟩
  case notEncode =>
    intro hk
    simp [execEncStart, execEncDispose, encCommand_absent he hk]
  case notDecode =>
    intro hk
    simp [execDecPush, execDecClose, execDecDispose, decCommand_absent he hk]

end Sys2Proof.Proofs
end

section
/-! PROOFS. The state (spec/10_state.md): which pieces an operation writes, what it leaves of the two memories and of the
header registers, and the invariants of a constructed session. Each rule about every operation is a case analysis of
`Did`. -/

namespace Sys2Proof.Proofs

open Sys2Proof.Machine Sys2Proof.Safety Sys2Proof.Laws

/-! ### A constructed session

Each invariant holds of a session of any kind right after its construction, whatever its parameters and whatever is left on
the agenda (70_reset_and_hazards.md R400). -/

section Constructed

variable (k : Kind) (par : Config.Params) (rest : List Input)

theorem memoryOk_construct : MemoryOk { State.construct k par with agenda := rest } := ⟨rfl, rfl⟩

theorem bufferOk_construct : BufferOk { State.construct k par with agenda := rest } where
  blocks _ hb := nomatch hb
  reads r hr ha := by
    cases k <;> simp only [State.construct, firstReads, List.mem_singleton, List.not_mem_nil] at hr
    subst hr
    cases ha
  ended h := by rcases h with h | h <;> cases h

/-- A decode session waits for its signature, which is the read that reset has queued (42_chunk_parser.md R191). -/
theorem parserInv_construct : ParserInv { State.construct k par with agenda := rest } := by
  rintro (rfl : k = .decode) _
  exact
    { reads := rfl
      idat := nofun
      first := nofun
      later := by rintro (⟨h, _⟩ | h | h) <;> cases h
      ended := nofun
      infl := ⟨rfl, rfl⟩ }

theorem headerOk_construct : HeaderOk { State.construct k par with agenda := rest } := nofun

theorem engineOk_construct : EngineOk { State.construct k par with agenda := rest } where
  decode := nofun
  encode := nofun
  row := le_rfl

theorem pixelsOk_construct : PixelsOk { State.construct k par with agenda := rest } where
  decode := nofun
  encode := nofun

theorem paletteOk_construct : PaletteOk { State.construct k par with agenda := rest } where
  size := Nat.zero_le _
  mem a := by simp [State.construct, State.fresh]

theorem errorOk_construct : ErrorOk { State.construct k par with agenda := rest } where
  quiet _ _ he := nomatch he
  latched := nofun

theorem outputOk_construct : OutputOk { State.construct k par with agenda := rest } := fun _ => ⟨rfl, rfl⟩

theorem rowsOk_construct : RowsOk { State.construct k par with agenda := rest } where
  idle _ _ := ⟨rfl, rfl⟩
  rows := nofun

end Constructed

/-- Settles O8: `State.reset` is a constructed session (70_reset_and_hazards.md R401). -/
theorem resetInvariants : Obligations.ResetInvariants :=
  ⟨memoryOk_construct .decode .initial [], bufferOk_construct .decode .initial [], parserInv_construct .decode .initial [],
    headerOk_construct .decode .initial [], engineOk_construct .decode .initial [], pixelsOk_construct .decode .initial [],
    paletteOk_construct .decode .initial [], errorOk_construct .decode .initial [], outputOk_construct .decode .initial [],
    rowsOk_construct .decode .initial []⟩

/-- An encode session waits for its first command: every internal step needs another kind or another packer phase
(70_reset_and_hazards.md R402). -/
theorem autoPick_construct_encode (par : Config.Params) : autoPick (State.construct .encode par) = none := rfl

/-- A Demand Buffer on its own starts with nothing to serve, and is not closing (70_reset_and_hazards.md R403). -/
theorem autoPick_construct_buffer (par : Config.Params) : autoPick (State.construct .buffer par) = none := rfl

/-- Settles O7: the values that the construction of each kind writes out. -/
theorem resetValues : Obligations.ResetValues :=
  ⟨⟨rfl, rfl, rfl, rfl, rfl, rfl, rfl, rfl, rfl, rfl, rfl, rfl, rfl⟩, fun par =>
    ⟨⟨rfl, rfl, rfl, rfl, rfl, rfl, rfl, autoPick_construct_encode par⟩, rfl, autoPick_construct_buffer par⟩⟩

/-! ### The two memories -/

/-- What an operation leaves of `PIX`: the same memory, an empty one, the pixels of `ENC.START`, a defiltered scanline, or
the palette pass (20_memory.md R60). -/
inductive PixStep (pal : Palette) (m : Memory) : Memory → Prop
  | same : PixStep pal m m
  | allocate : PixStep pal m []
  | load (pixels : List Byte) : PixStep pal m (Memory.writeBytes [] 0 pixels)
  | line (f : FilterType) (w bpp y : Nat) (data : List Byte) : PixStep pal m (defilt f w bpp y data m)
  | resolve {n q : Nat} {m' : Memory} : resolvePalette pal n q m = some m' → PixStep pal m m'

theorem PixStep.of_eq {pal : Palette} {m m' : Memory} (h : m' = m) : PixStep pal m m' := h ▸ .same

theorem PixStep.keeps_wf {pal : Palette} {m m' : Memory} (h : PixStep pal m m') (hm : Memory.wf m = true) :
    Memory.wf m' = true := by
  cases h with
  | same => exact hm
  | allocate => rfl
  | load pixels => exact wf_writeBytes _ _ rfl
  | line f w bpp y data => exact wf_defilt f w bpp y data hm
  | resolve h => exact wf_resolvePalette hm h

/-- What an operation leaves of the palette: the same, entries appended, or alpha bytes of its own entries replaced
(42_chunk_parser.md R208, R210). -/
inductive PaletteStep (p : Palette) : Palette → Prop
  | same : PaletteStep p p
  | append (data : List Byte) : data.length % 3 = 0 → p.size + data.length / 3 ≤ 256 → PaletteStep p
      { size := p.size + data.length / 3, mem := p.mem.writeBytes (4 * p.size) (paletteBytes data) }
  | patch (data : List Byte) : data.length ≤ p.size → PaletteStep p { p with mem := patchAlpha p.mem 0 data }

theorem PaletteStep.of_eq {p p' : Palette} (h : p' = p) : PaletteStep p p' := h ▸ .same

theorem PaletteStep.keeps_wf {p p' : Palette} (h : PaletteStep p p') (hp : Memory.wf p.mem = true) :
    Memory.wf p'.mem = true := by
  cases h with
  | same => exact hp
  | append data _ _ => exact wf_writeBytes _ _ hp
  | patch data _ => exact wf_patchAlpha _ _ hp

/-- Four bytes for each entry of three (42_chunk_parser.md R208). -/
theorem length_paletteBytes (data : List Byte) : (paletteBytes data).length = 4 * (data.length / 3) := by
  fun_induction paletteBytes data with
  | case1 r g b rest ih => simp only [List.length_cons, ih]; omega
  | case2 data hd =>
    have : data.length < 3 := by
      match data, hd with
      | [], _ | [_], _ | [_, _], _ => simp
      | r :: g :: b :: rest, hd => exact absurd rfl (hd r g b rest)
    simp only [List.length_nil]
    omega

/-- A run of bytes written right above the bytes below `n` makes those below its own end the written ones. -/
theorem isSome_read_writeBytes {m : Memory} {n : Nat} (hm : ∀ a, (m.read a).isSome = true ↔ a < n) (vs : List Byte)
    (a : Nat) : ((m.writeBytes n vs).read a).isSome = true ↔ a < n + vs.length := by
  rw [read_writeBytes]
  split
  · next ha =>
    rw [List.getElem?_eq_getElem (by omega)]
    simp [ha.2]
  · rw [hm]
    omega

/-- Replacing alpha bytes of entries that are there writes no new address. -/
theorem isSome_read_patchAlpha {m : Memory} {n : Nat} (hm : ∀ a, (m.read a).isSome = true ↔ a < 4 * n) {data : List Byte}
    (hd : data.length ≤ n) (a : Nat) : ((patchAlpha m 0 data).read a).isSome = true ↔ a < 4 * n := by
  rw [read_patchAlpha]
  split
  · next ha =>
    rw [List.getElem?_eq_getElem (by omega)]
    simp only [Option.isSome_some, true_iff]
    omega
  · exact hm a

theorem PaletteStep.keeps_paletteOk {s t : State} (h : PaletteStep s.pal t.pal) (hs : PaletteOk s) : PaletteOk t := by
  obtain ⟨hsize, hmem⟩ := hs
  suffices t.pal.size ≤ 256 ∧ ∀ a, (t.pal.mem.read a).isSome = true ↔ a < 4 * t.pal.size from ⟨this.1, this.2⟩
  generalize t.pal = p' at h
  cases h with
  | same => exact ⟨hsize, hmem⟩
  | append data _ hfits =>
    refine ⟨hfits, fun a => ?_⟩
    rw [isSome_read_writeBytes hmem, length_paletteBytes, ← Nat.mul_add]
  | patch data hle => exact ⟨hsize, isSome_read_patchAlpha hmem hle⟩

theorem delivered_pix {tag : Tag} {data : List Byte} {s t : State} (h : Delivered tag data s t) :
    PixStep s.pal s.pix t.pix := by
  cases h
  case ihdr => exact .allocate
  case error | finish => exact .of_eq (by simp)
  all_goals exact .same

theorem delivered_pal {tag : Tag} {data : List Byte} {s t : State} (h : Delivered tag data s t) :
    PaletteStep s.pal t.pal := by
  cases h
  case plte hthree hfits => exact .append data hthree hfits
  case patch hle => exact .patch data hle
  case error | finish => exact .of_eq (by simp)
  all_goals exact .same

theorem did_pix {i : Instr} {s t : State} (h : Did i s t) : PixStep s.pal s.pix t.pix := by
  cases h
  case delivery hd => exact (delivered_pix hd :)
  case encStart pixels _ _ _ _ _ _ _ => exact .load pixels
  case line f _ _ => exact .line f _ _ _ _
  case finish m _ _ hm =>
    rcases hm with ⟨_, hm⟩ | ⟨_, rfl⟩
    · exact .resolve hm
    · exact .same
  all_goals exact .of_eq (by simp [withRead])

theorem did_pal {i : Instr} {s t : State} (h : Did i s t) : PaletteStep s.pal t.pal := by
  cases h
  case delivery hd => exact (delivered_pal hd :)
  all_goals exact .of_eq (by simp [withRead])

theorem step_keeps_memoryOk {s t : State} (hs : MemoryOk s) (h : step s = .next t) : MemoryOk t := by
  refine step_keeps (fun _ _ hs => hs) (fun _ _ _ _ hs => hs) (fun k par rest _ => memoryOk_construct k par rest) ?_ hs h
  intro i s t ⟨hpix, hpal⟩ h
  exact ⟨(did_pix (exec_did h)).keeps_wf hpix, (did_pal (exec_did h)).keeps_wf hpal⟩

theorem step_keeps_paletteOk {s t : State} (hs : PaletteOk s) (h : step s = .next t) : PaletteOk t := by
  refine step_keeps (fun _ _ hs => ⟨hs.size, hs.mem⟩) (fun _ _ _ _ hs => ⟨hs.size, hs.mem⟩)
    (fun k par rest _ => paletteOk_construct k par rest) ?_ hs h
  intro i s t hs h
  exact (did_pal (exec_did h)).keeps_paletteOk hs

/-- Settles O9: every memory operation keeps the canonical form, and PLTE and tRNS keep the palette's shape. -/
theorem memoryKept : Obligations.MemoryKept :=
  ⟨fun _ _ => step_keeps_memoryOk, fun _ _ => step_keeps_paletteOk⟩

/-! ### The frame of an operation -/

/-- Every piece of state that is not listed is as before. -/
def SameExcept (ps : List Piece) (s t : State) : Prop := ∀ p, p ∈ ps ∨ Same p s t

theorem same_refl (p : Piece) (s : State) : Same p s s := by
  cases p <;> simp [Same]

theorem same_trans {p : Piece} {s t u : State} (h1 : Same p s t) (h2 : Same p t u) : Same p s u := by
  cases p <;> simp_all [Same]

theorem SameExcept.trans {ps qs : List Piece} {s t u : State} (h1 : SameExcept ps s t) (h2 : SameExcept qs t u) :
    SameExcept (ps ++ qs) s u := by
  intro p
  rcases h1 p with hp | h1
  · exact .inl (List.mem_append_left qs hp)
  · exact (h2 p).imp (List.mem_append_right ps) (same_trans h1)

/-- Where the table gives the operation all the pieces that may have changed, the others are as before. -/
theorem SameExcept.same {ps : List Piece} {s t : State} (h : SameExcept ps s t) {i : Instr}
    (hps : ps.all (writes · i) = true) {p : Piece} (hw : writes p i = false) : Same p s t := by
  refine (h p).resolve_left fun hp => ?_
  have := List.all_eq_true.1 hps p hp
  simp [hw] at this

/-- The frame of an update that is written out: each piece is listed, or the two states agree on it by computation. -/
theorem SameExcept.intro {ps : List Piece} {s t : State}
    (h : ∀ p, p ∈ ps ∨ Same p s t := by intro p; cases p <;> simp [Same, withRead, idatTaken]) :
    SameExcept ps s t := h

/-! #### What the shared operations may write -/

theorem started_sameExcept (s : State) : SameExcept [.started] s { s with started := true } := .intro

theorem pushed_sameExcept (blocks : List (List Byte)) (paused : Bool) (s : State) :
    SameExcept [.started, .blocks, .paused] s
      { s with started := true, db := { s.db with blocks := blocks, paused := paused } } := .intro

theorem emit_sameExcept (e : Event) (s : State) : SameExcept [.log] s (emit e s) := .intro

theorem reply_sameExcept (v : Result) (s : State) : SameExcept [.result] s (reply v s) := .intro

theorem served_sameExcept (k : Nat) (s : State) : SameExcept [.blocks, .reads] s (served k s) := .intro

theorem withRead_sameExcept (n : Nat) (al : Bool) (tag : Tag) (s : State) :
    SameExcept [.reads, .paused, .log] s (withRead n al tag s) := .intro

theorem finalizeBuffer_sameExcept (s : State) : SameExcept [.blocks, .reads, .phase, .log] s (finalizeBuffer s) := .intro

theorem closeOpen_sameExcept (s : State) : SameExcept [.blocks, .reads, .phase, .log] s (closeOpen s) := by
  rcases closeOpen_cases s with ⟨_, h⟩ | ⟨_, h⟩ <;> rw [h]
  · exact finalizeBuffer_sameExcept s
  · exact .intro

theorem disposeBuffer_sameExcept (s : State) : SameExcept [.blocks, .reads, .phase] s (disposeBuffer s) := .intro

/-- Stopping a session writes pieces of the units of its kind (60_exceptions.md R371). -/
theorem stop_sameExcept (s : State) :
    SameExcept [.blocks, .reads, .phase, .pState, .feLive, .packer, .inflLive, .deflLive] s (stop s) := by
  cases hk : s.kind with
  | decode => rw [stop_of_decode hk]; exact .intro
  | encode => rw [stop_of_encode hk]; exact .intro
  | buffer => rw [stop_of_buffer hk]; exact .intro
  | crc => rw [stop_of_crc hk]; exact .intro

/-- An error latches its code, emits its event and stops the session (60_exceptions.md R371). -/
theorem teardown_sameExcept (e : ErrorKind) (info : List Word) (s : State) :
    SameExcept [.err, .log, .blocks, .reads, .phase, .pState, .feLive, .packer, .inflLive, .deflLive] s
      (teardown e info s) :=
  SameExcept.trans (ps := [.err, .log]) .intro (stop_sameExcept (emit (.error e.code info) { s with err := some e }))

theorem emitChunk_sameExcept (ty : Word) (payload : List Byte) (s : State) :
    SameExcept [.crc, .log] s (emitChunk ty payload s) := .intro

theorem feed_sameExcept (bytes : List Byte) (s : State) : SameExcept [.feInq, .inflEmitted] s (feed bytes s) := .intro

theorem commitLine_sameExcept (f : FilterType) (s : State) : SameExcept [.pix, .feRow, .feInq] s (commitLine f s) := .intro

theorem commitRow_sameExcept (f : FilterType) (s : State) :
    SameExcept [.feRow, .feDone, .deflIn, .deflEnded] s (commitRow f s) := .intro

theorem finish_sameExcept (m : Memory) (s : State) :
    SameExcept [.pix, .feDone, .log] s (complete { s with pix := m }) := .intro

theorem startEncode_sameExcept (w h : Word) (pixels : List Byte) (s : State) :
    SameExcept [.pix, .feLive, .feShape, .feRow, .feDone, .packer] s (startEncode w h pixels s) := .intro

/-! #### A delivery: the table's row for the tag -/

/-- An error of a parser rule, after the writes its rule has made before it. -/
theorem delivered_error_same {tag : Tag} {data : List Byte} {s : State} {e : ErrorKind} {info : List Word} {c : Crc}
    {len ty : Word} (htag : tag = .sig ∨ tag = .hdr ∨ tag = .ihdr ∨ tag = .trns ∨ tag = .crc)
    (hhdr : tag = .hdr ∨ len = s.p.length ∧ ty = s.p.type) (hcrc : tag = .sig ∨ tag = .crc → c = s.crc) {p : Piece}
    (hw : writes p (tagInstr tag data) = false) :
    Same p s (teardown e info { s with crc := c, p := { s.p with length := len, type := ty } }) := by
  have hsame {ps : List Piece} (h : SameExcept ps s { s with crc := c, p := { s.p with length := len, type := ty } }) :=
    (h.trans (teardown_sameExcept e info _)).same (i := tagInstr tag data) (p := p)
  rcases htag with rfl | rfl | rfl | rfl | rfl
  · obtain ⟨rfl, rfl⟩ := hhdr.resolve_left nofun
    obtain rfl := hcrc (.inl rfl)
    exact hsame (ps := []) .intro rfl hw
  · exact hsame (ps := [.crc, .pChunk]) .intro rfl hw
  · obtain ⟨rfl, rfl⟩ := hhdr.resolve_left nofun
    exact hsame (ps := [.crc]) .intro rfl hw
  · obtain ⟨rfl, rfl⟩ := hhdr.resolve_left nofun
    exact hsame (ps := [.crc]) .intro rfl hw
  · obtain ⟨rfl, rfl⟩ := hhdr.resolve_left nofun
    obtain rfl := hcrc (.inr rfl)
    exact hsame (ps := []) .intro rfl hw

/-- A delivery writes what the table gives to the row of its tag, beside the front of the buffer. -/
theorem delivered_same {tag : Tag} {data : List Byte} {s t : State} (h : Delivered tag data s t) {p : Piece}
    (hw : writes p (tagInstr tag data) = false) : Same p s t := by
  cases h with
  | user hu =>
    refine (emit_sameExcept _ s).same ?_ hw
    cases tag
    case user0 | user1 | user2 | user3 | user4 | user5 => rfl
    all_goals cases hu
  | error e info c len ty _ htag hhdr hcrc => exact delivered_error_same htag hhdr hcrc hw
  | header _ htag =>
    refine SameExcept.same (ps := [.pState, .reads, .paused, .log]) .intro ?_ hw
    rcases htag with rfl | rfl | ⟨rfl, _⟩ <;> rfl
  | dispatch ty len b k remaining q _ htag _ _ _ _ hq =>
    subst htag hq
    exact SameExcept.same (ps := [.crc, .pChunk, .remaining, .pState, .reads, .paused, .log]) .intro rfl hw
  | emptyIdat ty len b _ htag _ =>
    subst htag
    exact SameExcept.same (ps := [.crc, .pChunk, .remaining, .pState, .reads, .paused, .log]) .intro rfl hw
  | ihdr w h ct _ htag _ _ _ =>
    subst htag
    exact SameExcept.same (ps := [.crc, .header, .hasIHDR, .pix, .feLive, .feShape, .feRow, .feInq, .feDone, .pState,
      .reads, .paused, .log]) .intro rfl hw
  | plte _ htag _ _ =>
    subst htag
    exact SameExcept.same (ps := [.crc, .palette, .pState, .reads, .paused, .log]) .intro rfl hw
  | patch _ htag _ =>
    subst htag
    exact SameExcept.same (ps := [.crc, .palette, .pState, .reads, .paused, .log]) .intro rfl hw
  | ignore _ htag =>
    subst htag
    exact SameExcept.same (ps := [.crc, .pState, .reads, .paused, .log]) .intro rfl hw
  | gama v _ htag =>
    subst htag
    exact SameExcept.same (ps := [.crc, .gamma, .pState, .reads, .paused, .log]) .intro rfl hw
  | more _ htag _ _ _ =>
    subst htag
    exact SameExcept.same (ps := [.crc, .inflIn, .remaining, .reads, .paused, .log]) .intro rfl hw
  | last _ htag _ _ =>
    subst htag
    exact SameExcept.same (ps := [.crc, .inflIn, .remaining, .pState, .reads, .paused, .log]) .intro rfl hw
  | iend _ htag =>
    subst htag
    exact SameExcept.same (ps := [.crc, .hasIEND, .inflEnded, .pState, .reads, .paused, .log]) .intro rfl hw
  | finish _ htag _ _ =>
    subst htag
    exact (SameExcept.trans (ps := [.pState]) .intro (closeOpen_sameExcept _)).same rfl hw
  | closed _ htag _ _ =>
    subst htag
    exact SameExcept.same (ps := [.pState]) .intro rfl hw

/-- `DB.SERVE` may write whatever a tag's row may write. -/
theorem writes_dbServe {p : Piece} {tag : Tag} {data : List Byte} (h : writes p (tagInstr tag data) = true) :
    writes p .dbServe = true := by
  cases p
  case kind | par | agenda | cfg => exact h
  case inflEmitted | deflIn | deflEnded | deflEmitted | started | result => cases tag <;> cases h
  all_goals rfl

/-- A row that names a tag may write what the tag's own row may write: a chunk-type row is a delivery to `K.HDR`. -/
theorem writes_of_rowTag {i : Instr} {tag : Tag} (h : rowTag i = some tag) (p : Piece) (data : List Byte) :
    writes p i = writes p (tagInstr tag data) := by
  cases i <;> cases h
  all_goals cases p <;> rfl

/-- A row that delivers names its tag, or is `DB.SERVE`. -/
theorem rowTag_of_delivery {i : Instr} (h : delivery i = true) : i = .dbServe ∨ ∃ tag, rowTag i = some tag := by
  cases i
  case dbServe => exact .inl rfl
  case chunkIhdr | chunkPlte | chunkTrns | chunkGama | chunkIdat | chunkIend | chunkAncillaryUnknown
    | chunkCriticalUnknown | kSig | kHdr | kIhdr | kPlte | kTrns | kGama | kIdat | kIend | kSkip | kCrc
    | kUser0 | kUser1 | kUser2 | kUser3 | kUser4 | kUser5 => exact .inr ⟨_, rfl⟩
  all_goals cases h

/-- The row of a delivery may write what the row of the delivered tag may write. -/
theorem writes_of_delivery {i : Instr} {tag : Tag} (hd : delivery i = true) (htag : ∀ g, rowTag i = some g → tag = g)
    {p : Piece} (data : List Byte) (hw : writes p i = false) : writes p (tagInstr tag data) = false := by
  rcases rowTag_of_delivery hd with rfl | ⟨g, hg⟩
  · exact Bool.eq_false_iff.2 fun h => ne_true_of_eq_false hw (writes_dbServe h)
  · obtain rfl := htag g hg
    rw [← writes_of_rowTag hg, hw]

/-! #### Every operation -/

theorem did_same {i : Instr} {s t : State} (h : Did i s t) {p : Piece} (hw : writes p i = false) : Same p s t := by
  have hs := started_sameExcept s
  cases h with
  | wait _ => exact same_refl p s
  | delivery r rest k data _ hd _ htag _ _ _ _ _ _ hx =>
    have hserved := (served_sameExcept k s).same (by simp [writes, hd]) hw
    exact same_trans hserved (delivered_same hx (writes_of_delivery hd htag data hw))
  | push bytes hi _ _ _ _ =>
    exact (pushed_sameExcept _ _ s).same (by rcases hi with rfl | rfl <;> rfl) hw
  | pushLate bytes hi _ _ _ =>
    exact (hs.trans (teardown_sameExcept _ _ _)).same (by rcases hi with rfl | rfl | rfl | rfl <;> rfl) hw
  | close hi _ _ _ =>
    exact (hs.trans (closeOpen_sameExcept _)).same (by rcases hi with rfl | rfl <;> rfl) hw
  | closeWith bytes hi _ _ _ _ =>
    exact ((pushed_sameExcept _ _ s).trans (closeOpen_sameExcept _)).same (by rcases hi with rfl | rfl <;> rfl) hw
  | closeLate hi _ _ _ => exact hs.same (by rcases hi with rfl | rfl <;> rfl) hw
  | request n al tag hi _ _ _ _ _ => exact (hs.trans (withRead_sameExcept n al tag _)).same (by rw [hi]; rfl) hw
  | requestLate n al tag hi _ _ _ => exact (hs.trans (teardown_sameExcept _ _ _)).same (by rw [hi]; rfl) hw
  | dispose hi _ _ => exact (hs.trans (disposeBuffer_sameExcept _)).same (by rw [hi]; rfl) hw
  | crcInit hi _ _ => exact SameExcept.same (ps := [.started, .crc]) .intro (by rw [hi]; rfl) hw
  | crcUpdate bytes hi _ _ => exact SameExcept.same (ps := [.started, .crc]) .intro (by rw [hi]; rfl) hw
  | crcFinal hi _ _ => exact (hs.trans (reply_sameExcept _ _)).same (by rw [hi]; rfl) hw
  | decDispose hi _ _ => exact (hs.trans (stop_sameExcept _)).same (by rw [hi]; rfl) hw
  | encDispose hi _ _ => exact (hs.trans (stop_sameExcept _)).same (by rw [hi]; rfl) hw
  | encStart w h pixels hi _ _ _ _ _ _ => exact (hs.trans (startEncode_sameExcept w h pixels _)).same (by rw [hi]; rfl) hw
  | pStart hi hp =>
    have hstate : s.p.state = .awaitSignature := by
      simp only [startPending, Bool.and_eq_true, beq_iff_eq] at hp
      obtain ⟨⟨_, hstate⟩, _⟩ := hp
      exact hstate
    rw [← hstate]
    exact (withRead_sameExcept 8 false .sig s).same (by rw [hi]; rfl) hw
  | finalized hi _ _ _ _ => exact (finalizeBuffer_sameExcept s).same (by rcases hi with rfl | rfl <;> rfl) hw
  | pending hi _ _ _ _ => exact (teardown_sameExcept _ _ s).same (by rw [hi]; rfl) hw
  | fed bytes hi _ _ _ _ => exact (feed_sameExcept bytes s).same (by rcases hi with rfl | rfl <;> rfl) hw
  | line f hi _ => exact (commitLine_sameExcept f s).same (by simp [writes, hi]) hw
  | finish m hi _ _ => exact (finish_sameExcept m s).same (by rw [hi]; rfl) hw
  | pkSig hi _ => exact SameExcept.same (ps := [.packer, .log]) .intro (by rw [hi]; rfl) hw
  | pkIhdr hi _ =>
    exact (SameExcept.trans (ps := [.packer]) .intro (emitChunk_sameExcept _ _ _)).same (by rw [hi]; rfl) hw
  | encline f hi _ _ => exact (commitRow_sameExcept f s).same (by simp [writes, hi]) hw
  | block b hi _ _ _ _ =>
    exact (SameExcept.trans (ps := [.deflEmitted]) .intro (emitChunk_sameExcept _ _ _)).same
      (by rcases hi with rfl | rfl <;> rfl) hw
  | finishOutput hi _ =>
    exact SameExcept.same (ps := [.crc, .log, .packer]) .intro (by rcases hi with rfl | rfl <;> rfl) hw
  | value v hi => exact (reply_sameExcept v s).same (by simp [writes, hi]) hw
  | chunk ty payload v hi _ _ => exact SameExcept.same (ps := [.crc, .result]) .intro (by rw [hi]; rfl) hw
  | teardown e info hi _ _ => exact (teardown_sameExcept e info s).same (by rw [hi]; rfl) hw

/-- Settles O17: the table gives an operation every piece that one of its outcomes writes. -/
theorem writersOnly : Obligations.WritersOnly := fun _ _ _ _ h hw => did_same (exec_did h) hw

/-! ### The header registers and the geometry of the Filter Engine -/

/-- The kind, the header registers and the engine's geometry are as before, no engine has come to life, and the engine's row
is as before or, inside the image, the next one. -/
structure ShapeKept (s t : State) : Prop where
  kind : t.kind = s.kind
  parsed : t.p.hasIHDR = s.p.hasIHDR
  header : t.h = s.h
  shape : Same .feShape s t
  live : t.fe.live = true → s.fe.live = true
  row : t.fe.row = s.fe.row ∨ s.fe.row < s.fe.height ∧ t.fe.row = s.fe.row + 1

theorem ShapeKept.refl (s : State) : ShapeKept s s := ⟨rfl, rfl, rfl, ⟨rfl, rfl, rfl, rfl⟩, id, .inl rfl⟩

theorem ShapeKept.of_fe {s t : State} (hkind : t.kind = s.kind) (hparsed : t.p.hasIHDR = s.p.hasIHDR) (hh : t.h = s.h)
    (hfe : t.fe = s.fe) : ShapeKept s t :=
  ⟨hkind, hparsed, hh, by simp [Same, hfe], fun h => hfe ▸ h, .inl (by rw [hfe])⟩

theorem ShapeKept.stop {s u : State} (h : ShapeKept s u) : ShapeKept s (stop u) where
  kind := by simp [h.kind]
  parsed := by simp [h.parsed]
  header := by simp [h.header]
  shape := by simpa [Same] using h.shape
  live hlive := h.live (stop_fe_live hlive).1
  row := by simpa using h.row

theorem ShapeKept.teardown {e : ErrorKind} {info : List Word} {s u : State} (h : ShapeKept s u) :
    ShapeKept s (teardown e info u) :=
  ShapeKept.stop (u := emit (.error e.code info) { u with err := some e })
    ⟨h.kind, h.parsed, h.header, h.shape, h.live, h.row⟩

theorem ShapeKept.closeOpen {s u : State} (h : ShapeKept s u) : ShapeKept s (closeOpen u) where
  kind := by simp [h.kind]
  parsed := by simp [h.parsed]
  header := by simp [h.header]
  shape := by simpa [Same] using h.shape
  live := by simpa using h.live
  row := by simpa using h.row

/-- An accepted header is latched and the engine constructed for it (42_chunk_parser.md R204 to R206). -/
structure HeaderParsed (s t : State) : Prop where
  decode : s.kind = .decode ∧ t.kind = .decode
  parsed : t.p.hasIHDR = true
  accepted : ∃ (w h : Word) (ct : Byte), w ≠ 0 ∧ h ≠ 0 ∧ legalColorType ct = true ∧
    t.h = { width := w, height := h, bitDepth := 8, colorType := ct, compression := 0, filter := 0, interlace := 0 } ∧
    t.fe = { live := true, mode := .decode, width := w.toNat, height := h.toNat, bpp := bppOf ct, row := 0, inq := [],
             done := false }

/-- What an operation leaves of the header registers and of the engine: their shape, the engine of `ENC.START`
(45_chunk_packer.md R321), or, where the read of an IHDR payload was served, an accepted header. -/
inductive HeaderStep (s : State) : State → Prop
  | keep {t : State} : ShapeKept s t → HeaderStep s t
  | start (w h : Word) (pixels : List Byte) : s.kind = .encode →
      HeaderStep s (startEncode w h pixels { s with started := true })
  | parse {t : State} (r : Request) (rest : List Request) : s.db.phase = .opened ∨ s.db.phase = .closing →
      s.db.reads = r :: rest → r.tag = .ihdr → HeaderParsed s t → HeaderStep s t

theorem ShapeKept.keeps {s t : State} (h : ShapeKept s t) (hh : HeaderOk s) (he : EngineOk s) :
    HeaderOk t ∧ EngineOk t := by
  obtain ⟨hkind, hparsed, hheader, ⟨hmode, hwidth, hheight, hbpp⟩, hlive, hrow⟩ := h
  refine ⟨?_, ?_, ?_, ?_⟩
  · simpa only [HeaderOk, hparsed, hheader] using hh
  · rw [hkind, hparsed, hheader, hmode, hwidth, hheight, hbpp]
    exact fun hk hl => he.decode hk (hlive hl)
  · rw [hkind, hmode, hbpp]
    exact fun hk hl => he.encode hk (hlive hl)
  · have := he.row
    omega

theorem HeaderParsed.holds {s t : State} (h : HeaderParsed s t) : HeaderOk t ∧ EngineOk t := by
  obtain ⟨⟨_, hk⟩, hparsed, w, h, ct, hw, hz, hct, hheader, hfe⟩ := h
  refine ⟨fun _ => ?_, fun _ _ => ?_, fun hencode => absurd (hk.symm.trans hencode) nofun, ?_⟩
  · rw [hheader]
    exact ⟨rfl, hct, rfl, rfl, rfl, hw, hz⟩
  · rw [hheader, hfe]
    exact ⟨hparsed, rfl, rfl, rfl, rfl⟩
  · rw [hfe]
    exact Nat.zero_le _

theorem HeaderStep.keeps {s t : State} (h : HeaderStep s t) (hh : HeaderOk s) (he : EngineOk s) :
    HeaderOk t ∧ EngineOk t := by
  cases h with
  | keep h => exact h.keeps hh he
  | start w h pixels hk =>
    exact ⟨hh, fun hdecode _ => absurd (hk.symm.trans hdecode) nofun, fun _ _ => ⟨rfl, rfl⟩, Nat.zero_le _⟩
  | parse r rest _ _ _ h => exact h.holds

/-- A delivery keeps the header and the engine, or parses an IHDR. -/
theorem delivered_header {tag : Tag} {data : List Byte} {s t : State} (h : Delivered tag data s t) :
    ShapeKept s t ∨ tag = .ihdr ∧ HeaderParsed s t := by
  cases h
  case ihdr w h ct hk htag hct hw hz => exact .inr ⟨htag, ⟨hk, hk⟩, rfl, w, h, ct, hw, hz, hct, rfl, rfl⟩
  case error => exact .inl (ShapeKept.teardown (.of_fe rfl rfl rfl rfl))
  case finish => exact .inl (ShapeKept.closeOpen (.of_fe rfl rfl rfl rfl))
  case dispatch hq =>
    subst hq
    exact .inl (.of_fe rfl rfl rfl rfl)
  all_goals exact .inl (.of_fe rfl rfl rfl rfl)

theorem line_row_lt {s : State} (h : lineEnabled s = true) : s.fe.row < s.fe.height := by
  simp only [lineEnabled, Bool.and_eq_true, decide_eq_true_eq] at h
  obtain ⟨⟨_, hrow⟩, _⟩ := h
  exact hrow

theorem encline_row_lt {s : State} (h : enclineEnabled s = true) : s.fe.row < s.fe.height := by
  simp only [enclineEnabled, Bool.and_eq_true, decide_eq_true_eq] at h
  obtain ⟨⟨⟨_, hrow⟩, _⟩, _⟩ := h
  exact hrow

theorem did_header {i : Instr} {s t : State} (h : Did i s t) : HeaderStep s t := by
  cases h
  case delivery r rest _ _ _ _ _ _ _ hphase hreads _ _ hx =>
    rcases delivered_header hx with hkeep | ⟨htag, hparsed⟩
    · exact .keep ⟨hkeep.kind, hkeep.parsed, hkeep.header, hkeep.shape, hkeep.live, hkeep.row⟩
    · exact .parse r rest hphase hreads htag ⟨hparsed.decode, hparsed.parsed, hparsed.accepted⟩
  case encStart w h pixels _ _ hk _ _ _ _ => exact .start w h pixels hk
  case line hl => exact .keep ⟨rfl, rfl, rfl, ⟨rfl, rfl, rfl, rfl⟩, id, .inr ⟨line_row_lt hl, rfl⟩⟩
  case encline hl _ => exact .keep ⟨rfl, rfl, rfl, ⟨rfl, rfl, rfl, rfl⟩, id, .inr ⟨encline_row_lt hl, rfl⟩⟩
  case pushLate | requestLate => exact .keep (ShapeKept.teardown (.of_fe rfl rfl rfl rfl))
  case pending | teardown => exact .keep ((ShapeKept.refl s).teardown)
  case decDispose | encDispose => exact .keep (ShapeKept.stop (.of_fe rfl rfl rfl rfl))
  case close | closeWith => exact .keep (ShapeKept.closeOpen (.of_fe rfl rfl rfl rfl))
  all_goals exact .keep ⟨rfl, rfl, rfl, ⟨rfl, rfl, rfl, rfl⟩, id, .inl rfl⟩

theorem step_keeps_headerOk_engineOk {s t : State} (hh : HeaderOk s) (he : EngineOk s) (h : step s = .next t) :
    HeaderOk t ∧ EngineOk t := by
  refine step_keeps (Inv := fun s => HeaderOk s ∧ EngineOk s) ?agenda ?config
    (fun k par rest _ => ⟨headerOk_construct k par rest, engineOk_construct k par rest⟩) ?operation ⟨hh, he⟩ h
  case agenda => exact fun s rest ⟨hh, he⟩ => ⟨hh, he.decode, he.encode, he.row⟩
  case config => exact fun s c rest _ ⟨hh, he⟩ => ⟨hh, he.decode, he.encode, he.row⟩
  case operation => exact fun i s t ⟨hh, he⟩ h => (did_header (exec_did h)).keeps hh he

/-- The parser waits for an IHDR payload in one state only (10_state.md R27). -/
theorem awaits_ihdr {p : Parser} {r : Request} {rest : List Request} (h : expectedReads p = r :: rest)
    (htag : r.tag = .ihdr) : p.state = .dispatchChunk ∧ p.kind = .ihdr := by
  cases hs : p.state <;> simp only [expectedReads, hs, List.cons.injEq, reduceCtorEq] at h
  case dispatchChunk =>
    obtain ⟨rfl, _⟩ := h
    cases hk : p.kind <;> simp [dispatchRead, hk] at htag ⊢
  all_goals
    obtain ⟨rfl, _⟩ := h
    cases htag

/-- Under the parser's discipline the header registers are immutable once an IHDR has been parsed (10_state.md R33): the
parser asks for the payload of the first IHDR only. -/
theorem header_immutable {i : Instr} {s t : State} (hs : ParserInv s) (hi : s.p.hasIHDR = true)
    (h : exec i s = .next t) : t.h = s.h ∧ t.p.hasIHDR = true := by
  cases did_header (exec_did h) with
  | keep h => exact ⟨h.header, h.parsed.trans hi⟩
  | start w h pixels _ => exact ⟨rfl, hi⟩
  | parse r rest hphase hreads htag hx =>
    have hp : ParserOk s := hs hx.decode.1 (by rcases hphase with h | h <;> simp [h])
    obtain ⟨hstate, hkind⟩ := awaits_ihdr (hp.reads.symm.trans hreads) htag
    exact absurd (hp.first hstate hkind) (by simp [hi])

/-- Settles O12: what an operation leaves of the header, and the parser's discipline for its immutability. -/
theorem headerKept : Obligations.HeaderKept :=
  ⟨fun _ _ => step_keeps_headerOk_engineOk, fun _ _ _ => header_immutable⟩

end Sys2Proof.Proofs
end

section
/-! PROOFS. The memories (spec/20_memory.md): the stream of buffered bytes, which an operation extends at the back and a
delivery shortens at the front, and the bytes that the two transforms hand over. -/

namespace Sys2Proof.Proofs

open Sys2Proof.Machine Sys2Proof.Safety Sys2Proof.Laws

/-! ### The front of the block store -/

/-- 41_demand_buffer.md R161: what `takefront` returns and what it leaves are together the stream it was given. -/
theorem takefront_flatten (blocks : List (List Byte)) (k : Nat) :
    (takefront blocks k).1 ++ (takefront blocks k).2.flatten = blocks.flatten := by
  fun_induction takefront blocks k with
  | case1 | case2 => rfl
  | case3 k b bs _ _ r ih => simp only [List.append_assoc, r, ih, List.flatten_cons]
  | case4 k b bs => rw [List.flatten_cons, ← List.append_assoc, List.take_append_drop, List.flatten_cons]

/-! ### What ends a buffer -/

/-- 60_exceptions.md R371, R376: stopping a session that has a Demand Buffer disposes the buffer. -/
theorem stop_db {s : State} (hb : hasBuffer s.kind = true) :
    (stop s).db = { s.db with blocks := [], reads := [], phase := .disposed } := by
  cases hk : s.kind with
  | decode => rw [stop_of_decode hk]
  | buffer => rw [stop_of_buffer hk]
  | encode | crc => cases hk ▸ hb

theorem teardown_db {s : State} (hb : hasBuffer s.kind = true) (e : ErrorKind) (info : List Word) :
    (teardown e info s).db = { s.db with blocks := [], reads := [], phase := .disposed } :=
  stop_db (s := emit (.error e.code info) { s with err := some e }) hb

/-- A close that leaves the buffer serving reads discards nothing (41_demand_buffer.md R164). -/
theorem closeOpen_blocks {s : State} (hp : (closeOpen s).db.phase = .opened ∨ (closeOpen s).db.phase = .closing) :
    (closeOpen s).db.blocks = s.db.blocks := by
  rcases closeOpen_cases s with ⟨_, h⟩ | ⟨_, h⟩ <;> rw [h] at hp ⊢
  simp at hp

/-! ### The stream of buffered bytes -/

/-- The rule that a delivery runs leaves the buffered bytes alone, where it leaves the buffer serving reads. -/
theorem delivered_blocks {tag : Tag} {data : List Byte} {s t : State} (h : Delivered tag data s t)
    (hp : t.db.phase = .opened ∨ t.db.phase = .closing) : t.db.blocks = s.db.blocks := by
  cases h
  case error hk _ _ _ =>
    rw [teardown_db (by rw [hk]; rfl)] at hp
    simp at hp
  case finish => exact closeOpen_blocks hp
  all_goals rfl

/-- No step of an agent pushes, and no row that returns a value. -/
theorem pushedBytes_eq_nil {i : Instr}
    (h : isCommand i = false ∨ runsLine i = true ∨ runsEncline i = true ∨ returnsValue i = true) :
    pushedBytes i = [] := by
  cases i
  case dbPush | decPush | dbClose | decClose => simp [isCommand, runsLine, runsEncline, returnsValue] at h
  all_goals rfl

/-- 20_memory.md R71, R73: an operation that is no delivery and leaves the buffer serving reads appends what it pushes. -/
theorem did_stream {i : Instr} {s t : State} (h : Did i s t) (hd : delivery i = false) (he : s.err = none)
    (hb : hasBuffer s.kind = true) (hp : t.db.phase = .opened ∨ t.db.phase = .closing) :
    t.db.blocks.flatten = s.db.blocks.flatten ++ pushedBytes i := by
  cases h
  case delivery hd' _ _ _ _ _ _ _ _ _ => simp [hd] at hd'
  case push bytes hi _ _ _ _ => rcases hi with rfl | rfl <;> simp [pushedBytes]
  case close hi _ _ _ => rcases hi with rfl | rfl <;> simp [closeOpen_blocks hp, pushedBytes]
  case closeWith bytes hi _ _ _ _ => rcases hi with rfl | rfl <;> simp [closeOpen_blocks hp, pushedBytes]
  -- what ends the buffer does not leave it serving reads
  case pushLate | requestLate => simp [teardown_db (s := { s with started := true }) hb] at hp
  case pending | teardown => simp [teardown_db hb] at hp
  case decDispose | encDispose => simp [stop_db (s := { s with started := true }) hb] at hp
  case dispose | finalized => simp at hp
  -- everything else leaves the blocks alone and pushes nothing
  case wait hw =>
    simp only [he, Option.isSome_none, Bool.false_eq_true, imp_false, Bool.not_eq_true] at hw
    simp [pushedBytes_eq_nil (.inl hw)]
  case line hi _ => simp [pushedBytes_eq_nil (.inr (.inl hi))]
  case encline hi _ _ => simp [pushedBytes_eq_nil (.inr (.inr (.inl hi)))]
  case value hi => simp [pushedBytes_eq_nil (.inr (.inr (.inr hi)))]
  case closeLate hi _ _ _ => rcases hi with rfl | rfl <;> simp [pushedBytes]
  case fed hi _ _ _ _ => rcases hi with rfl | rfl <;> simp [pushedBytes]
  case block hi _ _ _ _ => rcases hi with rfl | rfl <;> simp [pushedBytes]
  case finishOutput hi _ => rcases hi with rfl | rfl <;> simp [pushedBytes]
  all_goals
    subst i
    simp [pushedBytes, withRead]

/-- 41_demand_buffer.md R160, R161: a delivery that leaves the buffer serving reads waits or takes its bytes from the front. -/
theorem delivery_stream {i : Instr} {s t : State} (hd : delivery i = true) (h : exec i s = .next t)
    (hp : t.db.phase = .opened ∨ t.db.phase = .closing) :
    t = s ∨ deliveredBytes i s ++ t.db.blocks.flatten = s.db.blocks.flatten := by
  refine (delivery_next hd h).imp_right fun ⟨r, rest, k, _, _, _, _, _, hdata, _, hx⟩ => ?_
  rw [hdata, delivered_blocks hx hp]
  exact takefront_flatten s.db.blocks k

/-- Settles O20: a case analysis of what an operation did, with `takefront` at the front of the stream. -/
theorem streamConserved : Obligations.StreamConserved := fun _ _ _ h hp he hb =>
  ⟨fun hd => did_stream (exec_did h) hd he hb hp, fun hd => delivery_stream hd h hp⟩

/-! ### What the transforms hand over -/

theorem inflPending_length (s : State) :
    (inflPending s).length = (inflateStream s.par s.infl.input).length - s.infl.emitted :=
  List.length_drop

theorem deflPending_length (s : State) :
    (deflPending s).length = (deflateStream s.par s.cfg s.defl.input s.defl.ended).length - s.defl.emitted :=
  List.length_drop

theorem execInflOut_of_enabled {k : Nat} {s : State} (h : inflOutEnabled k s = true) :
    execInflOut k s = .next (feed ((inflPending s).take k) s) := by
  rw [execInflOut, h, whenEnabled_true]

/-- 43_filter_decode.md R258, log 5: `FE.FEED` with the next `k` bytes spelled out is the `INFL.OUT` of `k` bytes. -/
theorem execFeFeed_take {k : Nat} {s : State} (h : k ≤ (inflPending s).length) :
    execFeFeed ((inflPending s).take k) s = execInflOut k s := by
  rw [execFeFeed, length_take_of_le h, beq_self_eq_true, Bool.and_true, execInflOut]

theorem execDeflOut_of_enabled {k : Nat} {s : State} (h : deflOutEnabled k s = true) :
    execDeflOut k s = .next (emitBlock ((deflPending s).take k) s) := by
  rw [execDeflOut, h, whenEnabled_true]

/-- 45_chunk_packer.md R324, log 5: `PK.IDAT` with the next `k` bytes spelled out is the `DEFL.OUT` of `k` bytes. -/
theorem execPkIdat_take {k : Nat} {s : State} (h : k ≤ (deflPending s).length) :
    execPkIdat ((deflPending s).take k) s = execDeflOut k s := by
  rw [execPkIdat, length_take_of_le h, beq_self_eq_true, Bool.and_true, execDeflOut]

/-- 20_memory.md R76: the next `k` bytes go to the queue of the engine. -/
theorem feed_take {k : Nat} {s : State} (h : k ≤ (inflPending s).length) :
    feed ((inflPending s).take k) s = { s with
      fe := { s.fe with inq := s.fe.inq ++ (inflPending s).take k }
      infl := { s.infl with emitted := s.infl.emitted + k } } := by
  rw [feed, length_take_of_le h]

/-- 20_memory.md R77, 45_chunk_packer.md R324, R327: the next `k` bytes leave as one IDAT chunk. -/
theorem emitBlock_take {k : Nat} {s : State} (h : k ≤ (deflPending s).length) :
    emitBlock ((deflPending s).take k) s = { s with
      crc := chunkSum tyIDAT ((deflPending s).take k)
      log := s.log ++ [.data (chunkBytes tyIDAT ((deflPending s).take k))]
      defl := { s.defl with emitted := s.defl.emitted + k } } := by
  rw [emitBlock, length_take_of_le h]
  rfl

/-- Settles O48: each transform's step is enabled, and the labelled step is that step. -/
theorem transformOut : Obligations.TransformOut := by
  refine ⟨fun k s hk he hl hm hi h1 hle => ?_, fun k s hk he hp hl h1 hlt hle => ?_⟩
  · have hpending : k ≤ (inflPending s).length := by rw [inflPending_length]; omega
    have henabled : inflOutEnabled k s = true :=
      (inflOutEnabled_iff k s).2 ⟨by simp [defilterLive, hk, he, hl, hm], hi, h1, hpending⟩
    have hout := (execInflOut_of_enabled henabled).trans (congrArg _ (feed_take hpending))
    exact ⟨hout, (execFeFeed_take hpending).trans hout⟩
  · have hpending : k ≤ (deflPending s).length := by rw [deflPending_length]; omega
    have henabled : deflOutEnabled k s = true :=
      (deflOutEnabled_iff k s).2 ⟨by simp [packing, hk, he, hp], hl, h1, hpending, hlt⟩
    have hout := (execDeflOut_of_enabled henabled).trans (congrArg _ (emitBlock_take hpending))
    exact ⟨hout, (execPkIdat_take hpending).trans hout⟩

end Sys2Proof.Proofs
end

section
/-! PROOFS. Encoding and decoding (spec/30_encoding.md): the operand fields and the spec's codes read back what the encoder
writes; each family of operations decodes to the row that its code selects; then the two directions of the statement. -/

namespace Sys2Proof.Proofs

open Sys2Proof.Machine Sys2Proof.Safety

/-! ### Operand fields -/

theorem natOfBytes_natBytesUpTo {fuel n : Nat} (h : n ≤ fuel) : natOfBytes (natBytesUpTo fuel n) = n := by
  induction fuel generalizing n with
  | zero => exact (Nat.le_zero.1 h).symm
  | succ fuel ih =>
    rw [natBytesUpTo]
    split
    next hzero => exact hzero.symm
    next hpos =>
      have hdigit : (BitVec.ofNat 8 (n % 256)).toNat = n % 256 := by rw [BitVec.toNat_ofNat, Nat.mod_mod]
      rw [natOfBytes, ih (by omega), hdigit, Nat.mod_add_div]

@[simp] theorem natOfBytes_natBytes (n : Nat) : natOfBytes (natBytes n) = n := natOfBytes_natBytesUpTo le_rfl

@[simp] theorem wordsOfBytes_flatMap (ws : List Word) : wordsOfBytes (ws.flatMap bytes32) = some ws := by
  induction ws with
  | nil => rfl
  | cons w ws ih =>
    rw [List.flatMap_cons, bytes32]
    simp only [List.cons_append, List.nil_append, wordsOfBytes, ih, Option.map_some, be32_extractBytes]

/-! ### The spec's codes -/

@[simp] theorem filterOfByte_byte (f : FilterType) : filterOfByte f.byte = some f := by cases f <;> rfl

@[simp] theorem tagOfByte_byte (tag : Tag) : tagOfByte tag.byte = some tag := by cases tag <;> rfl

@[simp] theorem errorOfByte_code (e : ErrorKind) : errorOfByte (BitVec.ofNat 8 e.code) = some e := by cases e <;> rfl

theorem unknownType_iff (ty : Word) :
    unknownType ty = true ↔ ty ∉ [tyIHDR, tyPLTE, tyTRNS, tyGAMA, tyIDAT, tyIEND] := by
  simp [unknownType, and_assoc]

/-- 30_encoding.md R98: an unknown type selects the row of its class. -/
theorem chunkInstr_of_unknown {ty : Word} (h : unknownType ty = true) (length : Word) :
    chunkInstr ty length =
      if ancillaryBit ty then .chunkAncillaryUnknown ty length else .chunkCriticalUnknown ty length := by
  rw [chunkInstr, classify_of_unknown ((unknownType_iff ty).1 h)]
  cases ancillaryBit ty <;> rfl

/-- Only an unknown type selects an unknown chunk row, so that row carries a type of its own class (30_encoding.md R98). -/
theorem chunkInstr_wf (ty length : Word) : (chunkInstr ty length).WellFormed := by
  by_cases hu : unknownType ty = true
  · rw [chunkInstr_of_unknown hu]
    split
    next hb => exact Bool.and_eq_true_iff.2 ⟨hu, hb⟩
    next hb => exact Bool.and_eq_true_iff.2 ⟨hu, by simpa using hb⟩
  · rw [unknownType_iff, not_not] at hu
    simp only [List.mem_cons, List.not_mem_nil, or_false] at hu
    obtain rfl | rfl | rfl | rfl | rfl | rfl := hu <;> rfl

theorem tagInstr_wf (tag : Tag) (data : List Byte) : (tagInstr tag data).WellFormed := by cases tag <;> rfl

theorem defiltInstr_wf (f : FilterType) (data : List Byte) : (defiltInstr f data).WellFormed := by cases f <;> rfl

theorem filtInstr_wf (f : FilterType) (y : Nat) : (filtInstr f y).WellFormed := by cases f <;> rfl

/-! ### The families whose code selects the row -/

theorem decodeChunk_fields (t0 t1 t2 t3 l0 l1 l2 l3 : Byte) :
    decodeChunk [t0, t1, t2, t3, l0, l1, l2, l3] = .ok (chunkInstr (be32 t0 t1 t2 t3) (be32 l0 l1 l2 l3)) := by
  simp only [decodeChunk, chunkInstr]
  cases classify (be32 t0 t1 t2 t3) <;> rfl

theorem decodeDefilt_cons (c : Byte) (data : List Byte) :
    decodeDefilt (c :: data) = (filterOfByte c).elim (.error .noSuchFilter) (fun f => .ok (defiltInstr f data)) := by
  rw [decodeDefilt]
  rcases filterOfByte c with - | - | - | - | - | - <;> rfl

theorem decodeFilt_cons (c : Byte) (row : List Byte) :
    decodeFilt (c :: row) =
      (filterOfByte c).elim (.error .noSuchFilter) (fun f => .ok (filtInstr f (natOfBytes row))) := by
  rw [decodeFilt]
  rcases filterOfByte c with - | - | - | - | - | - <;> rfl

theorem decodeTag_cons (c : Byte) (data : List Byte) :
    decodeTag (c :: data) = (tagOfByte c).elim (.error .noSuchCode) (fun tag => .ok (tagInstr tag data)) := by
  rw [decodeTag]
  cases tagOfByte c with
  | none => rfl
  | some tag => cases tag <;> rfl

/-! ### Decoding what was encoded -/

/-- A chunk header's two fields decode to the row that the type selects (30_encoding.md R97, R98). -/
theorem decode_chunk (ty length : Word) : decode (0 :: (bytes32 ty ++ bytes32 length)) = .ok (chunkInstr ty length) :=
  (decodeChunk_fields ..).trans (by rw [be32_extractBytes, be32_extractBytes])

theorem decode_defilt (f : FilterType) (data : List Byte) : decode (1 :: f.byte :: data) = .ok (defiltInstr f data) :=
  (decodeDefilt_cons ..).trans (by rw [filterOfByte_byte, Option.elim_some])

theorem decode_filt (f : FilterType) (y : Nat) : decode (2 :: f.byte :: natBytes y) = .ok (filtInstr f y) :=
  (decodeFilt_cons ..).trans (by rw [filterOfByte_byte, Option.elim_some, natOfBytes_natBytes])

theorem decode_tag (tag : Tag) (data : List Byte) : decode (3 :: tag.byte :: data) = .ok (tagInstr tag data) :=
  (decodeTag_cons ..).trans (by rw [tagOfByte_byte, Option.elim_some])

theorem decodeRequest_fields (length : Nat) (allowLess : Bool) (tag : Tag) :
    decodeRequest (boolByte allowLess :: tag.byte :: natBytes length) = .ok (.dbRequest length allowLess tag) := by
  cases allowLess <;> simp [decodeRequest, boolByte]

theorem decodeStart_fields (width height : Word) (pixels : List Byte) :
    decodeStart (bytes32 width ++ bytes32 height ++ pixels) = .ok (.encStart width height pixels) :=
  congrArg₂ (fun w h => Except.ok (Instr.encStart w h pixels)) (be32_extractBytes width) (be32_extractBytes height)

theorem checked_of_wf {i : Instr} (h : i.WellFormed) : checked i = .ok i := if_pos h

theorem decodePred_fields (f : FilterType) (left up upLeft : Byte) :
    decodePred [f.byte, left, up, upLeft] = .ok (.pred f left up upLeft) := by
  rw [decodePred, filterOfByte_byte]

theorem decodePkChunk_fields {ty : Word} {payload : List Byte} (h : (Instr.pkChunk ty payload).WellFormed) :
    decodePkChunk (bytes32 ty ++ payload) = .ok (.pkChunk ty payload) :=
  (congrArg (fun w => checked (.pkChunk w payload)) (be32_extractBytes ty)).trans (checked_of_wf h)

theorem decodeTeardown_fields (e : ErrorKind) (info : List Word) :
    decodeTeardown (BitVec.ofNat 8 e.code :: info.flatMap bytes32) = .ok (.teardown e info) := by
  rw [decodeTeardown, errorOfByte_code, wordsOfBytes_flatMap]

/-- Every well-formed operation decodes from its own encoding. The operations whose operands are raw bytes, or that have
none, read back as they stand. -/
theorem decode_encode {i : Instr} (h : i.WellFormed) : decode (encode i) = .ok i := by
  cases i with
  | chunkIhdr | chunkPlte | chunkTrns | chunkGama | chunkIdat | chunkIend => exact decode_chunk ..
  | chunkAncillaryUnknown ty length =>
    obtain ⟨hu, hb⟩ := Bool.and_eq_true_iff.1 h
    rw [encode, decode_chunk, chunkInstr_of_unknown hu, if_pos hb]
  | chunkCriticalUnknown ty length =>
    obtain ⟨hu, hb⟩ := Bool.and_eq_true_iff.1 h
    rw [encode, decode_chunk, chunkInstr_of_unknown hu, if_neg (by simpa using hb)]
  | defiltNone | defiltSub | defiltUp | defiltAvg | defiltPaeth => exact decode_defilt ..
  | filtNone | filtSub | filtUp | filtAvg | filtPaeth => exact decode_filt ..
  | kSig | kHdr | kIhdr | kPlte | kTrns | kGama | kIdat | kIend | kSkip | kCrc | kUser0 | kUser1 | kUser2 | kUser3
  | kUser4 | kUser5 => exact decode_tag ..
  | dbRequest length allowLess tag => exact decodeRequest_fields length allowLess tag
  | encStart width height pixels => exact decodeStart_fields width height pixels
  | inflOut k => exact congrArg (fun n => Except.ok (Instr.inflOut n)) (natOfBytes_natBytes k)
  | deflOut k => exact congrArg (fun n => Except.ok (Instr.deflOut n)) (natOfBytes_natBytes k)
  | pkIdat => exact checked_of_wf h
  | pred f left up upLeft => exact decodePred_fields f left up upLeft
  | pkChunk => exact decodePkChunk_fields h
  | teardown e info => exact decodeTeardown_fields e info
  | dbPush | dbClose | dbDispose | crcInit | crcUpdate | crcFinal | decPush | decClose | decDispose | encDispose
  | pStart | dbServe | dbDrainend | feFeed | feLine | feFinish | pkSig | pkIhdr | feEncline | deflDone | pkIend
  | crc32 | tbl | paeth | finalize => rfl

/-! ### What decodes is well formed -/

/-- The answer of a decoder is a rejection or a well-formed operation. -/
inductive AcceptsWf : Except Reject Instr → Prop
  | ok {i : Instr} (h : i.WellFormed) : AcceptsWf (.ok i)
  | error (r : Reject) : AcceptsWf (.error r)

theorem AcceptsWf.wf {r : Except Reject Instr} {i : Instr} (h : AcceptsWf r) (hr : r = .ok i) : i.WellFormed := by
  subst hr
  cases h with
  | ok h => exact h

theorem AcceptsWf.of_eq {r r' : Except Reject Instr} (h : r = r') (h' : AcceptsWf r') : AcceptsWf r := h ▸ h'

theorem AcceptsWf.elim {α : Type} {row : α → Instr} (h : ∀ a, (row a).WellFormed) (r : Reject) (code : Option α) :
    AcceptsWf (code.elim (.error r) (fun a => .ok (row a))) := by
  cases code with
  | none => exact .error r
  | some a => exact .ok (h a)

theorem plain_acceptsWf {i : Instr} (h : i.WellFormed) : ∀ ops, AcceptsWf (plain i ops)
  | [] => .ok h
  | _ :: _ => .error _

theorem checked_acceptsWf (i : Instr) : AcceptsWf (checked i) := by
  rw [checked]
  split
  next h => exact .ok h
  next => exact .error _

theorem decodeChunk_acceptsWf (bytes : List Byte) : AcceptsWf (decodeChunk bytes) := by
  unfold decodeChunk
  split
  next t0 t1 t2 t3 l0 l1 l2 l3 =>
    exact .of_eq (decodeChunk_fields t0 t1 t2 t3 l0 l1 l2 l3) (.ok (chunkInstr_wf ..))
  next => exact .error _

theorem decodeDefilt_acceptsWf : ∀ bytes, AcceptsWf (decodeDefilt bytes)
  | [] => .error _
  | c :: data => .of_eq (decodeDefilt_cons c data) (.elim (defiltInstr_wf · data) _ _)

theorem decodeFilt_acceptsWf : ∀ bytes, AcceptsWf (decodeFilt bytes)
  | [] => .error _
  | c :: row => .of_eq (decodeFilt_cons c row) (.elim (filtInstr_wf · _) _ _)

theorem decodeTag_acceptsWf : ∀ bytes, AcceptsWf (decodeTag bytes)
  | [] => .error _
  | c :: data => .of_eq (decodeTag_cons c data) (.elim (tagInstr_wf · data) _ _)

theorem decodeRequest_acceptsWf (bytes : List Byte) : AcceptsWf (decodeRequest bytes) := by
  unfold decodeRequest
  split
  · split
    · exact .ok rfl
    · exact .ok rfl
    · exact .error _
  · exact .error _

theorem decodeDbc_acceptsWf (bytes : List Byte) : AcceptsWf (decodeDbc bytes) := by
  unfold decodeDbc
  split
  · split
    · exact .ok rfl
    · exact decodeRequest_acceptsWf _
    · exact .ok rfl
    · exact plain_acceptsWf rfl _
    · exact .error _
  · exact .error _

theorem decodeCrcc_acceptsWf (bytes : List Byte) : AcceptsWf (decodeCrcc bytes) := by
  unfold decodeCrcc
  split
  · split
    · exact plain_acceptsWf rfl _
    · exact .ok rfl
    · exact plain_acceptsWf rfl _
    · exact .error _
  · exact .error _

theorem decodeDec_acceptsWf (bytes : List Byte) : AcceptsWf (decodeDec bytes) := by
  unfold decodeDec
  split
  · split
    · exact .ok rfl
    · exact .ok rfl
    · exact plain_acceptsWf rfl _
    · exact .error _
  · exact .error _

theorem decodeStart_acceptsWf (bytes : List Byte) : AcceptsWf (decodeStart bytes) := by
  unfold decodeStart
  split
  · exact .ok rfl
  · exact .error _

theorem decodeEnc_acceptsWf (bytes : List Byte) : AcceptsWf (decodeEnc bytes) := by
  unfold decodeEnc
  split
  · split
    · exact decodeStart_acceptsWf _
    · exact plain_acceptsWf rfl _
    · exact .error _
  · exact .error _

theorem decodeInternal_acceptsWf (bytes : List Byte) : AcceptsWf (decodeInternal bytes) := by
  unfold decodeInternal
  split
  next c ops =>
    split
    case h_4 | h_5 | h_11 => exact .ok rfl
    case h_12 => exact checked_acceptsWf _
    case h_15 => exact .error _
    all_goals exact plain_acceptsWf rfl ops
  next => exact .error _

theorem decodeTbl_acceptsWf (bytes : List Byte) : AcceptsWf (decodeTbl bytes) := by
  unfold decodeTbl
  split
  · exact .ok rfl
  · exact .error _

theorem decodePaeth_acceptsWf (bytes : List Byte) : AcceptsWf (decodePaeth bytes) := by
  unfold decodePaeth
  split
  · exact .ok rfl
  · exact .error _

theorem decodePred_acceptsWf (bytes : List Byte) : AcceptsWf (decodePred bytes) := by
  unfold decodePred
  split
  · split
    · exact .ok rfl
    · exact .error _
  · exact .error _

theorem decodePkChunk_acceptsWf (bytes : List Byte) : AcceptsWf (decodePkChunk bytes) := by
  unfold decodePkChunk
  split
  · exact checked_acceptsWf _
  · exact .error _

theorem decodeTeardown_acceptsWf (bytes : List Byte) : AcceptsWf (decodeTeardown bytes) := by
  unfold decodeTeardown
  split
  · split
    · exact .ok rfl
    · exact .error _
  · exact .error _

theorem decodeFunction_acceptsWf (bytes : List Byte) : AcceptsWf (decodeFunction bytes) := by
  unfold decodeFunction
  split
  · split
    · exact .ok rfl
    · exact decodeTbl_acceptsWf _
    · exact decodePaeth_acceptsWf _
    · exact decodePred_acceptsWf _
    · exact decodePkChunk_acceptsWf _
    · exact plain_acceptsWf rfl _
    · exact decodeTeardown_acceptsWf _
    · exact .error _
  · exact .error _

theorem decode_acceptsWf (bytes : List Byte) : AcceptsWf (decode bytes) := by
  unfold decode
  split
  · split
    · exact decodeChunk_acceptsWf _
    · exact decodeDefilt_acceptsWf _
    · exact decodeFilt_acceptsWf _
    · exact decodeTag_acceptsWf _
    · exact decodeDbc_acceptsWf _
    · exact decodeCrcc_acceptsWf _
    · exact decodeDec_acceptsWf _
    · exact decodeEnc_acceptsWf _
    · exact decodeInternal_acceptsWf _
    · exact decodeFunction_acceptsWf _
    · exact .error _
  · exact .error _

/-- Settles O2: the round trip row by row, and the well-formedness that every decoder keeps. -/
theorem decodeEncode : Obligations.DecodeEncode :=
  ⟨fun _ => decode_encode, fun bytes _ => (decode_acceptsWf bytes).wf⟩

/-! ### Words written out -/

/-- Settles O1: each word is of a family whose decoding is said above, or carries a code that names nothing. -/
theorem decodeWords : Obligations.DecodeWords :=
  ⟨decode_chunk 0x49484452 13, decode_chunk 0x74455874 2, decode_chunk 0x41424344 2, decode_defilt .paeth [0xAA],
   decode_filt .average 5, decode_tag .crc [0x1F, 0x15, 0xC4, 0x89], decodeRequest_fields 4 false .user0, rfl, rfl,
   decodeStart_fields 1 1 [0xFF, 0xFF, 0xFF, 0xFF], rfl, rfl, rfl, rfl⟩

end Sys2Proof.Proofs
end

section
/-! PROOFS. The CRC Engine (spec/40_crc.md). A round is linear over exclusive or, and injective. By linearity, eight rounds
on a word are the table's entry of its low byte together with the rest shifted; by injectivity, the byte step confuses no
two accumulators and no two bytes. Then the commands of the engine's port. -/

namespace Sys2Proof.Proofs

open Sys2Proof.Machine Sys2Proof.Laws

/-! ### One round -/

theorem tblRound_of_low_false {c : Word} (h : c.getLsbD 0 = false) : tblRound c = c >>> 1 :=
  if_neg (ne_true_of_eq_false h)

theorem tblRound_of_low_true {c : Word} (h : c.getLsbD 0 = true) : tblRound c = 0xEDB88320 ^^^ (c >>> 1) :=
  if_pos h

theorem tblRound_xor (a b : Word) : tblRound (a ^^^ b) = tblRound a ^^^ tblRound b := by
  have hlow : (a ^^^ b).getLsbD 0 = (a.getLsbD 0 ^^ b.getLsbD 0) := BitVec.getLsbD_xor
  have hrest : (a ^^^ b) >>> 1 = a >>> 1 ^^^ b >>> 1 := BitVec.ushiftRight_xor_distrib a b 1
  unfold tblRound
  rw [hlow, hrest]
  cases a.getLsbD 0 <;> cases b.getLsbD 0
  case false.false => rfl
  case false.true =>
    show 0xEDB88320 ^^^ (a >>> 1 ^^^ b >>> 1) = a >>> 1 ^^^ (0xEDB88320 ^^^ b >>> 1)
    ac_rfl
  case true.false => exact (BitVec.xor_assoc ..).symm
  case true.true =>
    calc a >>> 1 ^^^ b >>> 1
      _ = (0xEDB88320 ^^^ 0xEDB88320) ^^^ (a >>> 1 ^^^ b >>> 1) := by rw [BitVec.xor_self, BitVec.zero_xor]
      _ = (0xEDB88320 ^^^ a >>> 1) ^^^ (0xEDB88320 ^^^ b >>> 1) := by ac_rfl

/-- The constant's top bit is set, so a round moves the lowest bit to the top. -/
theorem getLsbD_tblRound_top (c : Word) : (tblRound c).getLsbD 31 = c.getLsbD 0 := by
  cases h : c.getLsbD 0 with
  | false => simp [tblRound_of_low_false h]
  | true => simp [tblRound_of_low_true h]

theorem tblRound_injective : Function.Injective tblRound := by
  intro a b h
  have hlow : a.getLsbD 0 = b.getLsbD 0 := by rw [← getLsbD_tblRound_top, h, getLsbD_tblRound_top]
  have hrest : a >>> 1 = b >>> 1 := by
    cases hb : b.getLsbD 0 with
    | false => rwa [tblRound_of_low_false (hlow.trans hb), tblRound_of_low_false hb] at h
    | true => rwa [tblRound_of_low_true (hlow.trans hb), tblRound_of_low_true hb, BitVec.xor_right_inj] at h
  refine BitVec.eq_of_getLsbD_eq fun i _ => ?_
  cases i with
  | zero => exact hlow
  | succ i => simpa [Nat.add_comm] using congrArg (·.getLsbD i) hrest

/-! ### Several rounds -/

theorem tblRounds_eq_iterate (n : Nat) : tblRounds n = tblRound^[n] := by
  funext c
  induction n generalizing c with
  | zero => rfl
  | succ n ih => exact ih (tblRound c)

theorem tblRounds_injective (n : Nat) : Function.Injective (tblRounds n) :=
  tblRounds_eq_iterate n ▸ tblRound_injective.iterate n

theorem tblRounds_xor (n : Nat) (a b : Word) : tblRounds n (a ^^^ b) = tblRounds n a ^^^ tblRounds n b := by
  induction n generalizing a b with
  | zero => rfl
  | succ n ih => simp only [tblRounds, tblRound_xor, ih]

/-- Rounds that meet no set bit only shift. -/
theorem tblRounds_of_low_false {n : Nat} {c : Word} (h : ∀ i < n, c.getLsbD i = false) : tblRounds n c = c >>> n := by
  induction n generalizing c with
  | zero => rfl
  | succ n ih =>
    have hrest : ∀ i < n, (c >>> 1).getLsbD i = false := fun i hi => by
      simpa [Nat.add_comm] using h (i + 1) (Nat.succ_lt_succ hi)
    rw [tblRounds, tblRound_of_low_false (h 0 n.succ_pos), ih hrest, ← BitVec.shiftRight_add, Nat.add_comm]

theorem tblRounds_shiftLeft (n : Nat) (c : Word) : tblRounds n (c <<< n) = c <<< n >>> n :=
  tblRounds_of_low_false fun i hi => by simp [hi]

/-! ### The table and the byte step -/

theorem tblEntry_xor (m n : Byte) : tblEntry (m ^^^ n) = tblEntry m ^^^ tblEntry n := by
  simp only [tblEntry, BitVec.setWidth_xor, tblRounds_xor]

theorem lowByte_xor_highBytes (c : Word) : (c.setWidth 8).setWidth 32 ^^^ c >>> 8 <<< 8 = c := by
  refine BitVec.eq_of_getLsbD_eq fun i hi => ?_
  by_cases h : i < 8
  · simp [h, hi]
  · simp [h, hi, Nat.add_sub_cancel' (Nat.le_of_not_lt h)]

/-- Eight rounds on a word: the low byte goes through the table, the three others are shifted. -/
theorem tblRounds_eight (c : Word) : tblRounds 8 c = tblEntry (c.setWidth 8) ^^^ c >>> 8 := by
  have hhigh : tblRounds 8 (c >>> 8 <<< 8) = c >>> 8 := by
    rw [tblRounds_shiftLeft]
    exact BitVec.eq_of_getLsbD_eq fun i _ => by simpa using BitVec.lt_of_getLsbD
  conv => lhs; rw [← lowByte_xor_highBytes c]
  rw [tblRounds_xor, hhigh, tblEntry]

theorem crcByte_eq_tblRounds (acc : Word) (b : Byte) : crcByte acc b = tblRounds 8 (acc ^^^ b.setWidth 32) := by
  have hbyte : b.setWidth 32 >>> 8 = 0#32 := BitVec.eq_of_getLsbD_eq fun i _ => by simp
  rw [tblRounds_eight, BitVec.ushiftRight_xor_distrib, hbyte, BitVec.xor_zero, crcByte]

theorem crcByte_injective_acc (b : Byte) : Function.Injective (crcByte · b) := fun a c h =>
  (BitVec.xor_left_inj _).1 (tblRounds_injective 8 (by simpa only [crcByte_eq_tblRounds] using h))

theorem crcByte_injective_byte (acc : Word) : Function.Injective (crcByte acc) := by
  intro b c h
  have hword : acc ^^^ b.setWidth 32 = acc ^^^ c.setWidth 32 :=
    tblRounds_injective 8 (by simpa only [crcByte_eq_tblRounds] using h)
  simpa using congrArg (BitVec.setWidth 8) ((BitVec.xor_right_inj _).1 hword)

theorem crcByte_bijective (b : Byte) : Function.Bijective (crcByte · b) :=
  Finite.injective_iff_bijective.1 (crcByte_injective_acc b)

theorem shiftLeft_shiftRight_of_topByte {c : Word} (h : c.extractLsb' 24 8 = 0) : c <<< 8 >>> 8 = c := by
  refine BitVec.eq_of_getLsbD_eq fun i hi => ?_
  by_cases htop : i < 24
  · simp [show 8 + i < 32 by omega, BitVec.getLsbD_eq_getElem hi]
  · have hclear : c.getLsbD (24 + (i - 24)) = false := by
      simpa [show i - 24 < 8 by omega] using congrArg (·.getLsbD (i - 24)) h
    rw [Nat.add_sub_cancel' (Nat.le_of_not_lt htop)] at hclear
    simp [hclear]

/-- A table entry with a clear top byte comes from byte 0: the rounds undo a shift to the left. -/
theorem eq_zero_of_tblEntry_topByte {n : Byte} (h : (tblEntry n).extractLsb' 24 8 = 0) : n = 0 := by
  have hshift : tblEntry n <<< 8 = n.setWidth 32 :=
    tblRounds_injective 8 ((tblRounds_shiftLeft 8 _).trans (shiftLeft_shiftRight_of_topByte h))
  calc n
    _ = (n.setWidth 32).setWidth 8 := by simp
    _ = (tblEntry n <<< 8).setWidth 8 := by rw [hshift]
    _ = 0 := BitVec.eq_of_getLsbD_eq fun i hi => by simp [hi]

theorem tblEntry_topByte_injective : Function.Injective fun n => (tblEntry n).extractLsb' 24 8 := by
  intro m n h
  have hzero : (tblEntry (m ^^^ n)).extractLsb' 24 8 = 0 := by
    rw [tblEntry_xor, BitVec.extractLsb'_xor]
    exact BitVec.xor_eq_zero_iff.2 h
  exact BitVec.xor_eq_zero_iff.1 (eq_zero_of_tblEntry_topByte hzero)

/-! ### Byte sequences -/

theorem crcFold_append (acc : Word) (a b : List Byte) : crcFold acc (a ++ b) = crcFold (crcFold acc a) b :=
  List.foldl_append

theorem crcFold_flatten (acc : Word) (pieces : List (List Byte)) :
    crcFold acc pieces.flatten = pieces.foldl crcFold acc :=
  List.foldl_flatten

theorem crcFold_injective (bytes : List Byte) : Function.Injective (crcFold · bytes) := by
  induction bytes with
  | nil => exact Function.injective_id
  | cons b bytes ih => exact ih.comp (crcByte_injective_acc b)

theorem crcValue_injective : Function.Injective crcValue := fun _ _ => (BitVec.xor_left_inj _).1

theorem crcOf_ne_of_byte_ne (before after : List Byte) {b c : Byte} (h : b ≠ c) :
    crcOf (before ++ b :: after) ≠ crcOf (before ++ c :: after) := by
  intro heq
  have hfold := crcValue_injective heq
  rw [crcFold_append, crcFold_append] at hfold
  exact h (crcByte_injective_byte _ (crcFold_injective after hfold))

/-- The published check value (40_crc.md R135). -/
theorem crcOf_checkDigits : crcOf [0x31, 0x32, 0x33, 0x34, 0x35, 0x36, 0x37, 0x38, 0x39] = 0xCBF43926 := by
  decide +kernel

/-! ### The engine's commands -/

theorem crcCommand_of_crc {s : State} (he : s.err = none) (hk : s.kind = .crc) (f : State → Out) :
    crcCommand s f = f { s with started := true } := by
  rw [crcCommand, command_live he]
  simp only [hk]

/-- Where the accumulator has no value yet, an update of some bytes folds them into the free value (log 7). -/
theorem crcUpdated_unseeded {c : Crc} (h : c.seeded = false) {bytes : List Byte} (hb : bytes ≠ []) :
    crcUpdated bytes c = { acc := crcFold Config.freeCrc bytes, seeded := true } := by
  rw [crcUpdated, if_neg hb, readAcc_unseeded h]

theorem crcUpdated_append (a b : List Byte) (c : Crc) : crcUpdated (a ++ b) c = crcUpdated b (crcUpdated a c) := by
  cases a with
  | nil => rfl
  | cons x xs =>
    have hseeded : (crcUpdated (x :: xs) c).seeded = true := rfl
    rw [crcUpdated_seeded hseeded]
    exact congrArg (Crc.mk · true) (crcFold_append (readAcc c) (x :: xs) b)

/-- The state that a command of the engine leaves. -/
def withEngine (c : Crc) (s : State) : State := { s with started := true, crc := c }

@[simp] theorem withEngine_crc (c : Crc) (s : State) : (withEngine c s).crc = c := rfl
@[simp] theorem withEngine_withEngine (c d : Crc) (s : State) : withEngine c (withEngine d s) = withEngine c s := rfl

theorem exec_crcInit_live {s : State} (he : s.err = none) (hk : s.kind = .crc) :
    exec .crcInit s = .next (withEngine { acc := crcStart, seeded := true } s) := by
  rw [exec_crcInit, execCrcInit, crcCommand_of_crc he hk, withEngine]

theorem exec_crcUpdate_live {s : State} (he : s.err = none) (hk : s.kind = .crc) (bytes : List Byte) :
    exec (.crcUpdate bytes) s = .next (withEngine (crcUpdated bytes s.crc) s) := by
  rw [exec_crcUpdate, execCrcUpdate, crcCommand_of_crc he hk, withEngine]

theorem exec_crcUpdate_dead {s : State} (he : s.err.isSome = true) (bytes : List Byte) :
    exec (.crcUpdate bytes) s = .next s := by
  rw [exec_crcUpdate, execCrcUpdate, crcCommand, command_dead he]

theorem exec_crcFinal_live {s : State} (he : s.err = none) (hk : s.kind = .crc) :
    exec .crcFinal s = .next (reply (.bits (crcValue (readAcc s.crc))) (withEngine s.crc s)) := by
  rw [exec_crcFinal, execCrcFinal, crcCommand_of_crc he hk, withEngine]

/-- 40_crc.md R137. On a dead session both sides do nothing. -/
theorem exec_crcUpdate_append {s : State} (hk : s.kind = .crc) (a b : List Byte) :
    andThen (exec (.crcUpdate a) s) (exec (.crcUpdate b)) = exec (.crcUpdate (a ++ b)) s := by
  cases he : s.err with
  | none =>
    rw [exec_crcUpdate_live he hk, andThen_of_next, exec_crcUpdate_live (s := withEngine _ s) he hk,
      exec_crcUpdate_live he hk, crcUpdated_append, withEngine_crc, withEngine_withEngine]
  | some e =>
    have hdead : s.err.isSome = true := by rw [he]; rfl
    rw [exec_crcUpdate_dead hdead, andThen_of_next, exec_crcUpdate_dead hdead, exec_crcUpdate_dead hdead]

/-- 40_crc.md R135, at the port. -/
theorem exec_initUpdateFinal {s : State} (he : s.err = none) (hk : s.kind = .crc) (bytes : List Byte) :
    andThen (andThen (exec .crcInit s) (exec (.crcUpdate bytes))) (exec .crcFinal) =
      .next (reply (.bits (crcOf bytes)) (withEngine { acc := crcFold crcStart bytes, seeded := true } s)) := by
  rw [exec_crcInit_live he hk, andThen_of_next, exec_crcUpdate_live (s := withEngine _ s) he hk, andThen_of_next,
    withEngine_crc, withEngine_withEngine, crcUpdated_seeded rfl, exec_crcFinal_live (s := withEngine _ s) he hk,
    withEngine_crc, withEngine_withEngine, readAcc_seeded rfl, crcOf]

/-! ### The statements -/

/-- Settles O31: eight rounds on a word are the table's entry of its low byte and the rest shifted. -/
theorem tableAndBitSerial : Obligations.TableAndBitSerial := by
  have hrounds (c : Word) : tblRounds 8 c = tblRound^[8] c := congrFun (tblRounds_eq_iterate 8) c
  refine ⟨fun n s => ?_, fun acc b => ?_⟩
  · rw [exec_tbl, execTbl, tblEntry, hrounds]; rfl
  · rw [crcByte_eq_tblRounds, hrounds]; rfl

/-- Settles O33: a round is injective, hence the byte step in both its arguments, and the fold of what follows. -/
theorem crcSensitivity : Obligations.CrcSensitivity :=
  ⟨crcByte_bijective, fun _ _ h => tblEntry_topByte_injective h, fun acc _ _ h => crcByte_injective_byte acc h,
   fun before after _ _ h => crcOf_ne_of_byte_ne before after h⟩

/-- Settles O32: the three commands in a row return `crcOf`, and the fold takes a joined sequence piece by piece. -/
theorem crcFunction : Obligations.CrcFunction := by
  refine ⟨⟨fun bytes s e hk he => ⟨crcOf bytes, _, exec_initUpdateFinal he hk bytes, rfl, rfl, rfl⟩, rfl,
    crcOf_checkDigits⟩, fun a b s hk => exec_crcUpdate_append hk a b, fun ty pieces => ?_⟩
  rw [crcOf, crcFold_append, crcFold_flatten]

/-- Settles O30: each command is its effect on the engine, and `readAcc` is what it reads. -/
theorem crcCommands : Obligations.CrcCommands := by
  intro bytes s hk he
  refine ⟨exec_crcInit_live he hk, fun hs => ⟨?_, ?_⟩, fun hs => ⟨?_, fun hb => ?_, ?_⟩⟩
  · rw [exec_crcUpdate_live he hk, crcUpdated_seeded hs]; rfl
  · rw [exec_crcFinal_live he hk, readAcc_seeded hs]; rfl
  · rw [exec_crcUpdate_live he hk, crcUpdated_nil]; rfl
  · rw [exec_crcUpdate_live he hk, crcUpdated_unseeded hs hb]; rfl
  · rw [exec_crcFinal_live he hk, readAcc_unseeded hs]; rfl

end Sys2Proof.Proofs
end

section
/-! PROOFS. The Demand Buffer (spec/41_demand_buffer.md). First what any operation leaves of the buffer and appends to the
event log, from which its invariant, its phases and `EV_DRAIN` follow; then the front of the block store and the
deliveries; then its commands and its end. -/

namespace Sys2Proof.Proofs

open Sys2Proof.Machine Sys2Proof.Safety Sys2Proof.Laws

/-! ### What an operation does to the buffer -/

/-- What a rule leaves of the buffer: nothing changed; an open one extended by blocks, paused or closed; one more read
queued, which resumes it (41_demand_buffer.md R156); or an ended one, without bytes or requests (R166, R169). -/
inductive DbStep (d : Db) : Db → Prop
  | same : DbStep d d
  | grow (new : List (List Byte)) (paused : Bool) (phase : DbPhase) : d.phase = .opened →
      phase = .opened ∨ phase = .closing → (∀ b ∈ new, b ≠ []) → (d.paused = true → paused = true) →
      DbStep d { d with blocks := d.blocks ++ new, paused := paused, phase := phase }
  | queue (r : Request) : d.phase = .opened ∨ d.phase = .closing → (r.allowLess = true → 0 < r.length) →
      DbStep d { d with reads := d.reads ++ [r], paused := false }
  | finish (paused : Bool) (phase : DbPhase) : phaseRank d.phase ≤ phaseRank phase →
      phase = .finalized ∨ phase = .disposed → (d.paused = true → paused = true) →
      DbStep d { blocks := [], reads := [], paused := paused, phase := phase }

/-- `EV_DRAIN`, where the buffer stops being paused (41_demand_buffer.md R157). -/
def drainOn (d d' : Db) : List Event := if d.paused = true ∧ d'.paused = false then [.drain] else []

/-- What a rule leaves of the buffer, and the events it appends: some that are no `EV_DRAIN`, then that event exactly where
the buffer stops being paused. -/
structure BufferStep (s t : State) : Prop where
  db : DbStep s.db t.db
  log : ∃ events, (∀ e ∈ events, isDrain e = false) ∧ t.log = s.log ++ events ++ drainOn s.db t.db

theorem drainOn_of_paused {d d' : Db} (h : d.paused = true → d'.paused = true) : drainOn d d' = [] :=
  if_neg fun ⟨hp, hn⟩ => by simp [h hp] at hn

/-- A rule that does not resume the buffer emits no `EV_DRAIN`. -/
theorem BufferStep.of_paused {s t : State} (events : List Event) (hdb : DbStep s.db t.db)
    (hp : s.db.paused = true → t.db.paused = true) (hlog : t.log = s.log ++ events)
    (he : ∀ e ∈ events, isDrain e = false := by simp [isDrain]) : BufferStep s t :=
  ⟨hdb, events, he, by rw [drainOn_of_paused hp, List.append_nil, hlog]⟩

/-- A rule that leaves the buffer alone. -/
theorem BufferStep.of_db_eq {s t : State} (events : List Event) (hdb : t.db = s.db) (hlog : t.log = s.log ++ events)
    (he : ∀ e ∈ events, isDrain e = false := by simp [isDrain]) : BufferStep s t :=
  .of_paused events (hdb ▸ .same) (by rw [hdb]; exact id) hlog he

theorem BufferStep.refl (s : State) : BufferStep s s := .of_db_eq [] rfl (List.append_nil _).symm

/-- A read queued by a rule that has left the buffer alone so far. -/
theorem withRead_buffer {s u : State} {n : Nat} {al : Bool} {tag : Tag} (events : List Event) (hdb : u.db = s.db)
    (hlog : u.log = s.log ++ events) (hp : s.db.phase = .opened ∨ s.db.phase = .closing) (hn : al = true → 0 < n)
    (he : ∀ e ∈ events, isDrain e = false := by simp [isDrain]) : BufferStep s (withRead n al tag u) where
  db := by
    simp only [withRead, hdb]
    exact .queue { length := n, allowLess := al, tag := tag } hp hn
  log := ⟨events, he, by simp [withRead, drainIf, drainOn, hdb, hlog]⟩

theorem phaseRank_le_disposed (p : DbPhase) : phaseRank p ≤ phaseRank .disposed := by
  cases p <;> decide

theorem phaseRank_le_finalized {p : DbPhase} (h : p = .opened ∨ p = .closing) : phaseRank p ≤ phaseRank .finalized := by
  rcases h with rfl | rfl <;> decide

/-- Stopping a session disposes its buffer, where it has one. -/
theorem stop_dbStep (s : State) : DbStep s.db (stop s).db := by
  cases hk : s.kind with
  | decode | buffer =>
    rw [stop_db (by rw [hk]; rfl)]
    exact .finish _ _ (phaseRank_le_disposed _) (.inr rfl) id
  | encode => rw [stop_of_encode hk]; exact .same
  | crc => rw [stop_of_crc hk]; exact .same

theorem stop_buffer {s u : State} (hdb : u.db = s.db) (hlog : u.log = s.log) : BufferStep s (stop u) :=
  .of_paused [] (hdb ▸ stop_dbStep u) (by simp [hdb]) (by simp [hlog])

theorem teardown_buffer {s u : State} (e : ErrorKind) (info : List Word) (hdb : u.db = s.db) (hlog : u.log = s.log) :
    BufferStep s (teardown e info u) :=
  .of_paused [.error e.code info] (hdb ▸ stop_dbStep (emit (.error e.code info) { u with err := some e }))
    (by simp [hdb]) (by simp [hlog])

theorem finalizeBuffer_buffer {s : State} (hp : s.db.phase = .opened ∨ s.db.phase = .closing) :
    BufferStep s (finalizeBuffer s) :=
  .of_paused [.finished] (.finish _ _ (phaseRank_le_finalized hp) (.inl rfl) id) id rfl

/-- A close of an open buffer, after the push of its final bytes (41_demand_buffer.md R164, R165). -/
theorem closeOpen_buffer {s u : State} (new : List (List Byte)) (paused : Bool) (hp : s.db.phase = .opened)
    (hdb : u.db = { s.db with blocks := s.db.blocks ++ new, paused := paused }) (hlog : u.log = s.log)
    (hnew : ∀ b ∈ new, b ≠ []) (hpaused : s.db.paused = true → paused = true) : BufferStep s (closeOpen u) := by
  rcases closeOpen_cases u with ⟨_, h⟩ | ⟨_, h⟩
  · rw [h]
    refine .of_paused [.finished] ?_ (by simpa [hdb] using hpaused) (by simp [hlog])
    simp only [finalizeBuffer_db, hdb]
    exact .finish _ _ (by rw [hp]; decide) (.inl rfl) hpaused
  · rw [h]
    refine .of_paused [] ?_ (by simpa [hdb] using hpaused) (by simp [hlog])
    simp only [hdb]
    exact .grow new paused .closing hp (.inr rfl) hnew hpaused

theorem pausedAfterPush_of_paused {d : Db} (h : d.paused = true) : pausedAfterPush d = true := by
  simp [pausedAfterPush, h]

/-- The request that a dispatched chunk waits on is no at-most read of 0 (42_chunk_parser.md R213). -/
theorem dispatchRead_pos {p : Parser} (h : p.kind = .idat → 0 < p.remaining) (ha : (dispatchRead p).allowLess = true) :
    0 < (dispatchRead p).length := by
  cases hk : p.kind <;> simp [dispatchRead, hk] at ha ⊢
  exact h hk

/-- The rule that a delivery runs queues the next read, closes the buffer, or ends it by an error. -/
theorem delivered_buffer {tag : Tag} {data : List Byte} {s t : State} (h : Delivered tag data s t)
    (hp : s.db.phase = .opened ∨ s.db.phase = .closing) : BufferStep s t := by
  cases h with
  | user _ => exact .of_db_eq [.deliver tag data] rfl rfl
  | error e info c len ty _ _ _ _ => exact teardown_buffer e info rfl rfl
  | dispatch ty len b k remaining p _ _ _ _ hidat _ hpe =>
    refine withRead_buffer [] rfl (by simp) hp (dispatchRead_pos fun hk => ?_)
    subst hpe
    exact (hidat hk).2
  | ihdr w h ct _ _ _ _ _ =>
    exact withRead_buffer [.metadata w h _ _ _] rfl rfl hp nofun
  | gama v _ _ => exact withRead_buffer [.gamma v] rfl rfl hp nofun
  | more _ _ _ _ hlt => exact withRead_buffer [] rfl (by simp [idatTaken]) hp fun _ => by omega
  | finish _ _ _ hopen => exact closeOpen_buffer [] s.db.paused hopen (by simp) rfl (by simp) id
  | closed _ _ _ _ => exact .of_db_eq [] rfl (by simp)
  | header _ _ | emptyIdat ty len b _ _ _ | plte _ _ _ _ | patch _ _ _ | ignore _ _ | last _ _ _ _ | iend _ _ =>
    exact withRead_buffer [] rfl (by simp [idatTaken]) hp nofun

theorem did_buffer {i : Instr} {s t : State} (h : Did i s t) (hd : delivery i = false) : BufferStep s t := by
  cases h with
  | wait _ => exact .refl s
  | delivery _ _ _ _ _ hd' _ _ _ _ _ _ _ _ _ => simp [hd] at hd'
  | push bytes _ _ _ hp hb =>
    exact .of_paused [] (.grow [bytes] _ _ hp (.inl hp) (by simpa using hb) pausedAfterPush_of_paused)
      pausedAfterPush_of_paused (by simp)
  | pushLate _ _ _ _ _ | requestLate _ _ _ _ _ _ _ | pending _ _ _ _ _ | teardown _ _ _ _ _ =>
    exact teardown_buffer _ _ rfl rfl
  | close _ _ _ hp => exact closeOpen_buffer [] s.db.paused hp (by simp) rfl (by simp) id
  | closeWith bytes _ _ _ hp hb =>
    exact closeOpen_buffer [bytes] _ hp rfl rfl (by simpa using hb) pausedAfterPush_of_paused
  | request n al tag _ _ _ _ hp hn => exact withRead_buffer [] rfl (by simp) hp hn
  | pStart _ hstart =>
    have hp : s.db.phase = .opened := by
      simp only [startPending, Bool.and_eq_true, beq_iff_eq] at hstart
      obtain ⟨⟨⟨_, hp⟩, _⟩, _⟩ := hstart
      exact hp
    exact withRead_buffer [] rfl (by simp) (.inl hp) nofun
  | dispose _ _ _ => exact .of_paused [] (.finish _ _ (phaseRank_le_disposed _) (.inr rfl) id) id (by simp)
  | decDispose _ _ _ | encDispose _ _ _ => exact stop_buffer rfl rfl
  | finalized _ _ _ hp _ => exact finalizeBuffer_buffer hp
  | finish m _ _ _ => exact .of_db_eq [_] rfl rfl
  | pkSig _ _ | pkIhdr _ _ | block _ _ _ _ _ _ => exact .of_db_eq [_] rfl rfl
  | finishOutput _ _ => exact .of_db_eq [.data (chunkBytes tyIEND []), .endOfStream] rfl (by simp)
  | closeLate _ _ _ _ | crcInit _ _ _ | crcUpdate _ _ _ _ | crcFinal _ _ _ | encStart _ _ _ _ _ _ _ _ _ _
  | fed _ _ _ _ _ _ | line _ _ _ | encline _ _ _ _ | value _ _ | chunk _ _ _ _ _ _ =>
    exact .of_db_eq [] rfl (by simp)

/-- The state in which the operation's rule runs: a delivery first takes the head request and `k` bytes
(41_demand_buffer.md R160). -/
def taken (i : Instr) (k : Nat) (s : State) : State := if delivery i then served k s else s

@[simp] theorem taken_log (i : Instr) (k : Nat) (s : State) : (taken i k s).log = s.log := by
  unfold taken; split <;> rfl

theorem taken_db (i : Instr) (k : Nat) (s : State) : (taken i k s).db =
    if delivery i then { s.db with reads := s.db.reads.tail, blocks := (takefront s.db.blocks k).2 } else s.db := by
  unfold taken; split <;> rfl

@[simp] theorem taken_paused (i : Instr) (k : Nat) (s : State) : (taken i k s).db.paused = s.db.paused := by
  rw [taken_db]; split <;> rfl

@[simp] theorem taken_phase (i : Instr) (k : Nat) (s : State) : (taken i k s).db.phase = s.db.phase := by
  rw [taken_db]; split <;> rfl

@[simp] theorem taken_reads (i : Instr) (k : Nat) (s : State) :
    (taken i k s).db.reads = if delivery i then s.db.reads.tail else s.db.reads := by
  rw [taken_db]; split <;> rfl

/-- Every operation waits, or is one step of the buffer, a delivery after taking the request it answers and its bytes. -/
theorem exec_buffer {i : Instr} {s t : State} (h : exec i s = .next t) : t = s ∨ ∃ k, BufferStep (taken i k s) t := by
  by_cases hd : delivery i = true
  · refine (delivery_next hd h).imp_right ?_
    rintro ⟨_, _, k, _, _, _, hp, _, _, _, hx⟩
    exact ⟨k, by rw [taken, if_pos hd]; exact delivered_buffer hx hp⟩
  · exact .inr ⟨0, by rw [taken, if_neg hd]; exact did_buffer (exec_did h) (by simpa using hd)⟩

/-! ### The invariant -/

/-- 41_demand_buffer.md R163: a block that the read ends inside is cut, and the piece that stays is not empty. -/
theorem takefront_ne_nil {blocks : List (List Byte)} {k : Nat} (h : ∀ b ∈ blocks, b ≠ []) :
    ∀ b ∈ (takefront blocks k).2, b ≠ [] := by
  fun_induction takefront blocks k with
  | case1 | case2 => exact h
  | case3 b bs k _ _ r ih => exact ih fun c hc => h c (List.mem_cons_of_mem b hc)
  | case4 b bs k _ hlt =>
    have hcut : b.drop k ≠ [] := by simpa using hlt
    exact List.forall_mem_cons.2 ⟨hcut, fun c hc => h c (List.mem_cons_of_mem b hc)⟩

theorem served_bufferOk {s : State} (hs : BufferOk s) (k : Nat) : BufferOk (served k s) where
  blocks := takefront_ne_nil hs.blocks
  reads r hr := hs.reads r (List.mem_of_mem_tail hr)
  ended hp := by
    obtain ⟨hblocks, hreads⟩ := hs.ended hp
    simp [hblocks, hreads, takefront]

theorem taken_bufferOk {s : State} (hs : BufferOk s) (i : Instr) (k : Nat) : BufferOk (taken i k s) := by
  unfold taken
  split
  · exact served_bufferOk hs k
  · exact hs

theorem DbStep.keeps_bufferOk {s t : State} (h : DbStep s.db t.db) (hs : BufferOk s) : BufferOk t := by
  obtain ⟨hblocks, hreads, hended⟩ := hs
  generalize hd : t.db = d at h
  suffices hok : (∀ b ∈ d.blocks, b ≠ []) ∧ (∀ r ∈ d.reads, r.allowLess = true → 0 < r.length) ∧
      (d.phase = .finalized ∨ d.phase = .disposed → d.blocks = [] ∧ d.reads = []) by
    obtain ⟨hblocks, hreads, hended⟩ := hok
    subst hd
    exact ⟨hblocks, hreads, hended⟩
  cases h with
  | same => exact ⟨hblocks, hreads, hended⟩
  | grow new paused phase _ hp hnew _ =>
    exact ⟨List.forall_mem_append.2 ⟨hblocks, hnew⟩, hreads, by rcases hp with rfl | rfl <;> simp⟩
  | queue r hp hr =>
    exact ⟨hblocks, List.forall_mem_append.2 ⟨hreads, by simpa using hr⟩, by rcases hp with hp | hp <;> simp [hp]⟩
  | finish => exact ⟨by simp, by simp, fun _ => ⟨rfl, rfl⟩⟩

/-- Settles O10: a delivery leaves no empty block, and every step of the buffer keeps the invariant. -/
theorem bufferKept : Obligations.BufferKept := by
  intro s t hs h
  refine step_keeps (fun _ _ hs => ⟨hs.blocks, hs.reads, hs.ended⟩) (fun _ _ _ _ hs => ⟨hs.blocks, hs.reads, hs.ended⟩)
    (fun k par rest _ => bufferOk_construct k par rest) ?_ hs h
  intro i s t hs h
  obtain rfl | ⟨k, hstep⟩ := exec_buffer h
  · exact hs
  · exact hstep.db.keeps_bufferOk (taken_bufferOk hs i k)

/-! ### `EV_DRAIN` -/

/-- The `EV_DRAIN` events of a step: one more where the buffer stops being paused. -/
theorem BufferStep.count_drain {s t : State} (h : BufferStep s t) : (t.log.filter isDrain).length =
    (s.log.filter isDrain).length + (if s.db.paused = true ∧ t.db.paused = false then 1 else 0) := by
  obtain ⟨_, events, he, hlog⟩ := h
  have hquiet : events.filter isDrain = [] := List.filter_eq_nil_iff.2 fun e hm => by simp [he e hm]
  rw [hlog, List.filter_append, List.filter_append, hquiet, List.append_nil, drainOn]
  split
  · exact List.length_append
  · simp

/-- Only a queued read resumes the buffer. -/
theorem DbStep.queues {d d' : Db} (h : DbStep d d') (hp : d.paused = true) (hn : d'.paused = false) :
    ∃ r, d'.reads = d.reads ++ [r] := by
  cases h with
  | same => simp [hp] at hn
  | queue r _ _ => exact ⟨r, rfl⟩
  | grow _ _ _ _ _ _ hkeep => cases (hkeep hp).symm.trans hn
  | finish _ _ _ _ hkeep => cases (hkeep hp).symm.trans hn

/-- Settles O19: every step of the buffer emits the event exactly where it resumes the buffer, and a queued read does. -/
theorem drainOnce : Obligations.DrainOnce := by
  refine ⟨fun i s t h => ?_, fun length allowLess tag s t hp h => ?_⟩
  · obtain rfl | ⟨k, hstep⟩ := exec_buffer h
    · exact ⟨by simp, fun hp hn => by simp [hp] at hn⟩
    · exact ⟨by simpa using hstep.count_drain, fun hp hn => by simpa using hstep.db.queues (by simpa using hp) hn⟩
  · rw [(request_serving hp h).2]
    exact ⟨rfl, rfl⟩

/-! ### Phases and events -/

theorem DbStep.phaseRank_le {d d' : Db} (h : DbStep d d') : phaseRank d.phase ≤ phaseRank d'.phase := by
  cases h with
  | same | queue _ _ _ => exact le_rfl
  | grow _ _ _ hp _ _ _ => rw [hp]; exact Nat.zero_le _
  | finish _ _ hle _ _ => exact hle

theorem BufferStep.log_grows {s t : State} (h : BufferStep s t) : s.log <+: t.log := by
  obtain ⟨_, events, _, hlog⟩ := h
  rw [hlog, List.append_assoc]
  exact ⟨_, rfl⟩

theorem serving_of_disposed {s : State} (h : s.db.phase = .disposed) : serving s = false := by
  simp [serving, servingPhase, h]

/-- Settles O18: every step of the buffer moves its phase forward and appends to the log; a disposed one serves nothing. -/
theorem onlyForward : Obligations.OnlyForward := by
  refine ⟨fun i s t h => ⟨?_, fun hp tag data => ⟨?_, ?_⟩⟩, fun i s t h => ?_⟩
  · obtain rfl | ⟨k, hstep⟩ := exec_buffer h
    · exact le_rfl
    · simpa using hstep.db.phaseRank_le
  · exact exec_tagInstr_of_not_delivers (by simp [delivers, serving_of_disposed hp])
  · exact whenEnabled_of_not (by simp [serveEnabled, serving_of_disposed hp])
  · obtain rfl | ⟨k, hstep⟩ := exec_buffer h
    · exact ⟨[], List.append_nil _⟩
    · simpa using hstep.log_grows

/-! ### The front of the block store -/

theorem buffered_eq_length (blocks : List (List Byte)) : buffered blocks = blocks.flatten.length :=
  List.length_flatten.symm

theorem takefront_fst (blocks : List (List Byte)) (k : Nat) : (takefront blocks k).1 = blocks.flatten.take k := by
  fun_induction takefront blocks k with
  | case1 | case2 => simp
  | case3 b bs k _ hle r ih => rw [List.flatten_cons, List.take_append, List.take_of_length_le hle, ← ih]
  | case4 b bs k _ hlt => rw [List.flatten_cons, List.take_append_of_le_length (by omega)]

theorem takefront_snd (blocks : List (List Byte)) (k : Nat) : (takefront blocks k).2.flatten = blocks.flatten.drop k := by
  have h := takefront_flatten blocks k
  rw [takefront_fst] at h
  exact List.append_cancel_left (h.trans (List.take_append_drop k _).symm)

theorem takefront_length {blocks : List (List Byte)} {k : Nat} (h : k ≤ buffered blocks) :
    (takefront blocks k).1.length = k := by
  rw [buffered_eq_length] at h
  rw [takefront_fst, length_take_of_le h]

theorem takefront_cons_of_pos (b : List Byte) (bs : List (List Byte)) {k : Nat} (hk : 0 < k) : takefront (b :: bs) k =
    if b.length ≤ k then (b ++ (takefront bs (k - b.length)).1, (takefront bs (k - b.length)).2)
    else (b.take k, b.drop k :: bs) :=
  if_neg hk.ne'

theorem takefront_zero (blocks : List (List Byte)) : takefront blocks 0 = ([], blocks) := by
  cases blocks <;> rfl

/-- Settles O21: the two halves of the stream, the loop, and what a cut block leaves. -/
theorem takefront_spec : Obligations.Takefront :=
  ⟨fun blocks k _ => ⟨takefront_fst blocks k, takefront_snd blocks k⟩, fun b bs _ hk => takefront_cons_of_pos b bs hk,
   fun blocks => ⟨takefront_zero blocks, fun _ h => takefront_ne_nil h⟩⟩

/-! ### Serving the head of the queue -/

theorem servable_iff (r : Request) (blocks : List (List Byte)) : servable r blocks = true ↔
    if r.allowLess then 0 < buffered blocks else r.length ≤ buffered blocks := by
  cases h : r.allowLess <;> simp [servable, h]

/-- 41_demand_buffer.md R160: only the head of the queue decides. -/
theorem serveEnabled_iff {s : State} {r : Request} {rest : List Request} (hq : s.db.reads = r :: rest) :
    serveEnabled s = true ↔
      Serving s ∧ if r.allowLess then 0 < buffered s.db.blocks else r.length ≤ buffered s.db.blocks := by
  rw [← servable_iff, Serving, ← serving_iff, serveEnabled, hq, Bool.and_eq_true]

theorem serveCount_of_exact {r : Request} (h : r.allowLess = false) (policy : Config.TakePolicy)
    (blocks : List (List Byte)) : serveCount policy r blocks = r.length := by
  simp [serveCount, h]

theorem serveCount_of_atMost {r : Request} (h : r.allowLess = true) (policy : Config.TakePolicy)
    (blocks : List (List Byte)) : serveCount policy r blocks = takeCount policy r.length blocks := by
  simp [serveCount, h]

/-- 41_demand_buffer.md R162: every policy stays within the range of `TAKE`. -/
theorem takeCount_range (policy : Config.TakePolicy) {n : Nat} {blocks : List (List Byte)} (hn : 0 < n)
    (hblocks : ∀ b ∈ blocks, b ≠ []) (hb : 0 < buffered blocks) :
    1 ≤ takeCount policy n blocks ∧ takeCount policy n blocks ≤ min n (buffered blocks) := by
  cases policy with
  | firstBlock =>
    cases blocks with
    | nil => simp [buffered] at hb
    | cons b bs =>
      have hpos : 0 < b.length := List.length_pos_iff.2 (hblocks b List.mem_cons_self)
      simp only [takeCount, List.headD_cons, buffered, List.map_cons, List.sum_cons]
      omega
  | buffered => simp only [takeCount]; omega
  | upTo c => simp only [takeCount]; omega

/-- The head request that can be served is answered by as many bytes as `DB.SERVE` takes (41_demand_buffer.md R160). -/
theorem serveCount_answers {r : Request} {blocks : List (List Byte)} (policy : Config.TakePolicy)
    (hr : r.allowLess = true → 0 < r.length) (hblocks : ∀ b ∈ blocks, b ≠ []) (hs : servable r blocks = true) :
    serveCount policy r blocks ≤ buffered blocks ∧ answers r (serveCount policy r blocks) blocks = true := by
  rw [servable_iff] at hs
  cases h : r.allowLess with
  | true =>
    obtain ⟨hpos, hle⟩ := takeCount_range policy (hr h) hblocks (by simpa [h] using hs)
    rw [serveCount_of_atMost h]
    simp only [answers, h, if_true, decide_eq_true_eq]
    omega
  | false =>
    rw [serveCount_of_exact h]
    simpa [answers, h] using hs

theorem execDbServe_of_enabled {s : State} {r : Request} {rest : List Request} (hq : s.db.reads = r :: rest)
    (h : serveEnabled s = true) : execDbServe s =
      deliver r.tag (takefront s.db.blocks (serveCount s.par.take r s.db.blocks)).1
        (served (serveCount s.par.take r s.db.blocks) s) := by
  rw [execDbServe, h, whenEnabled_true, serveHead, hq]

/-- `DB.SERVE` is the labelled delivery of the bytes it takes to the head's tag (41_demand_buffer.md R175). -/
theorem execDbServe_eq_tagInstr {s : State} {r : Request} {rest : List Request} (hs : BufferOk s)
    (hq : s.db.reads = r :: rest) (hk : s.kind = .decode ∨ isParserTag r.tag = false) (h : serveEnabled s = true) :
    execDbServe s = exec (tagInstr r.tag (takefront s.db.blocks (serveCount s.par.take r s.db.blocks)).1) s := by
  obtain ⟨hserving, hservable⟩ := (serveEnabled_iff hq).1 h
  obtain ⟨hle, ha⟩ := serveCount_answers s.par.take (hs.reads r (by simp [hq])) hs.blocks ((servable_iff r _).2 hservable)
  have hd : delivers r.tag (takefront s.db.blocks (serveCount s.par.take r s.db.blocks)).1 s = true :=
    (delivers_iff _ _ s).2 ⟨(serving_iff s).2 hserving, r, rest, hq, rfl, by rwa [takefront_length hle],
      by rw [takefront_length hle]⟩
  have hport : (!isParserTag r.tag || s.kind == .decode) = true := by rcases hk with hk | hk <;> simp [hk]
  rw [exec_tagInstr, hport, hd, Bool.and_true, whenEnabled_true, takefront_length hle, execDbServe_of_enabled hq h]

/-- 41_demand_buffer.md R175: the delivery of a user tag. -/
theorem exec_tagInstr_user {tag : Tag} {data : List Byte} {s : State} (hu : isParserTag tag = false)
    (h : delivers tag data s = true) :
    exec (tagInstr tag data) s = .next (emit (.deliver tag data) (served data.length s)) := by
  rw [exec_tagInstr, hu, h, Bool.not_false, Bool.true_or, Bool.and_true, whenEnabled_true, deliver_user hu]

theorem execDbServe_user {s : State} {r : Request} {rest : List Request} (hq : s.db.reads = r :: rest)
    (hu : isParserTag r.tag = false) (h : serveEnabled s = true) : execDbServe s =
      .next (emit (.deliver r.tag (takefront s.db.blocks (serveCount s.par.take r s.db.blocks)).1)
        (served (serveCount s.par.take r s.db.blocks) s)) := by
  rw [execDbServe_of_enabled hq h, deliver_user hu]

/-- Settles O27: the head that can be served is answered by the bytes that `TAKE` gives; a user tag's rule is its event. -/
theorem delivery_spec : Obligations.Delivery := by
  refine ⟨fun s r rest hs hq hk => ⟨fun h => ⟨execDbServe_eq_tagInstr hs hq hk h,
      fun hl => serveCount_of_exact hl _ _, fun hl => ?_⟩, serveEnabled_iff hq, whenEnabled_of_not⟩,
    fun tag data s hu h => exec_tagInstr_user hu h, fun r rest s hq hu h => ?_⟩
  · rw [serveCount_of_atMost hl]
    obtain ⟨_, hb⟩ := (serveEnabled_iff hq).1 h
    exact takeCount_range _ (hs.reads r (by simp [hq]) hl) hs.blocks (by simpa [hl] using hb)
  · rw [exec_dbServe, execDbServe_user hq hu h]
    simp [emit, served, hq]

/-- 41_demand_buffer.md R177: one exact read after the other is cut from the front of the stream. -/
theorem times_dbServe_exact {reads : List Request} {s : State} (hq : s.db.reads = reads) (hs : Serving s)
    (hreads : ∀ r ∈ reads, r.allowLess = false ∧ isParserTag r.tag = false)
    (hsum : (reads.map Request.length).sum ≤ buffered s.db.blocks) :
    ∃ t, times .dbServe reads.length s = .next t ∧ t.log = s.log ++ slices reads s.db.blocks.flatten ∧ t.db.reads = [] ∧
      t.db.blocks.flatten = s.db.blocks.flatten.drop (reads.map Request.length).sum := by
  induction reads generalizing s with
  | nil => exact ⟨s, rfl, by simp [slices], hq, by simp⟩
  | cons r rest ih =>
    obtain ⟨⟨hexact, huser⟩, hrest⟩ := List.forall_mem_cons.1 hreads
    rw [List.map_cons, List.sum_cons] at hsum
    have hle : r.length ≤ buffered s.db.blocks := by omega
    have henabled : serveEnabled s = true := (serveEnabled_iff hq).2 ⟨hs, by simpa [hexact] using hle⟩
    have hserve := execDbServe_user hq huser henabled
    rw [serveCount_of_exact hexact] at hserve
    obtain ⟨t, ht, hlog, hnone, hleft⟩ :=
      ih (s := emit (.deliver r.tag (takefront s.db.blocks r.length).1) (served r.length s)) (by simp [hq]) hs hrest (by
        rw [emit_db, served_db, buffered_eq_length, takefront_snd, List.length_drop, ← buffered_eq_length]
        omega)
    refine ⟨t, ?_, ?_, hnone, ?_⟩
    · rw [List.length_cons, times, exec_dbServe, hserve, andThen_of_next, ht]
    · rw [hlog]
      simp [slices, takefront_fst, takefront_snd]
    · rw [hleft]
      simp [takefront_snd, List.drop_drop]

/-- Settles O28, by induction on the queue. -/
theorem exactSlices : Obligations.ExactSlices := fun _ hk he hp hreads hsum =>
  times_dbServe_exact rfl ⟨by rw [hk]; rfl, he, hp⟩ hreads hsum

/-! ### What a push, a request and a close answer -/

theorem pushBlock_late (bytes : List Byte) {s : State} (hp : s.db.phase ≠ .opened) :
    pushBlock bytes s = .next (teardown .writeAfterClose [] s) :=
  if_pos hp

theorem pushBlock_open {bytes : List Byte} {s : State} (hp : s.db.phase = .opened) (hb : bytes ≠ [])
    (hc : exceeds s.par.capacity (buffered s.db.blocks + bytes.length) = false) : pushBlock bytes s =
      .next { s with db := { s.db with blocks := s.db.blocks ++ [bytes], paused := pausedAfterPush s.db } } := by
  rw [pushBlock, if_neg (not_not.2 hp), if_neg hb, if_neg (ne_true_of_eq_false hc)]

theorem request_late (n : Nat) (al : Bool) (tag : Tag) {s : State} (hp : s.db.phase = .finalized ∨ s.db.phase = .disposed) :
    request n al tag s = .next (teardown .readAfterDispose [] s) :=
  if_pos hp.symm

theorem closeBuffer_late {bytes : List Byte} {s : State} (hp : s.db.phase ≠ .opened) (hb : bytes ≠ []) :
    closeBuffer bytes s = .next (teardown .writeAfterClose [] s) := by
  rw [closeBuffer, if_pos hp, if_neg hb, raise]

theorem closeBuffer_nil (s : State) :
    closeBuffer [] s = .next (if s.db.phase ≠ .opened then s else closeOpen s) := by
  unfold closeBuffer
  split <;> rfl

/-! ### The commands -/

/-- Settles O22: both ports run the push, which an open buffer accepts. -/
theorem pushAppends : Obligations.PushAppends := fun _ s he hp hb hc =>
  ⟨fun hk => (bufferCommand_of_hasBuffer he hk _).trans (pushBlock_open (s := { s with started := true }) hp hb hc),
   fun hk => (decCommand_of_decode he hk _).trans (pushBlock_open (s := { s with started := true }) hp hb hc)⟩

/-- Settles O23: a client's request is the buffer's. -/
theorem requestQueues : Obligations.RequestQueues := fun _ _ _ s hk he hp ht hn hr =>
  (execDbRequest_client he hk ht).trans (request_open (s := { s with started := true }) hp hn hr)

/-- Settles O24: the phase is looked at first. -/
theorem bufferErrors : Obligations.BufferErrors := by
  refine fun s he => ⟨fun bytes hp => ⟨fun hk => ⟨?_, fun hb => ?_⟩, fun hk => ⟨?_, fun hb => ?_⟩⟩,
    fun n al tag hk ht hp => ?_⟩
  · exact (bufferCommand_of_hasBuffer he hk _).trans (pushBlock_late bytes hp)
  · exact (bufferCommand_of_hasBuffer he hk _).trans (closeBuffer_late hp hb)
  · exact (decCommand_of_decode he hk _).trans (pushBlock_late bytes hp)
  · exact (decCommand_of_decode he hk _).trans (closeBuffer_late hp hb)
  · exact (execDbRequest_client he hk ht).trans (request_late n al tag hp)

/-- A push that an open buffer without reads answers leaves it so and paused, and emits nothing. -/
theorem exec_dbPush_unread {bytes : List Byte} {s t : State} (hk : s.kind = .buffer) (he : s.err = none)
    (hq : s.db.reads = []) (hp : s.db.phase = .opened) (h : exec (.dbPush bytes) s = .next t) :
    t.kind = .buffer ∧ t.err = none ∧ t.db.reads = [] ∧ t.db.phase = .opened ∧ t.db.paused = true ∧ t.log = s.log := by
  rw [exec_dbPush, execDbPush, bufferCommand_of_hasBuffer he (by rw [hk]; rfl)] at h
  obtain ⟨hlate, _⟩ | ⟨_, _, rfl⟩ := pushBlock_next h
  · exact absurd hp hlate
  · exact ⟨hk, he, hq, hp, if_pos hq, rfl⟩

/-- A request that an open buffer answers resumes it, and a paused one signals drain. -/
theorem exec_dbRequest_paused {n : Nat} {al : Bool} {tag : Tag} {s t : State} (hk : s.kind = .buffer)
    (he : s.err = none) (hp : s.db.phase = .opened) (hpaused : s.db.paused = true)
    (h : exec (.dbRequest n al tag) s = .next t) : t.db.paused = false ∧ t.log = s.log ++ [.drain] := by
  cases ht : isParserTag tag with
  | true =>
    rw [exec_dbRequest, execDbRequest_owned he (by rw [hk]; rfl) (.inr ht)] at h
    cases h
  | false =>
    rw [exec_dbRequest, execDbRequest_client he hk ht] at h
    obtain ⟨_, rfl⟩ := request_serving (s := { s with started := true }) (.inl hp) h
    exact ⟨rfl, by simp [withRead, drainIf, hpaused]⟩

/-- Settles O29: a push leaves the buffer paused and without reads, so that the next one does the same. -/
theorem backpressure : Obligations.Backpressure := by
  intro bytes n al tag s t hk he hq hp h
  obtain ⟨hk, he, hq, hp, hpaused, _⟩ := exec_dbPush_unread hk he hq hp h
  refine ⟨hpaused, fun more u hu => ?_, fun v hv => exec_dbRequest_paused hk he hp hpaused hv⟩
  obtain ⟨_, _, _, _, hpaused, hlog⟩ := exec_dbPush_unread hk he hq hp hu
  exact ⟨hpaused, hlog⟩

/-! ### A close with bytes -/

/-- 41_demand_buffer.md R165, whatever the close `f` that follows the push, if a dead session ignores it and an open buffer
takes it as a close without bytes. -/
theorem closeBuffer_eq_push {bytes : List Byte} {s : State} {f : State → Out} (hb : bytes ≠ [])
    (hdead : ∀ t, t.err.isSome = true → f t = .next t)
    (hopen : ∀ db, db.phase = .opened → f { s with db := db } = closeBuffer [] { s with db := db }) :
    closeBuffer bytes s = andThen (pushBlock bytes s) f := by
  by_cases hp : s.db.phase = .opened
  · cases hpush : pushBlock bytes s with
    | next t =>
      obtain ⟨hlate, _⟩ | ⟨_, _, rfl⟩ := pushBlock_next hpush
      · exact absurd hp hlate
      · refine Eq.trans ?_ (hopen _ (by exact hp)).symm
        rw [closeBuffer, hpush, closeBuffer_nil]
        simp [hp, hb]
    | fault r | refused r => simp [closeBuffer, hp, hb, hpush, andThen]
  · rw [closeBuffer_late hp hb, pushBlock_late bytes hp, andThen_of_next, hdead _ (by simp)]

/-- A command at a port that sessions of some kinds have. -/
def portCommand (has : Kind → Prop) [DecidablePred has] (s : State) (f : State → Out) : Out :=
  command s (fun t => if has t.kind then f t else .refused .unitAbsent)

theorem bufferCommand_eq_portCommand : bufferCommand = portCommand (hasBuffer · = true) := rfl

theorem decCommand_eq_portCommand : decCommand = portCommand (· = .decode) := rfl

theorem portCommand_live {has : Kind → Prop} [DecidablePred has] {s : State} (he : s.err = none) (hk : has s.kind)
    (f : State → Out) : portCommand has s f = f { s with started := true } :=
  (command_live he _).trans (if_pos hk)

/-- A dead session ignores all three commands, a session without the port refuses the first, and on another the close is
the push and then the close. -/
theorem portCommand_close (has : Kind → Prop) [DecidablePred has] {bytes : List Byte} (s : State) (hb : bytes ≠ []) :
    portCommand has s (closeBuffer bytes) =
      andThen (portCommand has s (pushBlock bytes)) (portCommand has · (closeBuffer [])) := by
  by_cases he : s.err = none
  · by_cases hk : has s.kind
    · rw [portCommand_live he hk, portCommand_live he hk]
      exact closeBuffer_eq_push hb (fun _ ht => command_dead ht _)
        fun db _ => portCommand_live (s := { s with started := true, db := db }) he hk _
    · simp [portCommand, command_live he, hk, andThen]
  · simp [portCommand, command_dead (Option.isSome_iff_ne_none.2 he)]

/-- Settles O26: the two ports differ in the kinds that have them only. -/
theorem closeIsPushThenClose : Obligations.CloseIsPushThenClose := by
  refine fun bytes s hb => ⟨?_, ?_⟩
  · rw [exec_dbClose, exec_dbPush, execDbClose, execDbPush, bufferCommand_eq_portCommand]
    exact portCommand_close _ s hb
  · rw [exec_decClose, exec_decPush, execDecClose, execDecPush, decCommand_eq_portCommand]
    exact portCommand_close _ s hb

/-! ### The end of the buffer -/

/-- 41_demand_buffer.md R167: `DB.DRAINEND` is enabled on a closing buffer whose head cannot be served. -/
theorem drainEnabled_iff (s : State) : drainEnabled s = true ↔
    hasBuffer s.kind = true ∧ s.err = none ∧ s.db.phase = .closing ∧ serveEnabled s = false := by
  simp [drainEnabled, Option.isNone_iff_eq_none, and_assoc]

theorem serveEnabled_of_no_reads {s : State} (h : s.db.reads = []) : serveEnabled s = false := by
  simp [serveEnabled, h]

theorem execDbDrainend_of_enabled {s : State} (h : drainEnabled s = true) : execDbDrainend s =
    if s.db.reads = [] then .next (finalizeBuffer s) else raise .pendingReadsOnClose [] s := by
  rw [execDbDrainend, h, whenEnabled_true]

/-- Settles O25: a close at either port, and `DB.DRAINEND` and `finalize()` where they are enabled. -/
theorem bufferEnds : Obligations.BufferEnds := by
  refine ⟨fun s he => ?_, fun s hk he hp => ⟨fun hq => ?_, fun r rest hq hshort => ?_, fun hserve => ?_⟩,
    fun s hs hq => ?_⟩
  · exact ⟨fun hk => (bufferCommand_of_hasBuffer he hk _).trans (closeBuffer_nil _),
      fun hk => (decCommand_of_decode he hk _).trans (closeBuffer_nil _)⟩
  · rw [exec_dbDrainend, execDbDrainend_of_enabled ((drainEnabled_iff s).2 ⟨hk, he, hp, serveEnabled_of_no_reads hq⟩),
      if_pos hq]
    rfl
  · have hserve : serveEnabled s = false := by
      rw [Bool.eq_false_iff, ne_eq, serveEnabled_iff hq]
      rintro ⟨_, hservable⟩
      by_cases ha : r.allowLess = true
      · rw [if_pos ha] at hshort hservable
        omega
      · rw [if_neg ha] at hshort hservable
        omega
    rw [exec_dbDrainend, execDbDrainend_of_enabled ((drainEnabled_iff s).2 ⟨hk, he, hp, hserve⟩), if_neg (by simp [hq]),
      raise]
  · exact whenEnabled_of_not (by simp [drainEnabled, hserve])
  · have henabled : (serving s && s.db.reads == []) = true := by simp [(serving_iff s).2 hs, hq]
    rw [exec_finalize, execFinalize, henabled, whenEnabled_true]
    rfl

/-! ### Disposal -/

theorem execDbDispose_live {s : State} (he : s.err = none) (hb : hasBuffer s.kind = true) :
    execDbDispose s = .next (disposeBuffer { s with started := true }) :=
  bufferCommand_of_hasBuffer he hb _

theorem execDecDispose_live {s : State} (he : s.err = none) (hk : s.kind = .decode) : execDecDispose s = .next { s with
    started := true
    db := { s.db with blocks := [], reads := [], phase := .disposed }
    p := { s.p with state := .failed }
    fe := { s.fe with live := false }
    infl := { s.infl with live := false } } := by
  rw [execDecDispose, decCommand_of_decode he hk, stop_of_decode (by exact hk)]

theorem execEncDispose_live {s : State} (he : s.err = none) (hk : s.kind = .encode) : execEncDispose s = .next { s with
    started := true
    pk := .failed
    fe := { s.fe with live := false }
    defl := { s.defl with live := false } } := by
  rw [execEncDispose, encCommand_of_encode he hk, stop_of_encode (by exact hk)]

theorem autoPick_of_nothingEnabled {s : State} (h : NothingEnabled s) : autoPick s = none := by
  simp [autoPick, h.serve, h.drain, h.inflOut, h.line, h.finish, h.sig, h.ihdr, h.encline, h.deflOut, h.deflDone]

/-- No agent can move where the buffer serves nothing and does not drain, and neither the engine nor the packer runs. -/
theorem autoPick_of_idle {s : State} (hserving : serving s = false) (hdrain : drainEnabled s = false)
    (hengine : defilterLive s = false) (hpacking : ∀ phase, phase ≠ .failed → packing phase s = false) :
    autoPick s = none := by
  have hdata : packing .data s = false := hpacking _ nofun
  refine autoPick_of_nothingEnabled ⟨?_, hdrain, ?_, ?_, ?_, hpacking _ nofun, hpacking _ nofun, ?_, ?_, ?_⟩
  · simp [serveEnabled, hserving]
  · simp [inflOutEnabled, hengine]
  · simp [lineEnabled, hengine]
  · simp [finishEnabled, hengine]
  · simp [enclineEnabled, hdata]
  · simp [deflOutEnabled, hdata]
  · simp [deflDoneEnabled, hdata]

/-- 60_exceptions.md R376, of a decode session. -/
theorem autoPick_stopped_decode {s : State} (hk : s.kind = .decode) (hp : s.db.phase = .disposed)
    (hl : s.fe.live = false) : autoPick s = none :=
  autoPick_of_idle (serving_of_disposed hp) (by simp [drainEnabled, hp]) (by simp [defilterLive, hl])
    fun _ _ => by simp [packing, hk]

/-- 60_exceptions.md R376, of an encode session. -/
theorem autoPick_stopped_encode {s : State} (hk : s.kind = .encode) (hp : s.pk = .failed) : autoPick s = none :=
  autoPick_of_idle (by simp [serving, hasBuffer, hk]) (by simp [drainEnabled, hasBuffer, hk])
    (by simp [defilterLive, hk]) fun _ h => by simp [packing, hp, h.symm]

/-- Settles O59: disposal writes what it leaves, and finds nothing more to write a second time. -/
theorem disposal : Obligations.Disposal := by
  refine ⟨fun s he hb => ⟨execDbDispose_live he hb, fun t ht => ?_⟩, fun s he => ⟨fun hk => ?_, fun hk => ?_⟩⟩
  · rw [exec_dbDispose, execDbDispose_live he hb] at ht
    cases ht
    exact execDbDispose_live (s := disposeBuffer { s with started := true }) he hb
  · intro t
    exact ⟨execDecDispose_live he hk, execDecDispose_live (s := t) he hk, autoPick_stopped_decode (s := t) hk rfl rfl,
      fun bytes => (decCommand_of_decode (s := t) he hk _).trans (pushBlock_late (s := t) bytes nofun)⟩
  · intro t
    exact ⟨execEncDispose_live he hk, execEncDispose_live (s := t) he hk, autoPick_stopped_encode (s := t) hk rfl⟩

end Sys2Proof.Proofs
end

section
/-! PROOFS. The Chunk Parser's discipline (spec/42_chunk_parser.md R192): one request at a time, the one that its
registers name. First what a state of each `P.state` owes to it, then that every delivery leads from one such state to
another; after that the faults, of which the discipline shuts out two. -/

namespace Sys2Proof.Proofs

open Sys2Proof.Machine Sys2Proof.Safety Sys2Proof.Laws

/-! ### What each state of the parser owes -/

/-- The discipline looks at the queue, the parser's registers and two flags of `INFL` only. -/
theorem parserOk_of_eq {s t : State} (hs : ParserOk s) (hreads : t.db.reads = s.db.reads) (hp : t.p = s.p)
    (hlive : t.infl.live = s.infl.live) (hended : t.infl.ended = s.infl.ended) : ParserOk t := by
  obtain ⟨h1, h2, h3, h4, h5, h6⟩ := hs
  rw [← hp] at h1 h2 h3 h4 h5 h6
  exact ⟨hreads.trans h1, h2, h3, h4, h5, hlive.trans h6.1, hended.trans h6.2⟩

section ByState

variable {s : State} (hinfl : s.infl.live = true ∧ s.infl.ended = s.p.hasIEND)
include hinfl

theorem parserOk_of_awaitChunkHeader (hstate : s.p.state = .awaitChunkHeader) (hreads : s.db.reads = [headerRead])
    (hend : s.p.hasIEND = false) : ParserOk s where
  reads := by simp [hreads, expectedReads, hstate, headerRead]
  idat := by simp [hstate]
  first := by simp [hstate]
  later := by simp [hstate]
  ended := by simp [hend]
  infl := hinfl

theorem parserOk_of_awaitChunkCRC (hstate : s.p.state = .awaitChunkCRC) (hreads : s.db.reads = [crcRead])
    (hparsed : s.p.hasIHDR = true) : ParserOk s where
  reads := by simp [hreads, expectedReads, hstate, crcRead]
  idat := by simp [hstate]
  first := by simp [hstate]
  later _ := hparsed
  ended _ := .inl hstate
  infl := hinfl

theorem parserOk_of_terminated (hstate : s.p.state = .terminated) (hreads : s.db.reads = [])
    (hparsed : s.p.hasIHDR = true) : ParserOk s where
  reads := by simp [hreads, expectedReads, hstate]
  idat := by simp [hstate]
  first := by simp [hstate]
  later _ := hparsed
  ended _ := .inr hstate
  infl := hinfl

theorem parserOk_of_dispatchChunk (hstate : s.p.state = .dispatchChunk) (hreads : s.db.reads = [dispatchRead s.p])
    (hidat : s.p.kind = .idat → 0 < s.p.remaining ∧ s.p.remaining ≤ s.p.length.toNat)
    (hfirst : s.p.kind = .ihdr → s.p.hasIHDR = false) (hlater : s.p.kind ≠ .ihdr → s.p.hasIHDR = true)
    (hend : s.p.hasIEND = false) : ParserOk s where
  reads := by simp [hreads, expectedReads, hstate]
  idat _ := hidat
  first _ := hfirst
  later h := by
    rcases h with ⟨_, hk⟩ | h | h
    · exact hlater hk
    all_goals cases hstate.symm.trans h
  ended := by simp [hend]
  infl := hinfl

end ByState

/-! ### What the parser waits for -/

/-- The state in which the parser waits for a delivery to the tag (10_state.md R27). -/
def Awaits (tag : Tag) (p : Parser) : Prop :=
  match tag with
  | .sig => p.state = .awaitSignature
  | .hdr => p.state = .awaitChunkHeader
  | .ihdr => p.state = .dispatchChunk ∧ p.kind = .ihdr
  | .plte => p.state = .dispatchChunk ∧ p.kind = .plte
  | .trns => p.state = .dispatchChunk ∧ p.kind = .trns
  | .gama => p.state = .dispatchChunk ∧ p.kind = .gama
  | .idat => p.state = .dispatchChunk ∧ p.kind = .idat
  | .iend => p.state = .dispatchChunk ∧ p.kind = .iend
  | .skip => p.state = .dispatchChunk ∧ p.kind = .skip
  | .crc => p.state = .awaitChunkCRC
  | .user0 | .user1 | .user2 | .user3 | .user4 | .user5 => False

theorem awaits_dispatchRead {p : Parser} (h : p.state = .dispatchChunk) : Awaits (dispatchRead p).tag p := by
  cases hk : p.kind <;> simp [dispatchRead, hk, Awaits, h]

/-- The tag of the one queued read tells the parser's state. -/
theorem awaits_of_expectedReads {p : Parser} {r : Request} {rest : List Request} (h : expectedReads p = r :: rest) :
    rest = [] ∧ Awaits r.tag p := by
  cases hs : p.state <;> simp only [expectedReads, hs, List.cons.injEq, reduceCtorEq] at h
  all_goals obtain ⟨rfl, rfl⟩ := h
  case dispatchChunk => exact ⟨rfl, awaits_dispatchRead hs⟩
  all_goals exact ⟨rfl, hs⟩

/-- A read whose length is fixed is a header's or a CRC's, where the tag says so. -/
theorem length_of_expectedReads {p : Parser} {r : Request} {rest : List Request} (h : expectedReads p = r :: rest) :
    (r.tag = .hdr → r.allowLess = false ∧ r.length = 8) ∧ (r.tag = .crc → r.allowLess = false ∧ r.length = 4) := by
  cases hs : p.state <;> simp only [expectedReads, hs, List.cons.injEq, reduceCtorEq] at h
  all_goals obtain ⟨rfl, _⟩ := h
  case dispatchChunk => cases hk : p.kind <;> simp [dispatchRead, hk]
  all_goals simp

/-- Before the CRC of IEND is read the parser has not met IEND. -/
theorem hasIEND_false_of_awaits {s : State} {tag : Tag} (hs : ParserOk s) (hw : Awaits tag s.p) (ht : tag ≠ .crc) :
    s.p.hasIEND = false := by
  by_contra hn
  rcases hs.ended (by simpa using hn) with h | h <;> cases tag <;> simp_all [Awaits]

/-- A payload other than IHDR's, and a chunk's CRC, come after an IHDR. -/
theorem hasIHDR_of_awaits {s : State} {tag : Tag} (hs : ParserOk s) (hw : Awaits tag s.p)
    (ht : tag ≠ .sig ∧ tag ≠ .hdr ∧ tag ≠ .ihdr) : s.p.hasIHDR = true := by
  refine hs.later ?_
  cases tag <;> simp_all [Awaits]

/-! ### Every operation keeps the discipline -/

/-- Where nothing is queued, a queued read is the only one. -/
theorem withRead_reads {n : Nat} {al : Bool} {tag : Tag} {s : State} (h : s.db.reads = []) :
    (withRead n al tag s).db.reads = [{ length := n, allowLess := al, tag := tag }] := by
  simp [withRead, h]

/-- A close of the buffer finalizes it where nothing is queued: the queue stays. -/
theorem closeOpen_reads (s : State) : (closeOpen s).db.reads = s.db.reads := by
  rw [closeOpen_db]
  split
  · next h => exact h.symm
  · rfl

/-- The rule that a delivery to the parser runs ends in the next read, in the last one answered, or in an error, which
disposes the buffer. -/
theorem delivered_parserOk {s t : State} {r : Request} {rest : List Request} {k : Nat} {data : List Byte}
    (hs : ParserOk s) (hq : s.db.reads = r :: rest) (hx : Delivered r.tag data (served k s) t)
    (hp : t.db.phase ≠ .disposed) : ParserOk t := by
  obtain ⟨rfl, hw⟩ := awaits_of_expectedReads (hs.reads.symm.trans hq)
  have hinfl := hs.infl
  have hend := hasIEND_false_of_awaits hs hw
  have hparsed := hasIHDR_of_awaits hs hw
  have htail : (served k s).db.reads = [] := by rw [served_db, hq, List.tail_cons]
  cases hx with
  | user hu => cases htag : r.tag <;> simp_all [Awaits, isParserTag]
  | error e info c len ty hk _ _ _ => exact absurd (by rw [teardown_db (by rw [hk]; rfl)]) hp
  | header _ htag =>
    refine parserOk_of_awaitChunkHeader hinfl rfl (withRead_reads htail) ?_
    rcases htag with htag | htag | ⟨_, hn⟩
    · exact hend (by simp [htag])
    · exact hend (by simp [htag])
    · exact hn
  | dispatch ty len b kind remaining p _ htag hfirst hlater hidat _ hpe =>
    subst hpe
    refine parserOk_of_dispatchChunk hinfl rfl (withRead_reads htail) (fun hk => ?_) hfirst hlater
      (hend (by simp [htag]))
    obtain ⟨heq, hpos⟩ := hidat hk
    exact ⟨hpos, heq.le⟩
  | emptyIdat ty len b _ _ hi => exact parserOk_of_awaitChunkCRC hinfl rfl (withRead_reads htail) hi
  | ihdr w h ct _ _ _ _ _ => exact parserOk_of_awaitChunkCRC hinfl rfl (withRead_reads htail) rfl
  | plte _ htag _ _ | patch _ htag _ | ignore _ htag | gama v _ htag | last _ htag _ _ =>
    exact parserOk_of_awaitChunkCRC hinfl rfl (withRead_reads htail) (hparsed (by simp [htag]))
  | more _ htag _ _ hlt =>
    simp only [htag, Awaits] at hw
    obtain ⟨hstate, hkind⟩ := hw
    obtain ⟨_, hle⟩ := hs.idat hstate hkind
    refine parserOk_of_dispatchChunk hinfl hstate ?_ (fun _ => ⟨Nat.sub_pos_of_lt hlt, (Nat.sub_le _ _).trans hle⟩) ?_
      (fun _ => hparsed (by simp [htag])) (hend (by simp [htag]))
    · simp [withRead, idatTaken, hq, dispatchRead, hkind]
    · exact fun h => by cases hkind.symm.trans h
  | iend _ htag =>
    exact parserOk_of_awaitChunkCRC ⟨hinfl.1, rfl⟩ rfl (withRead_reads htail) (hparsed (by simp [htag]))
  | finish _ htag _ _ =>
    exact parserOk_of_terminated (by simpa using hinfl) (by simp) ((closeOpen_reads _).trans htail)
      (by simpa using hparsed (by simp [htag]))
  | closed _ htag _ _ => exact parserOk_of_terminated hinfl rfl htail (hparsed (by simp [htag]))

theorem did_parserOk {i : Instr} {s t : State} (hs : ParserOk s) (hk : s.kind = .decode) (h : Did i s t)
    (hp : t.db.phase ≠ .disposed) : ParserOk t := by
  have hb : hasBuffer s.kind = true := by rw [hk]; rfl
  cases h
  case delivery r rest n data hd hdata htag hb' he hphase hq hfront hport hx => exact delivered_parserOk hs hq hx hp
  -- what disposes the buffer ends the discipline
  case pushLate => exact absurd (by rw [teardown_db (by exact hb)]) hp
  case pending | teardown => exact absurd (by rw [teardown_db hb]) hp
  case dispose => exact absurd rfl hp
  case decDispose => exact absurd (by rw [stop_db (by exact hb)]) hp
  -- a decode session's read is queued already, or is no client's
  case pStart hstart =>
    simp only [startPending, Bool.and_eq_true, beq_iff_eq] at hstart
    obtain ⟨⟨_, hstate⟩, hnone⟩ := hstart
    have hreads := hs.reads
    simp [expectedReads, hstate, hnone] at hreads
  case request hk' _ _ _ | requestLate hk' _ => cases hk.symm.trans hk'
  case encDispose hk' => cases hk.symm.trans hk'
  case close | closeWith => exact parserOk_of_eq hs (closeOpen_reads _) (by simp) (by simp) (by simp)
  case finalized hnone => exact parserOk_of_eq hs hnone.symm rfl rfl rfl
  all_goals exact parserOk_of_eq hs rfl rfl rfl rfl

theorem exec_keeps_parserInv {i : Instr} {s t : State} (hs : ParserInv s) (h : exec i s = .next t) : ParserInv t := by
  intro hk hp
  have hkind : t.kind = s.kind := writersOnly .kind i s t h rfl
  have hk : s.kind = .decode := hkind.symm.trans hk
  obtain ⟨hphase, _⟩ := onlyForward.1 i s t h
  have hopen : s.db.phase ≠ .disposed := fun hd => hp (by
    rw [hd] at hphase
    cases ht : t.db.phase <;> simp [ht, phaseRank] at hphase ⊢)
  exact did_parserOk (hs hk hopen) hk (exec_did h) hp

/-- The discipline looks at neither the agenda nor the configuration. -/
theorem parserInv_with_agenda_cfg {s : State} (hs : ParserInv s) (rest : List Input) (c : Cfg) :
    ParserInv { s with cfg := c, agenda := rest } :=
  fun hk hp => parserOk_of_eq (hs hk hp) rfl rfl rfl rfl

theorem step_keeps_parserInv {s t : State} (hs : ParserInv s) (h : step s = .next t) : ParserInv t :=
  step_keeps (fun s rest hs => parserInv_with_agenda_cfg hs rest s.cfg)
    (fun _ c rest _ hs => parserInv_with_agenda_cfg hs rest c) (fun k par rest _ => parserInv_construct k par rest)
    (fun _ _ _ => exec_keeps_parserInv) hs h

/-! ### The faults of the rules -/

/-- The two faults that no byte stream leads to (log 17, log 18). -/
def isExcluded : Fault → Bool
  | .deliveredLength | .transformClosed => true
  | _ => false

theorem andThen_fault {o : Out} {g : State → Out} {f : Fault} (h : andThen o g = .fault f) :
    o = .fault f ∨ ∃ s, g s = .fault f := by
  cases o with
  | next s => exact .inr ⟨s, h⟩
  | fault r => exact .inl h
  | refused r => cases h

theorem whenEnabled_fault {b : Bool} {s : State} {o : Out} {f : Fault} (h : whenEnabled b s o = .fault f) :
    b = true ∧ o = .fault f := by
  cases b with
  | true => exact ⟨rfl, h⟩
  | false => cases h

theorem request_fault {n : Nat} {al : Bool} {tag : Tag} {s : State} {f : Fault} (h : request n al tag s = .fault f) :
    False := by
  unfold request raise at h
  split_ifs at h

theorem pushBlock_fault {bytes : List Byte} {s : State} {f : Fault} (h : pushBlock bytes s = .fault f) : False := by
  unfold pushBlock raise at h
  split_ifs at h

theorem closeBuffer_fault {last : List Byte} {s : State} {f : Fault} (h : closeBuffer last s = .fault f) : False := by
  unfold closeBuffer raise at h
  split_ifs at h
  rcases andThen_fault h with h | ⟨_, h⟩
  · exact pushBlock_fault h
  · cases h

theorem awaitCrc_fault {s : State} {f : Fault} (h : awaitCrc s = .fault f) : False := request_fault h

theorem awaitHeader_fault {s : State} {f : Fault} (h : awaitHeader s = .fault f) : False := request_fault h

theorem awaitPayload_fault {k : ChunkKind} {tag : Tag} {s : State} {f : Fault} (h : awaitPayload k tag s = .fault f) :
    False :=
  request_fault h

theorem dispatchClass_fault {c : ChunkClass} {s : State} {f : Fault} (h : dispatchClass c s = .fault f) :
    f = .secondHeader := by
  cases c with
  | ihdr =>
    simp only [dispatchClass, dispatchIhdr] at h
    split at h
    · cases h; rfl
    · exact (awaitPayload_fault h).elim
  | plte | trns | gama | iend => exact (awaitPayload_fault h).elim
  | idat =>
    simp only [dispatchClass, dispatchIdat] at h
    split at h
    · cases h
    · split at h
      · exact (awaitCrc_fault h).elim
      · exact (request_fault h).elim
  | ancillary => exact (request_fault h).elim
  | critical => cases h

/-- `K.HDR` faults on a second IHDR, and on a delivery of another length than its request. -/
theorem kHdr_fault {data : List Byte} {s : State} {f : Fault} (h : kHdr data s = .fault f) :
    f = .secondHeader ∨ f = .deliveredLength ∧ data.length ≠ 8 := by
  unfold kHdr at h
  split at h
  · dsimp only at h
    split at h
    · cases h
    · exact .inl (dispatchClass_fault h)
  · next hne =>
    cases h
    refine .inr ⟨rfl, fun hl => ?_⟩
    match data, hl with
    | [_, _, _, _, _, _, _, _], _ => exact hne _ _ _ _ _ _ _ _ rfl

theorem kIhdr_fault {data : List Byte} {s : State} {f : Fault} (h : kIhdr data s = .fault f) :
    f = .payloadLength ∨ f = .zeroDimension := by
  unfold kIhdr at h
  split at h
  · dsimp only at h
    split at h
    · cases h
    · split at h
      · cases h; exact .inr rfl
      · split at h
        · cases h
        · exact (awaitCrc_fault h).elim
  · cases h; exact .inl rfl

theorem kPlte_fault {data : List Byte} {s : State} {f : Fault} (h : kPlte data s = .fault f) :
    f = .paletteLength ∨ f = .paletteOverflow := by
  unfold kPlte at h
  split at h
  · cases h; exact .inl rfl
  · split at h
    · cases h; exact .inr rfl
    · exact (awaitCrc_fault h).elim

theorem kTrns_fault {data : List Byte} {s : State} {f : Fault} (h : kTrns data s = .fault f) : False := by
  unfold kTrns raise at h
  dsimp only at h
  split_ifs at h
  all_goals exact awaitCrc_fault h

theorem kGama_fault {data : List Byte} {s : State} {f : Fault} (h : kGama data s = .fault f) : f = .payloadLength := by
  unfold kGama at h
  split at h
  · exact (awaitCrc_fault h).elim
  · cases h; rfl

theorem inflPush_fault {bytes : List Byte} {s : State} {f : Fault} (h : inflPush bytes s = .fault f) :
    f = .transformRejected ∨ f = .transformClosed ∧ ¬ (s.infl.live = true ∧ s.infl.ended = false) := by
  unfold inflPush at h
  split at h
  · dsimp only at h
    split at h <;> cases h
    exact .inl rfl
  · next hn => cases h; exact .inr ⟨rfl, hn⟩

theorem kIdat_fault {data : List Byte} {s : State} {f : Fault} (h : kIdat data s = .fault f) :
    f = .transformRejected ∨ f = .transformClosed ∧ ¬ (s.infl.live = true ∧ s.infl.ended = false) := by
  unfold kIdat at h
  rcases andThen_fault h with h | ⟨u, h⟩
  · exact inflPush_fault (s := crcAdd data s) h
  · dsimp only at h
    split at h
    · exact (request_fault h).elim
    · exact (awaitCrc_fault h).elim

theorem kIend_fault {data : List Byte} {s : State} {f : Fault} (h : kIend data s = .fault f) : f = .payloadLength := by
  unfold kIend at h
  split at h
  · exact (awaitCrc_fault h).elim
  · cases h; rfl

theorem kCrc_fault {data : List Byte} {s : State} {f : Fault} (h : kCrc data s = .fault f) :
    f = .deliveredLength ∧ data.length ≠ 4 := by
  unfold kCrc at h
  split at h
  · dsimp only at h
    split at h
    · cases h
    · split at h
      · exact (closeBuffer_fault h).elim
      · exact (awaitHeader_fault h).elim
  · next hne =>
    cases h
    refine ⟨rfl, fun hl => ?_⟩
    match data, hl with
    | [_, _, _, _], _ => exact hne _ _ _ _ rfl

/-- 42_chunk_parser.md R192: what a delivery has to break for one of the two excluded faults. -/
theorem deliver_excluded {tag : Tag} {data : List Byte} {s : State} {f : Fault} (h : deliver tag data s = .fault f)
    (hf : isExcluded f = true) :
    s.kind = .decode ∧ (tag = .hdr ∧ data.length ≠ 8 ∨ tag = .crc ∧ data.length ≠ 4 ∨
      tag = .idat ∧ ¬ (s.infl.live = true ∧ s.infl.ended = false)) := by
  unfold deliver at h
  split at h
  · cases h
  · next hport =>
    cases tag
    case user0 | user1 | user2 | user3 | user4 | user5 => cases h
    all_goals refine ⟨by simpa [isParserTag] using hport, ?_⟩
    case sig =>
      simp only [kSig, raise] at h
      split at h
      · cases h
      · exact (awaitHeader_fault h).elim
    case hdr =>
      rcases kHdr_fault h with rfl | ⟨_, hl⟩
      · cases hf
      · exact .inl ⟨rfl, hl⟩
    case ihdr => rcases kIhdr_fault h with rfl | rfl <;> cases hf
    case plte => rcases kPlte_fault h with rfl | rfl <;> cases hf
    case trns => exact (kTrns_fault h).elim
    case gama => cases kGama_fault h; cases hf
    case idat =>
      rcases kIdat_fault h with rfl | ⟨_, hn⟩
      · cases hf
      · exact .inr (.inr ⟨rfl, hn⟩)
    case iend => cases kIend_fault h; cases hf
    case skip => exact (awaitHeader_fault h).elim
    case crc => exact .inr (.inl ⟨rfl, (kCrc_fault h).2⟩)

/-! ### The faults of the operations -/

/-- A delivery to the head request faulted; an exact read was answered with as many bytes as it asks for. -/
def DeliveryFaulted (f : Fault) (s : State) : Prop :=
  ∃ r rest data k, Serving s ∧ s.db.reads = r :: rest ∧ (r.allowLess = false → data.length = r.length) ∧
    deliver r.tag data (served k s) = .fault f

/-- A row that names a tag is the delivery of its bytes to the tag, or, an unknown chunk's type being of the other
class, waits. -/
theorem exec_of_rowTag {i : Instr} {tag : Tag} (h : rowTag i = some tag) (s : State) :
    exec i s = .next s ∨ exec i s = exec (tagInstr tag (deliveredBytes i s)) s := by
  cases i <;> cases h
  case chunkAncillaryUnknown ty length =>
    by_cases hc : (classify ty == .ancillary) = true
    · exact .inr (if_pos hc)
    · exact .inl (if_neg hc)
  case chunkCriticalUnknown ty length =>
    by_cases hc : (classify ty == .critical) = true
    · exact .inr (if_pos hc)
    · exact .inl (if_neg hc)
  all_goals exact .inr rfl

theorem length_of_answers {r : Request} {k : Nat} {blocks : List (List Byte)} (h : answers r k blocks = true)
    (hl : r.allowLess = false) : k = r.length := by
  simp only [answers, hl, Bool.false_eq_true, if_false, decide_eq_true_eq] at h
  exact h.1

theorem tagInstr_fault {tag : Tag} {data : List Byte} {s : State} {f : Fault}
    (h : exec (tagInstr tag data) s = .fault f) : DeliveryFaulted f s := by
  rw [exec_tagInstr] at h
  obtain ⟨hb, h⟩ := whenEnabled_fault h
  obtain ⟨hs, r, rest, hq, rfl, ha, _⟩ := (delivers_iff _ _ _).1 (Bool.and_eq_true_iff.1 hb).2
  exact ⟨r, rest, data, _, (serving_iff s).1 hs, hq, length_of_answers ha, h⟩

theorem dbServe_fault {s : State} {f : Fault} (h : execDbServe s = .fault f) : DeliveryFaulted f s := by
  obtain ⟨hb, h⟩ := whenEnabled_fault h
  cases hq : s.db.reads with
  | nil => simp [serveEnabled, hq] at hb
  | cons r rest =>
    obtain ⟨hs, hservable⟩ := (serveEnabled_iff hq).1 hb
    rw [serveHead, hq] at h
    refine ⟨r, rest, _, _, hs, hq, fun hl => ?_, h⟩
    rw [serveCount_of_exact hl]
    exact takefront_length (by simpa [hl] using hservable)

theorem delivery_fault {i : Instr} {s : State} {f : Fault} (hd : delivery i = true) (h : exec i s = .fault f) :
    DeliveryFaulted f s := by
  rcases rowTag_of_delivery hd with rfl | ⟨tag, htag⟩
  · exact dbServe_fault h
  · rcases exec_of_rowTag htag s with hwait | hrow
    · cases hwait.symm.trans h
    · exact tagInstr_fault (hrow.symm.trans h)

theorem command_fault {s : State} {g : State → Out} {f : Fault} (h : command s g = .fault f) :
    g { s with started := true } = .fault f := by
  unfold command at h
  split at h
  · cases h
  · exact h

theorem portCommand_fault {has : Kind → Prop} [DecidablePred has] {s : State} {g : State → Out} {f : Fault}
    (h : portCommand has s g = .fault f) : g { s with started := true } = .fault f := by
  have h := command_fault h
  split at h
  · exact h
  · cases h

theorem bufferCommand_fault {s : State} {g : State → Out} {f : Fault} (h : bufferCommand s g = .fault f) :
    g { s with started := true } = .fault f :=
  portCommand_fault (has := (hasBuffer · = true)) h

theorem decCommand_fault {s : State} {g : State → Out} {f : Fault} (h : decCommand s g = .fault f) :
    g { s with started := true } = .fault f :=
  portCommand_fault (has := (· = .decode)) h

theorem encCommand_fault {s : State} {g : State → Out} {f : Fault} (h : encCommand s g = .fault f) :
    g { s with started := true } = .fault f :=
  portCommand_fault (has := (· = .encode)) h

theorem crcCommand_fault {s : State} {g : State → Out} {f : Fault} (h : crcCommand s g = .fault f) :
    g { s with started := true } = .fault f := by
  have h := command_fault h
  cases hk : s.kind <;> simp only [hk] at h
  · cases h
  · cases h
  · cases h
  · exact h

theorem encodeRow_fault {t : FilterType} {s : State} {f : Fault} (h : encodeRow t s = .fault f) :
    f = .transformRejected := by
  unfold encodeRow at h
  split at h <;> cases h
  rfl

theorem execEncStart_fault {w ht : Word} {pixels : List Byte} {s : State} {f : Fault}
    (h : execEncStart w ht pixels s = .fault f) : False := by
  have h := encCommand_fault h
  split_ifs at h

/-- A fault of an operation that is no delivery is one that a byte stream or a parameter leads to. -/
theorem exec_fault {i : Instr} {s : State} {f : Fault} (hd : delivery i = false) (h : exec i s = .fault f) :
    isExcluded f = false := by
  cases i with
  | chunkIhdr | chunkPlte | chunkTrns | chunkGama | chunkIdat | chunkIend | chunkAncillaryUnknown
  | chunkCriticalUnknown | kSig | kHdr | kIhdr | kPlte | kTrns | kGama | kIdat | kIend | kSkip | kCrc
  | kUser0 | kUser1 | kUser2 | kUser3 | kUser4 | kUser5 | dbServe => cases hd
  | defiltNone | defiltSub | defiltUp | defiltAvg | defiltPaeth => cases (whenEnabled_fault h).2
  | filtNone | filtSub | filtUp | filtAvg | filtPaeth => rw [encodeRow_fault (whenEnabled_fault h).2]; rfl
  | dbPush => exact (pushBlock_fault (bufferCommand_fault h)).elim
  | dbClose => exact (closeBuffer_fault (bufferCommand_fault h)).elim
  | dbRequest =>
    simp only [exec_dbRequest, execDbRequest] at h
    have h := bufferCommand_fault h
    split at h
    · cases h
    · exact (request_fault h).elim
  | dbDispose =>
    simp only [exec_dbDispose, execDbDispose] at h
    cases bufferCommand_fault h
  | crcInit =>
    simp only [exec_crcInit, execCrcInit] at h
    cases crcCommand_fault h
  | crcUpdate =>
    simp only [exec_crcUpdate, execCrcUpdate] at h
    cases crcCommand_fault h
  | crcFinal =>
    simp only [exec_crcFinal, execCrcFinal] at h
    cases crcCommand_fault h
  | decPush => exact (pushBlock_fault (decCommand_fault h)).elim
  | decClose => exact (closeBuffer_fault (decCommand_fault h)).elim
  | decDispose =>
    simp only [exec_decDispose, execDecDispose] at h
    cases decCommand_fault h
  | encStart => exact (execEncStart_fault h).elim
  | encDispose =>
    simp only [exec_encDispose, execEncDispose] at h
    cases encCommand_fault h
  | pStart => exact (request_fault (whenEnabled_fault h).2).elim
  | dbDrainend =>
    have h := (whenEnabled_fault h).2
    split at h <;> cases h
  | inflOut | feFeed | pkSig | pkIhdr | deflOut | pkIdat | deflDone | pkIend | finalize => cases (whenEnabled_fault h).2
  | feLine =>
    have h := (whenEnabled_fault h).2
    split at h <;> cases h
    rfl
  | feFinish =>
    have h := (whenEnabled_fault h).2
    split at h
    · split at h <;> cases h
      rfl
    · cases h
  | feEncline =>
    have h := (whenEnabled_fault h).2
    split at h
    · cases h
    · rw [encodeRow_fault h]; rfl
  | crc32 | tbl | paeth | pred => cases h
  | pkChunk =>
    simp only [exec_pkChunk, execPkChunk] at h
    split_ifs at h
  | teardown =>
    simp only [exec_teardown, execTeardown, raise] at h
    split_ifs at h

/-- A step faults in the operation it runs. -/
theorem step_fault {s : State} {f : Fault} (h : step s = .fault f) :
    ∃ i rest, exec i { s with agenda := rest } = .fault f := by
  unfold step fetch at h
  cases ha : s.agenda with
  | nil =>
    simp only [ha] at h
    cases hp : autoPick s with
    | some i => simp only [hp] at h; exact ⟨i, s.agenda, h⟩
    | none => simp only [hp] at h; cases h
  | cons e rest =>
    cases e with
    | op word =>
      simp only [ha] at h
      cases hd : decode word with
      | ok i => simp only [hd] at h; exact ⟨i, rest, h⟩
      | error r => simp only [hd] at h; cases h
    | cfgCheckCRC | cfgCandidates | cfgTransform =>
      simp only [ha, configure] at h
      split_ifs at h
    | construct =>
      simp only [ha, constructSession] at h
      split_ifs at h

/-- 42_chunk_parser.md R192: in a state of the discipline a header and a CRC come at their own length, and a part of an
IDAT payload meets a transform that takes it. -/
theorem exec_not_excluded {i : Instr} {s : State} {f : Fault} (hs : ParserInv s) (h : exec i s = .fault f) :
    isExcluded f = false := by
  by_cases hd : delivery i = true
  · obtain ⟨r, rest, data, k, ⟨_, _, hphase⟩, hq, hlen, hx⟩ := delivery_fault hd h
    by_contra hf
    obtain ⟨hk, hbroken⟩ := deliver_excluded hx (by simpa using hf)
    have hok : ParserOk s := hs hk (by rcases hphase with hp | hp <;> simp [hp])
    have hreads := hok.reads.symm.trans hq
    obtain ⟨hhdr, hcrc⟩ := length_of_expectedReads hreads
    rcases hbroken with ⟨ht, hn⟩ | ⟨ht, hn⟩ | ⟨ht, hn⟩
    · obtain ⟨hl, h8⟩ := hhdr ht
      exact hn ((hlen hl).trans h8)
    · obtain ⟨hl, h4⟩ := hcrc ht
      exact hn ((hlen hl).trans h4)
    · obtain ⟨_, hw⟩ := awaits_of_expectedReads hreads
      obtain ⟨hlive, hended⟩ := hok.infl
      exact hn ⟨hlive, hended.trans (hasIEND_false_of_awaits hok hw (by simp [ht]))⟩
  · exact exec_fault (by simpa using hd) h

/-- Settles O11: every operation keeps the discipline, and what a delivery would have to break for either fault, the
discipline holds. -/
theorem parserKept : Obligations.ParserKept := by
  have hfault {s : State} (hs : ParserInv s) {f : Fault} (h : step s = .fault f) : isExcluded f = false := by
    obtain ⟨i, rest, h⟩ := step_fault h
    exact exec_not_excluded (parserInv_with_agenda_cfg hs rest s.cfg) h
  refine ⟨fun _ _ => step_keeps_parserInv, fun s hs => ⟨fun h => ?_, fun h => ?_⟩⟩
  · cases hfault hs h
  · cases hfault hs h

end Sys2Proof.Proofs
end

section
/-! PROOFS. The rules of the Chunk Parser (spec/42_chunk_parser.md), in the order of a datastream: the opening, the
dispatch of a chunk header, the handlers of the chunks, the chunk's CRC; and where decoding stops. A row of the parser is
its rule in the state that the delivery leaves; a rule that goes on ends in a request. -/

namespace Sys2Proof.Proofs

open Sys2Proof.Machine Sys2Proof.Safety Sys2Proof.Laws

/-! ### A row of the parser -/

theorem parserStep_of_delivers {tag : Tag} {rule : List Byte → State → Out} {data : List Byte} {s : State}
    (h : Delivers tag data s) : parserStep tag rule data s = rule data (served data.length s) := by
  obtain ⟨hk, hd⟩ := h
  rw [parserStep, hk, hd]
  rfl

/-- A rule that has emitted nothing queues its next read and resumes the buffer. -/
theorem request_silent {g : Tag} {data : List Byte} {s u : State} {n : Nat} {al : Bool} {tag : Tag}
    (hd : Delivers g data s) (hr : RoomForRead s) (hn : al = true → 0 < n) (hdb : u.db = (served data.length s).db)
    (hpar : u.par = s.par) (hlog : u.log = s.log) : request n al tag u = .next { u with
      db := { blocks := (takefront s.db.blocks data.length).2
              reads := s.db.reads.tail ++ [{ length := n, allowLess := al, tag := tag }]
              paused := false
              phase := s.db.phase }
      log := s.log ++ [] ++ drainIf s } :=
  request_delivered hd hr hn hdb hpar (hlog.trans (List.append_nil _).symm)

/-- `K.HDR` on a chunk header: `MissingHeader`, or the dispatch on the type (42_chunk_parser.md R195, R196). -/
theorem kHdr_headerBytes (ty length : Word) (s : State) : kHdr (headerBytes ty length) s =
    if s.p.hasIHDR = false ∧ ty ≠ tyIHDR then
      raise .missingHeader [ty] { s with p := { s.p with length := length, type := ty } }
    else dispatchClass (classify ty) (headerState ty length s) :=
  (kHdr_eight ..).trans (by rw [be32_extractBytes, be32_extractBytes]; rfl)

section Header

variable {ty length : Word} {s : State} (hd : Delivers .hdr (headerBytes ty length) s)
include hd

theorem chunkStep_of_missing (hi : s.p.hasIHDR = false) (ht : ty ≠ tyIHDR) : chunkStep ty length s =
    .next (teardown .missingHeader [ty] { served 8 s with p := { s.p with length := length, type := ty } }) :=
  (parserStep_of_delivers hd).trans ((kHdr_headerBytes ty length _).trans (if_pos ⟨hi, ht⟩))

/-- A header that may be dispatched runs the row of its class, with the header registers written and the CRC seeded with
the type (42_chunk_parser.md R195, R199). -/
theorem chunkStep_of_dispatch (hi : s.p.hasIHDR = false → ty = tyIHDR) :
    chunkStep ty length s = dispatchClass (classify ty) (headerState ty length (served 8 s)) :=
  (parserStep_of_delivers hd).trans ((kHdr_headerBytes ty length _).trans (if_neg fun ⟨h, ht⟩ => ht (hi h)))

/-- A handler with one exact read asks for the declared payload (42_chunk_parser.md R200). -/
theorem awaitPayload_header (hr : RoomForRead s) (kind : ChunkKind) (tag : Tag) :
    awaitPayload kind tag (headerState ty length (served 8 s)) = .next (readNext 8 [] .dispatchChunk
      { length := length.toNat, allowLess := false, tag := tag } (chunkOpened ty length kind s)) :=
  request_silent hd hr nofun rfl rfl rfl

end Header

/-! ### The opening -/

/-- The state that `P.START` writes is the one it starts from (42_chunk_parser.md R191). -/
theorem execPStart_of_pending {s : State} (h : startPending s = true) : execPStart s = request 8 false .sig s := by
  have hstate : s.p.state = .awaitSignature := by
    simp only [startPending, Bool.and_eq_true, beq_iff_eq] at h
    obtain ⟨⟨_, hstate⟩, _⟩ := h
    exact hstate
  rw [execPStart, h, whenEnabled_true, ← hstate]

theorem exec_pStart_first {s : State} (hk : s.kind = .decode) (he : s.err = none) (hp : s.db.phase = .opened)
    (hstate : s.p.state = .awaitSignature) (hq : s.db.reads = []) (hr : exceeds s.par.maxReads 1 = false) :
    exec .pStart s = .next { s with
      db := { s.db with reads := [{ length := 8, allowLess := false, tag := .sig }], paused := false }
      log := s.log ++ drainIf s } := by
  rw [exec_pStart, execPStart_of_pending (by simp [startPending, hk, he, hp, hstate, hq]),
    request_open (al := false) (.inl hp) nofun (by simpa [hq] using hr), hq]
  rfl

/-- Settles O34: the first read queued where none is, and the two branches of `K.SIG`. -/
theorem parserOpens : Obligations.ParserOpens := by
  refine ⟨⟨fun s hk he hp hstate hq hr => exec_pStart_first hk he hp hstate hq hr,
    fun par hr => exec_pStart_first (s := State.fresh .decode par) rfl rfl rfl rfl rfl hr⟩,
    fun s hd hr => ?_, fun data s hd hne => ?_⟩
  · calc exec (.kSig signature) s
      _ = awaitHeader (served 8 s) := parserStep_of_delivers hd
      _ = .next (readNext 8 [] .awaitChunkHeader headerRead s) := request_silent hd hr nofun rfl rfl rfl
  · exact (parserStep_of_delivers hd).trans (if_pos hne)

/-! ### The dispatch of a chunk header -/

/-- Settles O35: the check comes before the dispatch. -/
theorem missingHeader : Obligations.MissingHeader := fun _ _ _ hd hi ht => chunkStep_of_missing hd hi ht

/-- The header rule runs the row that the type selects: a known type's own, or that of an unknown type's class. -/
theorem exec_kHdr_eq_chunkInstr (ty length : Word) (s : State) :
    exec (.kHdr (headerBytes ty length)) s = exec (chunkInstr ty length) s := by
  by_cases hu : unknownType ty = true
  · have hc := classify_of_unknown ((unknownType_iff ty).1 hu)
    rw [chunkInstr_of_unknown hu]
    cases hb : ancillaryBit ty <;> simp only [hb, Bool.false_eq_true, if_false, if_true] at hc ⊢
    · rw [exec_chunkCriticalUnknown, execChunkCriticalUnknown, hc]
      rfl
    · rw [exec_chunkAncillaryUnknown, execChunkAncillaryUnknown, hc]
      rfl
  · rw [unknownType_iff, not_not] at hu
    simp only [List.mem_cons, List.not_mem_nil, or_false] at hu
    obtain rfl | rfl | rfl | rfl | rfl | rfl := hu <;> rfl

theorem chunkStep_ihdr_first {length : Word} {s : State} (hd : Delivers .hdr (headerBytes tyIHDR length) s)
    (hi : s.p.hasIHDR = false) :
    chunkStep tyIHDR length s = awaitPayload .ihdr .ihdr (headerState tyIHDR length (served 8 s)) :=
  (chunkStep_of_dispatch hd fun _ => rfl).trans (if_neg (ne_true_of_eq_false hi))

theorem chunkStep_ihdr_second {length : Word} {s : State} (hd : Delivers .hdr (headerBytes tyIHDR length) s)
    (hi : s.p.hasIHDR = true) : chunkStep tyIHDR length s = .fault .secondHeader :=
  (chunkStep_of_dispatch hd fun _ => rfl).trans (if_pos hi)

/-- Settles O36: the row of the type, and for five types the read of the declared payload. -/
theorem headerDispatch : Obligations.HeaderDispatch := by
  refine ⟨exec_kHdr_eq_chunkInstr, fun length s hr =>
    ⟨fun hd hi => ?_, fun hd hi => ?_, fun hd hi => ?_, fun hd hi => ?_, fun hd hi => ?_⟩⟩
  · have h := (chunkStep_ihdr_first hd hi).trans (awaitPayload_header hd hr .ihdr .ihdr)
    exact ⟨h, h⟩
  all_goals exact (chunkStep_of_dispatch hd (by simp [hi])).trans (awaitPayload_header hd hr _ _)

/-- Settles O37: the palette check, then the two reads that a length can lead to. -/
theorem idatDispatch : Obligations.IdatDispatch := by
  intro length s hd hi
  have hrow : exec (.chunkIdat length) s = dispatchIdat (headerState tyIDAT length (served 8 s)) :=
    chunkStep_of_dispatch hd (by simp [hi])
  refine ⟨fun hct hpal => hrow.trans (if_pos ⟨hct, hpal⟩), fun hpal hr => ?_⟩
  have hpal : ¬ (s.h.colorType = 3 ∧ s.pal.size = 0) := by tauto
  have hdispatch := hrow.trans (if_neg hpal)
  intro opened counted
  by_cases hz : length = 0
  · rw [if_pos hz]
    exact hdispatch.trans ((if_pos (congrArg BitVec.toNat hz)).trans (request_silent hd hr nofun rfl rfl rfl))
  · have hpos : length.toNat ≠ 0 := fun h => hz (BitVec.eq_of_toNat_eq h)
    rw [if_neg hz]
    exact hdispatch.trans ((if_neg hpos).trans (request_silent hd hr (fun _ => Nat.pos_of_ne_zero hpos) rfl rfl rfl))

/-- Settles O38: the two classes of an unknown type. The length of the skip is a natural, which does not wrap. -/
theorem unknownChunks : Obligations.UnknownChunks := by
  intro ty length s hd hi hu
  have hc := classify_of_unknown ((unknownType_iff ty).1 hu)
  refine ⟨fun hb hr => ?_, fun hb => ?_⟩
  · have hc : classify ty = .ancillary := hc.trans (if_pos hb)
    calc exec (.chunkAncillaryUnknown ty length) s
      _ = chunkStep ty length s := by rw [exec_chunkAncillaryUnknown, execChunkAncillaryUnknown, hc]; rfl
      _ = dispatchAncillary (headerState ty length (served 8 s)) := by
        rw [chunkStep_of_dispatch hd (by simp [hi]), hc]; rfl
      _ = _ := request_silent hd hr nofun rfl rfl rfl
  · have hc : classify ty = .critical := hc.trans (if_neg (ne_true_of_eq_false hb))
    calc exec (.chunkCriticalUnknown ty length) s
      _ = chunkStep ty length s := by rw [exec_chunkCriticalUnknown, execChunkCriticalUnknown, hc]; rfl
      _ = dispatchCritical (headerState ty length (served 8 s)) := by
        rw [chunkStep_of_dispatch hd (by simp [hi]), hc]; rfl

/-! ### IHDR -/

/-- The payload of an IHDR chunk (42_chunk_parser.md R204). -/
def ihdrPayload (w h : Word) (bd ct cm fm il : Byte) : List Byte := bytes32 w ++ bytes32 h ++ [bd, ct, cm, fm, il]

theorem legalColorType_iff (ct : Byte) : legalColorType ct = true ↔ ct ∈ ([0, 2, 3, 4, 6] : List Byte) := by
  simp [legalColorType, or_assoc]

theorem validate_accepted {ct : Byte} (hct : ct ∈ ([0, 2, 3, 4, 6] : List Byte)) : validate 8 ct 0 0 0 = none := by
  simp [validate, (legalColorType_iff ct).2 hct]

theorem kIhdr_of_rejected {w h : Word} {bd ct cm fm il : Byte} {e : ErrorKind} {b : Byte}
    (hv : validate bd ct cm fm il = some (e, b)) (s : State) : kIhdr (ihdrPayload w h bd ct cm fm il) s =
      .next (teardown e [b.setWidth 32] (crcAdd (ihdrPayload w h bd ct cm fm il) s)) := by
  simp only [kIhdr, ihdrPayload, bytes32, List.cons_append, List.nil_append, hv, raise]

/-- A header that passes the checks is latched and announced, if its image is one the model can hold (42_chunk_parser.md
R204, R206; log 16). -/
theorem kIhdr_of_accepted {w h : Word} {ct : Byte} (hct : ct ∈ ([0, 2, 3, 4, 6] : List Byte)) (s : State) :
    kIhdr (ihdrPayload w h 8 ct 0 0 0) s =
      if w = 0 ∨ h = 0 then .fault .zeroDimension
      else if exceeds s.par.maxPixels (w.toNat * h.toNat) then .refused .tooManyPixels
      else awaitCrc (constructAndAnnounce w h ct { crcAdd (ihdrPayload w h 8 ct 0 0 0) s with
        h := { width := w, height := h, bitDepth := 8, colorType := ct, compression := 0, filter := 0, interlace := 0 }
        p := { s.p with hasIHDR := true } }) := by
  simp only [kIhdr, ihdrPayload, bytes32, List.cons_append, List.nil_append, validate_accepted hct, be32_extractBytes]
  rfl

theorem exec_kIhdr_rejected {w h : Word} {bd ct cm fm il : Byte} {s : State} {e : ErrorKind} {b : Byte}
    (hd : Delivers .ihdr (ihdrPayload w h bd ct cm fm il) s) (hv : validate bd ct cm fm il = some (e, b)) :
    exec (.kIhdr (ihdrPayload w h bd ct cm fm il)) s =
      .next (teardown e [b.setWidth 32] (served 13 (summed (ihdrPayload w h bd ct cm fm il) s))) :=
  (parserStep_of_delivers hd).trans (kIhdr_of_rejected hv _)

/-- Settles O40: `validate` returns the first check that fails. -/
theorem ihdrChecks : Obligations.IhdrChecks := by
  intro w h bd ct cm fm il s data hd
  have hct : legalColorType ct = true ↔ ct ∈ ([0, 2, 3, 4, 6] : List Byte) := legalColorType_iff ct
  refine ⟨fun h1 => ?_, fun h1 h2 => ?_, fun h1 h2 h3 => ?_, fun h1 h2 h3 h4 => ?_, fun h1 h2 h3 h4 h5 => ?_⟩ <;>
    refine exec_kIhdr_rejected hd ?_
  · rw [validate, if_pos h1]
  · rw [validate, if_neg (not_not.2 h1), if_pos (mt hct.1 h2)]
  · rw [validate, if_neg (not_not.2 h1), if_neg (not_not.2 (hct.2 h2)), if_pos h3]
  · rw [validate, if_neg (not_not.2 h1), if_neg (not_not.2 (hct.2 h2)), if_neg (not_not.2 h3), if_pos h4]
  · rw [validate, if_neg (not_not.2 h1), if_neg (not_not.2 (hct.2 h2)), if_neg (not_not.2 h3), if_neg (not_not.2 h4),
      if_pos h5]

/-- Settles O39: the table of the colour types, and the header that is latched. -/
theorem ihdrAccepted : Obligations.IhdrAccepted := by
  refine ⟨by decide, fun w h ct s => ?_⟩
  intro data hd hr hct hw hh hm
  exact (parserStep_of_delivers hd).trans ((kIhdr_of_accepted hct _).trans ((if_neg (not_or.2 ⟨hw, hh⟩)).trans
    ((if_neg (ne_true_of_eq_false hm)).trans (request_delivered hd hr nofun rfl rfl rfl))))

/-! ### PLTE and tRNS -/

/-- 42_chunk_parser.md R208: an entry is a triple of the payload and the alpha 0xFF. -/
theorem getElem?_paletteBytes {data : List Byte} {i c : Nat} (hi : i < data.length / 3) (hc : c < 4) :
    (paletteBytes data)[4 * i + c]? = if c < 3 then data[3 * i + c]? else some 0xFF := by
  fun_induction paletteBytes data generalizing i with
  | case1 r g b rest ih =>
    cases i with
    | zero =>
      obtain rfl | rfl | rfl | rfl : c = 0 ∨ c = 1 ∨ c = 2 ∨ c = 3 := by omega
      all_goals rfl
    | succ i =>
      have h4 : 4 * (i + 1) + c = 4 * i + c + 4 := by omega
      have h3 : 3 * (i + 1) + c = 3 * i + c + 3 := by omega
      rw [h4, h3]
      simp only [List.getElem?_cons_succ]
      exact ih (by simp only [List.length_cons] at hi; omega)
  | case2 data hd =>
    match data, hd with
    | [], _ | [_], _ | [_, _], _ => simp at hi
    | r :: g :: b :: rest, hd => exact absurd rfl (hd r g b rest)

/-- The byte `c` of the entry `i` of a payload appended at entry `n`. -/
theorem read_appended (m : Memory) {data : List Byte} (n : Nat) {i c : Nat} (hi : i < data.length / 3) (hc : c < 4) :
    (m.writeBytes (4 * n) (paletteBytes data)).read (4 * (n + i) + c) =
      if c < 3 then data[3 * i + c]? else some 0xFF := by
  have haddress : 4 * (n + i) + c - 4 * n = 4 * i + c := by omega
  rw [read_writeBytes, length_paletteBytes, if_pos (by omega), haddress, getElem?_paletteBytes hi hc]

theorem kPlte_of_fits {data : List Byte} {s : State} (h3 : data.length % 3 = 0)
    (hfits : s.pal.size + data.length / 3 ≤ 256) : kPlte data s = awaitCrc { crcAdd data s with
      pal := { size := s.pal.size + data.length / 3
               mem := s.pal.mem.writeBytes (4 * s.pal.size) (paletteBytes data) } } := by
  rw [kPlte, if_neg (not_not.2 h3), if_neg (by omega)]

/-- Settles O41: where `writeBytes` and `patchAlpha` write, and where they leave the palette as it was. -/
theorem paletteFilled : Obligations.PaletteFilled := by
  refine ⟨fun data s hd hr h3 hfits => ?_, fun data s hd hct => ⟨fun hz => ?_, fun hz hlt => ?_, fun hz hle hr => ?_⟩⟩
  · refine ⟨s.pal.mem.writeBytes (4 * s.pal.size) (paletteBytes data), ?_, fun i hi => ⟨fun c hc => ?_, ?_⟩,
      fun a ha => ?_⟩
    · exact (parserStep_of_delivers hd).trans ((kPlte_of_fits (s := served data.length s) h3 hfits).trans
        (request_silent hd hr nofun rfl rfl rfl))
    · rw [read_appended _ _ hi (by omega), if_pos hc]
    · exact read_appended _ _ hi (by omega)
    · rw [read_writeBytes, length_paletteBytes, if_neg (by omega)]
  · exact (parserStep_of_delivers hd).trans ((if_pos hct).trans (if_pos hz))
  · exact (parserStep_of_delivers hd).trans ((if_pos hct).trans ((if_neg hz).trans (if_pos hlt)))
  · refine ⟨patchAlpha s.pal.mem 0 data, ?_, fun i hi => ?_, fun a ha => ?_⟩
    · exact (parserStep_of_delivers hd).trans ((if_pos hct).trans ((if_neg hz).trans ((if_neg hle.not_gt).trans
        (request_silent hd hr nofun rfl rfl rfl))))
    · rw [read_patchAlpha, if_pos (by omega)]
      congr 1
      omega
    · rw [read_patchAlpha, if_neg (by omega)]

/-- Settles O42: only the CRC looks at the payload. -/
theorem transparencyIgnored : Obligations.TransparencyIgnored := fun _ _ hd hr hct =>
  (parserStep_of_delivers hd).trans ((if_neg hct).trans (request_silent hd hr nofun rfl rfl rfl))

/-! ### gAMA, IDAT, IEND and a skipped chunk -/

theorem kGama_bytes32 (v : Word) (s : State) : kGama (bytes32 v) s =
    awaitCrc (emit (.gamma v) { crcAdd (bytes32 v) s with p := { s.p with gamma := v, gammaValid := true } }) := by
  simp only [kGama, bytes32, be32_extractBytes]
  rfl

/-- Settles O43: three handlers without a branch. -/
theorem gammaEndAndSkip : Obligations.GammaEndAndSkip := by
  refine ⟨fun v s hd hr => ?_, fun s hr => ⟨fun hd => ?_, fun data hd => ?_⟩⟩
  · exact (parserStep_of_delivers hd).trans ((kGama_bytes32 v _).trans (request_delivered hd hr nofun rfl rfl rfl))
  · exact (parserStep_of_delivers hd).trans (request_silent hd hr nofun rfl rfl rfl)
  · exact (parserStep_of_delivers hd).trans (request_silent hd hr nofun rfl rfl rfl)

theorem inflPush_accepted {bytes : List Byte} {s : State} (hl : s.infl.live = true) (he : s.infl.ended = false)
    (hr : s.par.inflRejects.contains (s.infl.input ++ bytes) = false) :
    inflPush bytes s = .next { s with infl := { s.infl with input := s.infl.input ++ bytes } } :=
  (if_pos ⟨hl, he⟩).trans (if_neg (ne_true_of_eq_false hr))

theorem inflPush_rejected {bytes : List Byte} {s : State} (hl : s.infl.live = true) (he : s.infl.ended = false)
    (hr : s.par.inflRejects.contains (s.infl.input ++ bytes) = true) : inflPush bytes s = .fault .transformRejected :=
  (if_pos ⟨hl, he⟩).trans (if_pos hr)

theorem kIdat_accepted {data : List Byte} {s : State} (hl : s.infl.live = true) (he : s.infl.ended = false)
    (hr : s.par.inflRejects.contains (s.infl.input ++ data) = false) : kIdat data s =
      if data.length < s.p.remaining then
        request (s.p.remaining - data.length) true .idat (idatTaken data s)
      else awaitCrc (idatTaken data s) := by
  rw [kIdat, inflPush_accepted (s := crcAdd data s) hl he hr, andThen_of_next]
  simp only [crcAdd_p, Nat.sub_pos_iff_lt]
  rfl

/-- Settles O44: `INFL` takes the part or rejects it, and what remains decides the next read. -/
theorem idatStreamed : Obligations.IdatStreamed := by
  intro data s hd hl he
  refine ⟨fun hrej hr => ?_, fun hrej => ?_⟩
  · intro taken
    have hrow := (parserStep_of_delivers hd).trans (kIdat_accepted (s := served data.length s) hl he hrej)
    by_cases hlt : data.length < s.p.remaining
    · rw [if_pos hlt]
      exact hrow.trans ((if_pos hlt).trans (request_silent hd hr (fun _ => Nat.sub_pos_of_lt hlt) rfl rfl rfl))
    · rw [if_neg hlt]
      exact hrow.trans ((if_neg hlt).trans (request_silent hd hr nofun rfl rfl rfl))
  · refine (parserStep_of_delivers hd).trans ?_
    rw [kIdat, inflPush_rejected (s := crcAdd data (served data.length s)) hl he hrej]
    rfl

/-! ### The chunk's CRC -/

theorem kCrc_bytes32 (v : Word) (s : State) : kCrc (bytes32 v) s =
    if s.cfg.checkCRC = true ∧ crcValue s.crc.acc ≠ v then raise .crcMismatch [v, crcValue s.crc.acc] s
    else if s.p.hasIEND then closeBuffer [] { s with p := { s.p with state := .terminated } }
    else awaitHeader s := by
  simp only [kCrc, bytes32, be32_extractBytes]

/-- A close of a buffer without reads finalizes it, where it is open (41_demand_buffer.md R164). -/
theorem closeBuffer_nil_unread {s : State} (hq : s.db.reads = []) :
    closeBuffer [] s = .next (if s.db.phase = .opened then finalizeBuffer s else s) := by
  rw [closeBuffer_nil, closeOpen, if_pos hq, ite_not]

/-- Settles O45: the comparison, then the two ends of a chunk. -/
theorem crcCheck : Obligations.CrcCheck := by
  intro v s hd
  have hrow : exec (.kCrc (bytes32 v)) s = _ := (parserStep_of_delivers hd).trans (kCrc_bytes32 v (served 4 s))
  refine ⟨fun hok => ?_, fun hc hne => hrow.trans (if_pos ⟨hc, fun h => hne h.symm⟩)⟩
  have hok : ¬ (s.cfg.checkCRC = true ∧ crcValue s.crc.acc ≠ v) := by
    rintro ⟨hc, hne⟩
    rcases hok with h | h
    · simp [hc] at h
    · exact hne h.symm
  have hrow := hrow.trans (if_neg hok)
  refine ⟨fun hi hr => ?_, fun hi hq => ?_⟩
  · exact hrow.trans ((if_neg (ne_true_of_eq_false hi)).trans (request_silent hd hr nofun rfl rfl rfl))
  · have hend := hrow.trans ((if_pos hi).trans (closeBuffer_nil_unread (by simp [hq])))
    by_cases hp : s.db.phase = .opened
    · rw [if_pos hp]
      exact hend.trans (congrArg _ (if_pos hp))
    · rw [if_neg hp]
      exact hend.trans (congrArg _ ((if_neg hp).trans (by simp [served, hq])))

/-! ### Where decoding stops -/

theorem kIhdr_of_length {data : List Byte} (h : data.length ≠ 13) (s : State) :
    kIhdr data s = .fault .payloadLength := by
  unfold kIhdr
  split
  · exact absurd rfl h
  · rfl

theorem kGama_of_length {data : List Byte} (h : data.length ≠ 4) (s : State) :
    kGama data s = .fault .payloadLength := by
  unfold kGama
  split
  · exact absurd rfl h
  · rfl

theorem kIend_of_length {data : List Byte} (h : data.length ≠ 0) (s : State) :
    kIend data s = .fault .payloadLength := by
  unfold kIend
  split
  · exact absurd rfl h
  · rfl

/-- 30_encoding.md R106: a byte above 4 selects no filter. -/
theorem filterOfByte_of_gt {b : Byte} (h : 4 < b.toNat) : filterOfByte b = none := by
  unfold filterOfByte
  split
  case h_6 => rfl
  all_goals omega

theorem execFeLine_of_unknownFilter {s : State} {b : Byte} {rest : List Byte} (hl : lineEnabled s = true)
    (hq : s.fe.inq = b :: rest) (hb : 4 < b.toNat) : execFeLine s = .fault .filterType := by
  rw [execFeLine, hl, whenEnabled_true, hq, List.headD_cons, filterOfByte_of_gt hb]

/-- An index outside the palette ends the palette pass (43_filter_decode.md R269). -/
theorem resolvePalette_of_outside {pal : Palette} {n q : Nat} {m : Memory} (hq : q < n)
    (hout : pal.size ≤ (pixRead m (4 * q)).toNat) : resolvePalette pal n 0 m = none := by
  refine Option.eq_none_iff_forall_ne_some.2 fun m' hm => ?_
  obtain ⟨hinside, _⟩ := (read_resolvePalette hm).1 q q.zero_le (by omega)
  omega

theorem execFeFinish_of_outside {s : State} {q : Nat} (hf : finishEnabled s = true) (hct : s.h.colorType = 3)
    (hq : q < s.fe.width * s.fe.height) (hout : s.pal.size ≤ (pixRead s.pix (4 * q)).toNat) :
    execFeFinish s = .fault .paletteIndex := by
  rw [execFeFinish, hf, whenEnabled_true, if_pos hct, resolvePalette_of_outside hq hout]

/-- Settles O46: each stop is the branch of its rule. -/
theorem decodeStops : Obligations.DecodeStops := by
  refine ⟨fun data length s => ⟨fun hd hl => ?_, fun hd hl => ?_, fun hd hl => ?_, fun hd h3 => ?_,
    fun hd h3 hover => ?_, fun hd hi => chunkStep_ihdr_second hd hi, fun w h ct hdata hct hd => ?_⟩,
    fun s => ⟨fun hl b rest hq hb => execFeLine_of_unknownFilter hl hq hb,
      fun hf hct ⟨q, hq, hout⟩ => execFeFinish_of_outside hf hct hq hout⟩⟩
  · exact (parserStep_of_delivers hd).trans (kIhdr_of_length hl _)
  · exact (parserStep_of_delivers hd).trans (kGama_of_length hl _)
  · exact (parserStep_of_delivers hd).trans (kIend_of_length hl _)
  · exact (parserStep_of_delivers hd).trans (if_pos h3)
  · exact (parserStep_of_delivers hd).trans ((if_neg (not_not.2 h3)).trans (if_pos hover))
  · subst hdata
    have hrow := (parserStep_of_delivers hd).trans (kIhdr_of_accepted (w := w) (h := h) hct _)
    exact ⟨fun hz => hrow.trans (if_pos hz),
      fun hw hh hm => hrow.trans ((if_neg (not_or.2 ⟨hw, hh⟩)).trans (if_pos hm))⟩

end Sys2Proof.Proofs
end

section
/-! PROOFS. The Filter Engine, decode direction (spec/43_filter_decode.md): which bytes of the pixel memory have been
written, the Paeth function and the predictors, the defiltering of one scanline, and the completion with its palette pass. -/

namespace Sys2Proof.Proofs

open Sys2Proof.Machine Sys2Proof.Safety Sys2Proof.Laws

/-! ### When the engine's steps are enabled -/

/-- 43_filter_decode.md R259: a scanline can be taken while rows are missing and a whole scanline is queued. -/
theorem lineEnabled_iff (s : State) : lineEnabled s = true ↔ defilterLive s = true ∧ s.fe.done = false ∧
    s.fe.row < s.fe.height ∧ lineLength s.fe ≤ s.fe.inq.length := by
  simp only [lineEnabled, Bool.and_eq_true, Bool.not_eq_true', decide_eq_true_eq, and_assoc]

/-- 43_filter_decode.md R269: the engine can complete once, after the last row. -/
theorem finishEnabled_iff (s : State) : finishEnabled s = true ↔ defilterLive s = true ∧ s.fe.done = false ∧
    s.fe.row = s.fe.height := by
  simp only [finishEnabled, Bool.and_eq_true, Bool.not_eq_true', decide_eq_true_eq, and_assoc]

theorem defilterLive_engine {s : State} (h : defilterLive s = true) : s.fe.live = true ∧ s.fe.mode = .decode := by
  simp only [defilterLive, Bool.and_eq_true, beq_iff_eq] at h
  obtain ⟨⟨_, hlive⟩, hmode⟩ := h
  exact ⟨hlive, hmode⟩

theorem enclineEnabled_mode {s : State} (h : enclineEnabled s = true) : s.fe.mode = .encode := by
  simp only [enclineEnabled, Bool.and_eq_true, beq_iff_eq] at h
  obtain ⟨⟨⟨⟨_, hmode⟩, _⟩, _⟩, _⟩ := h
  exact hmode

/-! ### Which bytes of `PIX` have been written -/

/-- Exactly the bytes below `n` have been written. -/
def WrittenBelow (n : Nat) (m : Memory) : Prop := ∀ a, (m.read a).isSome = true ↔ a < n

/-- 20_memory.md R60: row `y` begins where the rows above it end. -/
theorem pixAddr_row (w y : Nat) : pixAddr w y 0 0 = y * (4 * w) := by
  rw [pixAddr]
  ring

/-- 20_memory.md R60: each byte of row `y` is a channel of one of its pixels. -/
theorem exists_pixAddr {w y a : Nat} (hlow : y * (4 * w) ≤ a) (hhigh : a < y * (4 * w) + 4 * w) :
    ∃ x < w, ∃ c < 4, pixAddr w y x c = a := by
  refine ⟨(a - y * (4 * w)) / 4, by omega, (a - y * (4 * w)) % 4, Nat.mod_lt _ (by decide), ?_⟩
  calc pixAddr w y ((a - y * (4 * w)) / 4) ((a - y * (4 * w)) % 4)
      = y * (4 * w) + (4 * ((a - y * (4 * w)) / 4) + (a - y * (4 * w)) % 4) := by rw [pixAddr]; ring
    _ = a := by rw [Nat.div_add_mod, Nat.add_sub_cancel' hlow]

/-- 43_filter_decode.md R260: a defiltered row extends the rows above it. -/
theorem writtenBelow_defilt {w y : Nat} {m : Memory} (hm : WrittenBelow (y * (4 * w)) m) (f : FilterType) (bpp : Nat)
    (data : List Byte) : WrittenBelow ((y + 1) * (4 * w)) (defilt f w bpp y data m) := by
  intro a
  obtain ⟨hrow, hother⟩ := read_defilt f w bpp y data m
  rw [pixAddr_row] at hother
  rw [Nat.succ_mul]
  by_cases ha : y * (4 * w) ≤ a ∧ a < y * (4 * w) + 4 * w
  · obtain ⟨x, hx, c, hc, rfl⟩ := exists_pixAddr ha.1 ha.2
    simp [hrow x hx c hc, ha.2]
  · rw [hother a (by omega), hm]
    omega

/-- 43_filter_decode.md R271: the palette pass over all pixels rewrites the bytes that have been written. -/
theorem writtenBelow_resolvePalette {pal : Palette} {n : Nat} {m m' : Memory} (h : resolvePalette pal n 0 m = some m')
    (hm : WrittenBelow (4 * n) m) : WrittenBelow (4 * n) m' := by
  intro a
  obtain ⟨hpixel, hother⟩ := read_resolvePalette h
  by_cases ha : a < 4 * n
  · have hread := (hpixel (a / 4) (Nat.zero_le _) (by omega)).2 (a % 4) (Nat.mod_lt _ (by decide))
    rw [Nat.div_add_mod] at hread
    simp [hread, ha]
  · rw [hother a (by omega), hm]

/-- The statement looks at `PIX`, at whether the engine is live, and at its mode, size and row. -/
theorem pixelsOk_of_eq {s t : State} (hs : PixelsOk s) (hpix : t.pix = s.pix) (hlive : t.fe.live = true → s.fe.live = true)
    (hmode : t.fe.mode = s.fe.mode) (hwidth : t.fe.width = s.fe.width) (hheight : t.fe.height = s.fe.height)
    (hrow : t.fe.row = s.fe.row) : PixelsOk t where
  decode hl hm := by rw [hpix, hrow, hwidth]; exact hs.decode (hlive hl) (hmode ▸ hm)
  encode hl hm := by rw [hpix, hheight, hwidth]; exact hs.encode (hlive hl) (hmode ▸ hm)

theorem pixelsOk_stop {s : State} (hs : PixelsOk s) : PixelsOk (stop s) :=
  pixelsOk_of_eq hs (by simp) (fun h => (stop_fe_live h).1) (by simp) (by simp) (by simp) (by simp)

theorem pixelsOk_teardown {s : State} {e : ErrorKind} {info : List Word} (hs : PixelsOk s) :
    PixelsOk (teardown e info s) :=
  pixelsOk_of_eq hs (by simp) (fun h => (teardown_fe_live h).1) (by simp) (by simp) (by simp) (by simp)

theorem pixelsOk_closeOpen {s : State} (hs : PixelsOk s) : PixelsOk (closeOpen s) :=
  pixelsOk_of_eq hs (by simp) (by simp) (by simp) (by simp) (by simp) (by simp)

theorem pixelsOk_withRead {s : State} {n : Nat} {al : Bool} {tag : Tag} (hs : PixelsOk s) :
    PixelsOk (withRead n al tag s) := ⟨hs.decode, hs.encode⟩

theorem pixelsOk_complete {s : State} (hs : PixelsOk s) : PixelsOk (complete s) := ⟨hs.decode, hs.encode⟩

/-- 42_chunk_parser.md R206: the engine starts at row 0 on an empty pixel memory. -/
theorem pixelsOk_constructAndAnnounce (w h : Word) (ct : Byte) (s : State) : PixelsOk (constructAndAnnounce w h ct s) where
  decode _ _ a := by simp
  encode _ hm := nomatch hm

/-- 45_chunk_packer.md R321: the pixel memory of an encode is loaded whole. -/
theorem pixelsOk_startEncode {w h : Word} {pixels : List Byte} (hlen : pixels.length = w.toNat * h.toNat * 4) (s : State) :
    PixelsOk (startEncode w h pixels s) where
  decode _ hm := nomatch hm
  encode _ _ := by
    have hload : WrittenBelow (0 + pixels.length) (Memory.writeBytes [] 0 pixels) :=
      isSome_read_writeBytes (by simp) pixels
    have hsize : pixels.length = h.toNat * (4 * w.toNat) := by rw [hlen]; ring
    rwa [Nat.zero_add, hsize] at hload

theorem pixelsOk_commitLine {s : State} (hs : PixelsOk s) (hl : lineEnabled s = true) (f : FilterType) :
    PixelsOk (commitLine f s) := by
  obtain ⟨hlive, hmode⟩ := defilterLive_engine ((lineEnabled_iff s).1 hl).1
  exact ⟨fun _ _ => writtenBelow_defilt (hs.decode hlive hmode) f _ _, fun _ hm => nomatch hmode.symm.trans hm⟩

theorem pixelsOk_commitRow {s : State} (hs : PixelsOk s) (he : enclineEnabled s = true) (f : FilterType) :
    PixelsOk (commitRow f s) :=
  ⟨fun _ hm => (nomatch (enclineEnabled_mode he).symm.trans hm), hs.encode⟩

theorem pixelsOk_resolvePalette {s : State} {m : Memory} (hs : PixelsOk s) (hf : finishEnabled s = true)
    (hm : resolvePalette s.pal (s.fe.width * s.fe.height) 0 s.pix = some m) : PixelsOk { s with pix := m } := by
  obtain ⟨hengine, _, hrow⟩ := (finishEnabled_iff s).1 hf
  obtain ⟨hlive, hmode⟩ := defilterLive_engine hengine
  have hsize : s.fe.row * (4 * s.fe.width) = 4 * (s.fe.width * s.fe.height) := by rw [hrow]; ring
  have hwritten : WrittenBelow (4 * (s.fe.width * s.fe.height)) s.pix := hsize ▸ hs.decode hlive hmode
  exact ⟨fun _ _ => hsize ▸ writtenBelow_resolvePalette hm hwritten, fun _ hm => nomatch hmode.symm.trans hm⟩

theorem delivered_pixelsOk {tag : Tag} {data : List Byte} {s t : State} (h : Delivered tag data s t) (hs : PixelsOk s) :
    PixelsOk t := by
  cases h
  case ihdr w h ct _ _ _ _ _ => exact pixelsOk_withRead (pixelsOk_constructAndAnnounce w h ct _)
  case error => exact pixelsOk_teardown ⟨hs.decode, hs.encode⟩
  case finish => exact pixelsOk_closeOpen ⟨hs.decode, hs.encode⟩
  all_goals exact ⟨hs.decode, hs.encode⟩

theorem did_pixelsOk {i : Instr} {s t : State} (h : Did i s t) (hs : PixelsOk s) : PixelsOk t := by
  cases h
  case delivery hd => exact delivered_pixelsOk hd ⟨hs.decode, hs.encode⟩
  case encStart hlen => exact pixelsOk_startEncode hlen _
  case line f _ hl => exact pixelsOk_commitLine hs hl f
  case encline f _ he _ => exact pixelsOk_commitRow hs he f
  case finish m _ hf hm =>
    refine pixelsOk_complete ?_
    rcases hm with ⟨_, hm⟩ | ⟨_, rfl⟩
    · exact pixelsOk_resolvePalette hs hf hm
    · exact hs
  case pushLate | requestLate | pending | teardown => exact pixelsOk_teardown ⟨hs.decode, hs.encode⟩
  case decDispose | encDispose => exact pixelsOk_stop ⟨hs.decode, hs.encode⟩
  case close | closeWith => exact pixelsOk_closeOpen ⟨hs.decode, hs.encode⟩
  all_goals exact ⟨hs.decode, hs.encode⟩

/-- Settles O13: a scanline writes the next row, the palette pass what has been written, `ENC.START` the whole image. -/
theorem pixelsKept : Obligations.PixelsKept := fun _ _ hs h =>
  step_keeps (fun _ _ hs => ⟨hs.decode, hs.encode⟩) (fun _ _ _ _ hs => ⟨hs.decode, hs.encode⟩)
    (fun k par rest _ => pixelsOk_construct k par rest) (fun _ _ _ hs h => did_pixelsOk (exec_did h) hs) hs h

/-! ### The Paeth function and the predictors -/

/-- 43_filter_decode.md R252: how far a byte lies from `left + above - upLeft`, on integers. -/
def paethDistance (left above upLeft v : Byte) : Int :=
  |(left.toNat : Int) + above.toNat - upLeft.toNat - v.toNat|

section Paeth

variable {left above upLeft : Byte}

theorem paethOf_eq : paethOf left above upLeft =
    if paethDistance left above upLeft left ≤ paethDistance left above upLeft above ∧
      paethDistance left above upLeft left ≤ paethDistance left above upLeft upLeft then left
    else if paethDistance left above upLeft above ≤ paethDistance left above upLeft upLeft then above else upLeft := by
  simp only [paethOf, paethDistance, Int.abs_eq_natAbs, Int.ofNat_le]

theorem paethOf_left (ha : paethDistance left above upLeft left ≤ paethDistance left above upLeft above)
    (hu : paethDistance left above upLeft left ≤ paethDistance left above upLeft upLeft) :
    paethOf left above upLeft = left := by
  rw [paethOf_eq, if_pos ⟨ha, hu⟩]

theorem paethOf_above (hl : paethDistance left above upLeft above < paethDistance left above upLeft left)
    (hu : paethDistance left above upLeft above ≤ paethDistance left above upLeft upLeft) :
    paethOf left above upLeft = above := by
  rw [paethOf_eq, if_neg fun h => hl.not_ge h.1, if_pos hu]

theorem paethOf_upLeft (hl : paethDistance left above upLeft upLeft < paethDistance left above upLeft left)
    (ha : paethDistance left above upLeft upLeft < paethDistance left above upLeft above) :
    paethOf left above upLeft = upLeft := by
  rw [paethOf_eq, if_neg fun h => hl.not_ge h.2, if_neg ha.not_ge]

/-- `PAETH` returns one of its arguments, and none of them lies nearer: each of the three cases says which. -/
theorem paethOf_nearest : paethOf left above upLeft ∈ [left, above, upLeft] ∧ ∀ u ∈ [left, above, upLeft],
    paethDistance left above upLeft (paethOf left above upLeft) ≤ paethDistance left above upLeft u := by
  by_cases hleft : paethDistance left above upLeft left ≤ paethDistance left above upLeft above ∧
      paethDistance left above upLeft left ≤ paethDistance left above upLeft upLeft
  · rw [paethOf_left hleft.1 hleft.2]
    simpa using hleft
  · by_cases habove : paethDistance left above upLeft above ≤ paethDistance left above upLeft upLeft
    · have hl : paethDistance left above upLeft above < paethDistance left above upLeft left := by omega
      rw [paethOf_above hl habove]
      simpa using ⟨hl.le, habove⟩
    · have hl : paethDistance left above upLeft upLeft < paethDistance left above upLeft left := by omega
      rw [paethOf_upLeft hl (not_le.1 habove)]
      simpa using ⟨hl.le, (not_le.1 habove).le⟩

end Paeth

/-- 43_filter_decode.md R254: the halved sum of two bytes is a byte, so that Average does not wrap. -/
theorem predOf_average_toNat (left up upLeft : Byte) :
    (predOf .average left up upLeft).toNat = (left.toNat + up.toNat) / 2 := by
  have hl := left.isLt
  have hu := up.isLt
  rw [predOf, BitVec.toNat_ofNat, Nat.mod_eq_of_lt (by omega)]

/-- Settles O47: the three cases of `PAETH`, and Average's sum. -/
theorem paethAndPredictors : Obligations.PaethAndPredictors :=
  ⟨fun _ _ _ _ => ⟨_, rfl, paethOf_nearest.1, paethOf_nearest.2, paethOf_left, paethOf_above, paethOf_upLeft⟩,
    fun left up upLeft _ => ⟨rfl, rfl, rfl, ⟨_, rfl, predOf_average_toNat left up upLeft⟩, rfl⟩⟩

/-! ### One scanline -/

/-- 43_filter_decode.md R253. -/
theorem channel_table :
    (List.range 4).map (channel 1) = [some 0, some 0, some 0, none] ∧
    (List.range 4).map (channel 2) = [some 0, some 0, some 0, some 1] ∧
    (List.range 4).map (channel 3) = [some 0, some 1, some 2, none] ∧
    (List.range 4).map (channel 4) = [some 0, some 1, some 2, some 3] := by
  decide

theorem exec_defiltInstr (f : FilterType) (data : List Byte) (s : State) :
    exec (defiltInstr f data) s = defiltStep f data s := by
  cases f <;> rfl

/-- 43_filter_decode.md R259: the first byte of the queue names the filter type. -/
theorem execFeLine_of_line {f : FilterType} {data : List Byte} {s : State} (hl : lineEnabled s = true)
    (hq : s.fe.inq.take (lineLength s.fe) = f.byte :: data) : execFeLine s = .next (commitLine f s) := by
  have hfirst : s.fe.inq.headD 0 = f.byte := by
    cases hi : s.fe.inq with
    | nil => simp [hi] at hq
    | cons b rest =>
      rw [hi, lineLength, Nat.add_comm, List.take_succ_cons] at hq
      exact (List.cons.inj hq).1
  rw [execFeLine, hl, whenEnabled_true, hfirst, filterOfByte_byte]

theorem defiltStep_of_line {f : FilterType} {data : List Byte} {s : State} (hl : lineEnabled s = true)
    (hq : s.fe.inq.take (lineLength s.fe) = f.byte :: data) : defiltStep f data s = .next (commitLine f s) := by
  rw [defiltStep, hl, hq, beq_self_eq_true, Bool.and_true, whenEnabled_true]

/-- 43_filter_decode.md R256, R260: what the row holds after the scanline has been taken. -/
theorem lineWritten_commitLine {f : FilterType} {data : List Byte} {s : State}
    (hq : s.fe.inq.take (lineLength s.fe) = f.byte :: data) : LineWritten f data s (commitLine f s) := by
  have hpix : (commitLine f s).pix = defilt f s.fe.width s.fe.bpp s.fe.row data s.pix := by
    rw [commitLine_pix, hq, List.drop_one, List.tail_cons]
  obtain ⟨hrow, hother⟩ := read_defilt f s.fe.width s.fe.bpp s.fe.row data s.pix
  rw [← hpix] at hrow hother
  exact ⟨hrow, hother, rfl⟩

/-- Settles O49: both names of the step commit the scanline. -/
theorem lineDefiltered : Obligations.LineDefiltered :=
  ⟨channel_table, fun f data s hl hq => ⟨commitLine f s, execFeLine_of_line hl hq,
    (exec_defiltInstr f data s).trans (defiltStep_of_line hl hq), lineWritten_commitLine hq⟩⟩

/-! ### Completion -/

theorem execFeFinish_direct {s : State} (hf : finishEnabled s = true) (hct : s.h.colorType ≠ 3) :
    execFeFinish s = .next (complete s) := by
  rw [execFeFinish, hf, whenEnabled_true, if_neg hct]

theorem execFeFinish_resolved {s : State} {m : Memory} (hf : finishEnabled s = true) (hct : s.h.colorType = 3)
    (hm : resolvePalette s.pal (s.fe.width * s.fe.height) 0 s.pix = some m) :
    execFeFinish s = .next (complete { s with pix := m }) := by
  rw [execFeFinish, hf, whenEnabled_true, if_pos hct, hm]

/-- 43_filter_decode.md R269: however it completes, completion is latched. -/
theorem execFeFinish_done {s t : State} (hf : finishEnabled s = true) (h : execFeFinish s = .next t) :
    t.fe.done = true := by
  rw [execFeFinish, hf, whenEnabled_true] at h
  split at h
  · split at h
    · cases h; rfl
    · cases h
  · cases h; rfl

/-- 43_filter_decode.md R272: a completed engine has no step left. -/
theorem disabled_of_done {s : State} (h : s.fe.done = true) : finishEnabled s = false ∧ lineEnabled s = false := by
  simp [finishEnabled, lineEnabled, h]

/-- Settles O50: without a palette completion alone, with one the palette pass before it. -/
theorem finish : Obligations.Finish := by
  refine fun s hf => ⟨fun hct => execFeFinish_direct hf hct, fun hct hinside => ?_,
    fun t h => disabled_of_done (execFeFinish_done hf h)⟩
  obtain ⟨m, hm⟩ := Option.isSome_iff_exists.1
    (resolvePalette_isSome (pal := s.pal) (n := s.fe.width * s.fe.height) (q := 0) fun q _ hq => hinside q (by omega))
  obtain ⟨hpixel, hbeyond⟩ := read_resolvePalette hm
  exact ⟨m, execFeFinish_resolved hf hct hm, fun q hq => (hpixel q q.zero_le (by omega)).2,
    fun a ha => hbeyond a (by omega)⟩

end Sys2Proof.Proofs
end

section
/-! PROOFS. The Filter Engine, encode direction (spec/44_filter_encode.md): the choice of the filter type, the filtering of
one row, and the inverse law. Each filtered row, defiltered under the rows already restored, is the raw row again, since a
predictor reads only bytes that lie before its own. -/

namespace Sys2Proof.Proofs

open Sys2Proof.Machine Sys2Proof.Safety Sys2Proof.Laws

/-! ### The cost of a row -/

theorem costSum_unwrapped (f : FilterType) (w4 : Nat) (m : Memory) (y : Nat) :
    costSum .unwrapped f w4 m y = ∑ i ∈ Finset.range w4, (diff f w4 m y i).natAbs := rfl

/-- 43_filter_decode.md R254: between zeros every type predicts zero. -/
theorem rawPred_of_zeros {w4 : Nat} {m : Memory} {y i : Nat} (hleft : rawLeft w4 m y i = 0) (hup : rawUp w4 m y i = 0)
    (hupLeft : rawUpLeft w4 m y i = 0) (f : FilterType) : rawPred f w4 m y i = 0 := by
  rw [rawPred, hleft, hup, hupLeft]
  cases f <;> rfl

/-- All bytes of the row are `v`, and every type predicts zero for them. -/
def FlatRow (v : Byte) (w4 : Nat) (m : Memory) (y : Nat) : Prop :=
  ∀ i < w4, rawByte w4 m y i = v ∧ ∀ f, rawPred f w4 m y i = 0

theorem costSum_of_flat {v : Byte} {w4 : Nat} {m : Memory} {y : Nat} (h : FlatRow v w4 m y) (f : FilterType) :
    costSum .unwrapped f w4 m y = w4 * v.toNat := by
  have hdiff : ∀ i ∈ Finset.range w4, (diff f w4 m y i).natAbs = v.toNat := by
    intro i hi
    obtain ⟨hraw, hpred⟩ := h i (Finset.mem_range.1 hi)
    simp [diff, hraw, hpred]
  rw [costSum_unwrapped, Finset.sum_const_nat hdiff, Finset.card_range]

/-- Black bytes, below black bytes or in the top row: all neighbours are zero. -/
theorem flatRow_of_black {w4 : Nat} {m : Memory} {y : Nat}
    (h : ∀ i < w4, rawByte w4 m y i = 0 ∧ (0 < y → rawByte w4 m (y - 1) i = 0)) : FlatRow 0 w4 m y := by
  intro i hi
  have hback : i - 4 < w4 := by omega
  refine ⟨(h i hi).1, rawPred_of_zeros ?_ ?_ ?_⟩
  · rw [rawLeft, (h _ hback).1, ite_self]
  · exact ite_eq_right_iff.2 (h i hi).2
  · exact ite_eq_right_iff.2 fun hedge => (h _ hback).2 hedge.2

/-- 44_filter_encode.md R291: the first pixel of the top row has no neighbours. -/
theorem flatRow_of_first {v : Byte} {m : Memory} (h : ∀ i < 4, pixRead m i = v) : FlatRow v 4 m 0 := by
  intro i hi
  refine ⟨?_, rawPred_of_zeros (if_neg (by omega)) rfl (if_neg (by omega))⟩
  rw [rawByte, Nat.zero_mul, Nat.zero_add, h i hi]

/-! ### The choice of the type -/

/-- The first pass is Mathlib's `argmin`, which too keeps the earlier of two elements that tie. -/
theorem selectFilter_eq_argmin (cost : FilterType → Nat) (l : List FilterType) :
    selectFilter cost l = l.argmin cost := by
  have hstep : better cost = List.argAux (fun b c => cost b < cost c) := by
    funext best f
    cases best <;> rfl
  rw [selectFilter, hstep]
  rfl

theorem idxOf_le_of_getElem? {l : List FilterType} {j : Nat} {g : FilterType} (h : l[j]? = some g) : l.idxOf g ≤ j := by
  obtain ⟨_, hg⟩ := List.getElem?_eq_some_iff.1 h
  refine not_lt.1 fun hlt => ?_
  simpa [hg] using List.not_of_lt_findIdx hlt

/-- 44_filter_encode.md R301: of the candidates with the lowest cost the first in list order. -/
theorem selectFilter_first {cost : FilterType → Nat} {l : List FilterType} (hl : l ≠ []) :
    ∃ i f, l[i]? = some f ∧ selectFilter cost l = some f ∧ (∀ g ∈ l, cost f ≤ cost g) ∧
      ∀ (j : Nat) (g : FilterType), j < i → l[j]? = some g → cost f < cost g := by
  obtain ⟨f, hf⟩ := Option.ne_none_iff_exists'.1 (mt List.argmin_eq_none.1 hl : l.argmin cost ≠ none)
  obtain ⟨hmem, hle, hfirst⟩ := List.mem_argmin_iff.1 hf
  refine ⟨l.idxOf f, f, List.getElem?_idxOf hmem, (selectFilter_eq_argmin cost l).trans hf, hle, fun j g hj hg => ?_⟩
  refine not_le.1 fun hge => hj.not_ge ?_
  exact (hfirst g (List.mem_of_getElem? hg) hge).trans (idxOf_le_of_getElem? hg)

/-- 10_state.md R45: a legal candidate list is not empty. -/
theorem candidateTypes_ne_nil {bytes : List Byte} {l : List FilterType} (h : candidateTypes bytes = some l) : l ≠ [] := by
  unfold candidateTypes at h
  split at h
  · cases h; exact List.cons_ne_nil _ _
  · split at h
    · obtain ⟨f, _, rfl⟩ := Option.map_eq_some_iff.1 h
      exact List.cons_ne_nil _ _
    · cases h

theorem bestFilter_of_candidates {s : State} {l : List FilterType} (h : candidateTypes s.cfg.candidates = some l) :
    bestFilter s = selectFilter (fun f => costSum s.par.cost f (4 * s.fe.width) s.pix s.fe.row) l := by
  rw [bestFilter, h]

/-- 44_filter_encode.md R303: where all types tie, the default list's first is chosen. -/
theorem bestFilter_of_ties {s : State} {c : Nat} (hc : s.cfg.candidates = [0, 1, 2, 3, 4])
    (hties : ∀ f, costSum s.par.cost f (4 * s.fe.width) s.pix s.fe.row = c) : bestFilter s = some .none := by
  have hall : candidateTypes s.cfg.candidates = some allFilters := by rw [hc]; rfl
  rw [bestFilter_of_candidates hall]
  simp [hties, allFilters, selectFilter, better]

/-- Settles O52: the first pass is `argmin`, and on the flat rows all types tie. -/
theorem selection : Obligations.Selection := by
  refine ⟨costSum_unwrapped, fun s l hl => ?_, fun s hcost hcand hblack => ?_, fun s hcost hcand hw hrow hwhite => ?_⟩
  · rw [bestFilter_of_candidates hl]
    exact selectFilter_first (candidateTypes_ne_nil hl)
  · have hzero : ∀ f, costSum s.par.cost f (4 * s.fe.width) s.pix s.fe.row = 0 := fun f => by
      rw [hcost, costSum_of_flat (flatRow_of_black hblack)]
      rfl
    exact ⟨hzero, bestFilter_of_ties hcand hzero⟩
  · have hflat := flatRow_of_first hwhite
    have hsum : ∀ f, costSum s.par.cost f 4 s.pix 0 = 1020 := fun f => by
      rw [hcost, costSum_of_flat hflat]
      rfl
    refine ⟨hsum, bestFilter_of_ties hcand (by rwa [hw, hrow]), ?_⟩
    have hbyte : ∀ i < 4, fbyte .none 4 s.pix 0 i = 0xFF := fun i hi => by
      obtain ⟨hraw, hpred⟩ := hflat i hi
      rw [fbyte, hraw, hpred, sub_zero]
    simp [filteredRow, FilterType.byte, List.range_succ, hbyte]

/-! ### The filtered row -/

/-- The filtered bytes of a row, without the filter-type byte. -/
def filteredBytes (f : FilterType) (w4 : Nat) (m : Memory) (y : Nat) : List Byte := (List.range w4).map (fbyte f w4 m y)

theorem filteredRow_eq_cons (f : FilterType) (w4 : Nat) (m : Memory) (y : Nat) :
    filteredRow f w4 m y = f.byte :: filteredBytes f w4 m y := rfl

theorem getElem?_filteredBytes (f : FilterType) {w4 i : Nat} (m : Memory) (y : Nat) (hi : i < w4) :
    (filteredBytes f w4 m y)[i]? = some (fbyte f w4 m y i) := by
  rw [filteredBytes, List.getElem?_map, List.getElem?_range hi, Option.map_some]

theorem getElem?_filteredRow (f : FilterType) {w4 i : Nat} (m : Memory) (y : Nat) (hi : i < w4) :
    (filteredRow f w4 m y)[1 + i]? = some (fbyte f w4 m y i) := by
  rw [filteredRow_eq_cons, Nat.add_comm, List.getElem?_cons_succ, getElem?_filteredBytes f m y hi]

theorem filteredRow_length (f : FilterType) (w4 : Nat) (m : Memory) (y : Nat) :
    (filteredRow f w4 m y).length = 1 + w4 := by
  simp [filteredRow, Nat.add_comm]

theorem enclineEnabled_deflOpen {s : State} (h : enclineEnabled s = true) : s.defl.ended = false := by
  simp only [enclineEnabled, Bool.and_eq_true, Bool.not_eq_true'] at h
  obtain ⟨⟨_, hopen⟩, _⟩ := h
  exact hopen

/-- 44_filter_encode.md R300: the row goes to the compressor, whose input ends after the last row. -/
theorem commitRow_of_open {f : FilterType} {s : State} (h : s.defl.ended = false) : commitRow f s =
    { s with
      fe := { s.fe with row := s.fe.row + 1, done := s.fe.done || decide (s.fe.row + 1 = s.fe.height) }
      defl := { s.defl with
        input := s.defl.input ++ filteredRow f (4 * s.fe.width) s.pix s.fe.row
        ended := decide (s.fe.row + 1 = s.fe.height) } } := by
  rw [commitRow, h, Bool.false_or]

theorem execFeEncline_of_best {f : FilterType} {s : State} (he : enclineEnabled s = true) (hf : bestFilter s = some f) :
    execFeEncline s = encodeRow f s := by
  rw [execFeEncline, he, whenEnabled_true, hf]

theorem exec_filtInstr (f : FilterType) (y : Nat) (s : State) : exec (filtInstr f y) s = filtStep f y s := by
  cases f <;> rfl

theorem filtStep_of_best {f : FilterType} {s : State} (he : enclineEnabled s = true) (hf : bestFilter s = some f) :
    filtStep f s.fe.row s = encodeRow f s := by
  rw [filtStep, he, hf, beq_self_eq_true, beq_self_eq_true, Bool.and_true, Bool.and_true, whenEnabled_true]

theorem encodeRow_accepted {f : FilterType} {s : State}
    (h : s.par.deflRejects.contains (commitRow f s).defl.input = false) :
    encodeRow f s = .next (commitRow f s) := by
  rw [encodeRow, h, if_neg Bool.false_ne_true]

theorem encodeRow_rejected {f : FilterType} {s : State}
    (h : s.par.deflRejects.contains (commitRow f s).defl.input = true) :
    encodeRow f s = .fault .transformRejected := by
  rw [encodeRow, if_pos h]

/-- Settles O53: both names of the step filter the row with the chosen type. -/
theorem rowFiltered : Obligations.RowFiltered := by
  intro f s he hf
  have hline := execFeEncline_of_best he hf
  refine ⟨filteredRow f (4 * s.fe.width) s.pix s.fe.row, filteredRow_length .., rfl,
    fun i hi => getElem?_filteredRow f s.pix s.fe.row hi, fun haccept => ?_,
    fun hreject => hline.trans (encodeRow_rejected hreject)⟩
  have hrow := (encodeRow_accepted haccept).trans (congrArg _ (commitRow_of_open (enclineEnabled_deflOpen he)))
  exact ⟨hline.trans hrow, (exec_filtInstr f _ s).trans ((filtStep_of_best he hf).trans hrow)⟩

/-! ### The two directions agree on neighbours -/

section Neighbours

variable {w x c : Nat}

/-- With four bytes per pixel, channel `c` of pixel `x` is byte `4 * x + c` of its row, in `PIX` as in the row. -/
theorem pixRead_pixAddr (m : Memory) (y : Nat) : pixRead m (pixAddr w y x c) = rawByte (4 * w) m y (4 * x + c) := by
  rw [rawByte]
  congr 1
  rw [pixAddr]
  ring

/-- Four bytes back is the same channel of the pixel to the left. -/
theorem pixRead_pixAddr_left (m : Memory) (y : Nat) (hx : 0 < x) :
    pixRead m (pixAddr w y (x - 1) c) = rawByte (4 * w) m y (4 * x + c - 4) := by
  rw [pixRead_pixAddr]
  congr 1
  omega

theorem four_le_byte_iff (hc : c < 4) : 4 ≤ 4 * x + c ↔ 0 < x := by omega

theorem leftOf_eq_rawLeft (m : Memory) (y : Nat) (hc : c < 4) : leftOf w m y x c = rawLeft (4 * w) m y (4 * x + c) := by
  simp only [leftOf, rawLeft, four_le_byte_iff hc]
  exact ite_congr rfl (pixRead_pixAddr_left m y) fun _ => rfl

theorem upOf_eq_rawUp (m : Memory) (y : Nat) : upOf w m y x c = rawUp (4 * w) m y (4 * x + c) := by
  rw [upOf, rawUp, pixRead_pixAddr]

theorem upLeftOf_eq_rawUpLeft (m : Memory) (y : Nat) (hc : c < 4) :
    upLeftOf w m y x c = rawUpLeft (4 * w) m y (4 * x + c) := by
  simp only [upLeftOf, rawUpLeft, four_le_byte_iff hc]
  exact ite_congr rfl (fun hedge => pixRead_pixAddr_left m _ hedge.1) fun _ => rfl

end Neighbours

theorem channel_four {c : Nat} (hc : c < 4) : channel 4 c = some c := by
  interval_cases c <;> rfl

/-- 43_filter_decode.md R260 in the terms of 44_filter_encode.md R291, R292. -/
theorem defiltByte_four (f : FilterType) (w y : Nat) (data : List Byte) (m : Memory) (x : Nat) {c : Nat} (hc : c < 4) :
    defiltByte f w 4 y data m x c = data.getD (4 * x + c) 0 + rawPred f (4 * w) m y (4 * x + c) := by
  rw [defiltByte, channel_four hc, rawPred, leftOf_eq_rawLeft m y hc, upOf_eq_rawUp, upLeftOf_eq_rawUpLeft m y hc,
    Nat.mul_comm x 4]

/-- The predictor of a byte depends on the bytes before it only. -/
theorem rawPred_congr (f : FilterType) {w4 y i : Nat} {m n : Memory} (hi : i < w4)
    (h : ∀ a < y * w4 + i, pixRead m a = pixRead n a) : rawPred f w4 m y i = rawPred f w4 n y i := by
  have habove (hy : 0 < y) {k : Nat} (hk : k ≤ i) : rawByte w4 m (y - 1) k = rawByte w4 n (y - 1) k := by
    obtain ⟨z, rfl⟩ := Nat.exists_eq_add_one.2 hy
    refine h _ ?_
    rw [Nat.succ_mul, Nat.add_sub_cancel]
    omega
  have hleft : rawLeft w4 m y i = rawLeft w4 n y i := ite_congr rfl (fun hx => h _ (by omega)) fun _ => rfl
  have hup : rawUp w4 m y i = rawUp w4 n y i := ite_congr rfl (fun hy => habove hy le_rfl) fun _ => rfl
  have hupLeft : rawUpLeft w4 m y i = rawUpLeft w4 n y i :=
    ite_congr rfl (fun hedge => habove hedge.2 (Nat.sub_le i 4)) fun _ => rfl
  rw [rawPred, rawPred, hleft, hup, hupLeft]

/-! ### The inverse law -/

/-- The first `n` bytes of `PIX` are those of the image. -/
def RestoredBelow (n : Nat) (m image : Memory) : Prop := ∀ a < n, pixRead m a = pixRead image a

/-- 44_filter_encode.md R305 for one row, byte by byte: the neighbours have been restored, so the predictor that is added
is the one that was taken away (43_filter_decode.md R255). -/
theorem restoredBelow_defilt {w y : Nat} {m image : Memory} (f : FilterType) (hm : RestoredBelow (y * (4 * w)) m image) :
    RestoredBelow ((y + 1) * (4 * w)) (defilt f w 4 y (filteredBytes f (4 * w) image y) m) image := by
  obtain ⟨hrow, hother⟩ := read_defilt f w 4 y (filteredBytes f (4 * w) image y) m
  rw [pixAddr_row] at hother
  intro a
  rw [Nat.succ_mul]
  induction a using Nat.strong_induction_on with
  | _ a ih =>
    intro ha
    by_cases hlow : a < y * (4 * w)
    · rw [pixRead, hother a (.inl hlow)]
      exact hm a hlow
    · obtain ⟨x, hx, c, hc, rfl⟩ := exists_pixAddr (not_lt.1 hlow) ha
      have hbyte : 4 * x + c < 4 * w := by omega
      have haddr : pixAddr w y x c = y * (4 * w) + (4 * x + c) := by rw [pixAddr]; ring
      have hpred : rawPred f (4 * w) (defilt f w 4 y (filteredBytes f (4 * w) image y) m) y (4 * x + c)
          = rawPred f (4 * w) image y (4 * x + c) :=
        rawPred_congr f hbyte fun b hb => ih b (haddr ▸ hb) (by omega)
      rw [pixRead, hrow x hx c hc, Option.getD_some, defiltByte_four f w y _ _ x hc, hpred,
        List.getD_eq_getElem?_getD, getElem?_filteredBytes f image y hbyte, Option.getD_some, fbyte,
        BitVec.sub_add_cancel, pixRead_pixAddr]

/-- A decode engine with the filtered rows of the image from `FE.row` on in its queue, `n` of them, and the rows above
restored. -/
structure Restoring (image : Memory) (choice : Nat → FilterType) (n : Nat) (s : State) : Prop where
  engine : defilterLive s = true
  notDone : s.fe.done = false
  bpp : s.fe.bpp = 4
  rows : s.fe.row + n = s.fe.height
  queue : s.fe.inq = (List.range' s.fe.row n).flatMap (fun y => filteredRow (choice y) (4 * s.fe.width) image y)
  above : RestoredBelow (s.fe.row * (4 * s.fe.width)) s.pix image

section Restoring

variable {image : Memory} {choice : Nat → FilterType} {n : Nat} {s : State}

theorem inq_of_restoring (h : Restoring image choice (n + 1) s) :
    s.fe.inq = filteredRow (choice s.fe.row) (4 * s.fe.width) image s.fe.row ++
      (List.range' (s.fe.row + 1) n).flatMap (fun y => filteredRow (choice y) (4 * s.fe.width) image y) := by
  rw [h.queue, List.range'_succ, List.flatMap_cons]

theorem lineLength_of_restoring (h : Restoring image choice n s) (f : FilterType) (y : Nat) :
    lineLength s.fe = (filteredRow f (4 * s.fe.width) image y).length := by
  rw [lineLength, h.bpp, filteredRow_length, Nat.mul_comm]

theorem take_line_of_restoring (h : Restoring image choice (n + 1) s) : s.fe.inq.take (lineLength s.fe) =
    (choice s.fe.row).byte :: filteredBytes (choice s.fe.row) (4 * s.fe.width) image s.fe.row := by
  rw [inq_of_restoring h, lineLength_of_restoring h, List.take_left, filteredRow_eq_cons]

theorem lineEnabled_of_restoring (h : Restoring image choice (n + 1) s) : lineEnabled s = true := by
  refine (lineEnabled_iff s).2 ⟨h.engine, h.notDone, by have := h.rows; omega, ?_⟩
  rw [lineLength_of_restoring h (choice s.fe.row) s.fe.row, inq_of_restoring h, List.length_append]
  exact Nat.le_add_right _ _

/-- The next row of the image is restored. -/
theorem restoring_commitLine (h : Restoring image choice (n + 1) s) :
    Restoring image choice n (commitLine (choice s.fe.row) s) where
  engine := h.engine
  notDone := h.notDone
  bpp := h.bpp
  rows := by have := h.rows; simp only [commitLine_fe]; omega
  queue := by
    simp only [commitLine_fe]
    rw [inq_of_restoring h, lineLength_of_restoring h, List.drop_left]
  above := by
    simp only [commitLine_fe, commitLine_pix]
    rw [take_line_of_restoring h, h.bpp, List.drop_one, List.tail_cons]
    exact restoredBelow_defilt _ h.above

end Restoring

theorem times_feLine_of_restoring {image : Memory} {choice : Nat → FilterType} {n : Nat} {s : State}
    (h : Restoring image choice n s) : ∃ t, times .feLine n s = .next t ∧ Restoring image choice 0 t ∧
      t.fe.width = s.fe.width ∧ t.fe.height = s.fe.height := by
  induction n generalizing s with
  | zero => exact ⟨s, rfl, h, rfl, rfl⟩
  | succ n ih =>
    obtain ⟨t, ht, hend, hwidth, hheight⟩ := ih (restoring_commitLine h)
    refine ⟨t, ?_, hend, hwidth, hheight⟩
    rw [times, exec_feLine, execFeLine_of_line (lineEnabled_of_restoring h) (take_line_of_restoring h),
      andThen_of_next, ht]

/-- Settles O51, by induction on the rows. -/
theorem filterInverse : Obligations.FilterInverse := by
  intro image choice s hkind herr hlive hmode hdone hrow hbpp hqueue
  have hstart : Restoring image choice s.fe.height s := {
    engine := by simp [defilterLive, hkind, herr, hlive, hmode]
    notDone := hdone
    bpp := hbpp
    rows := by rw [hrow, Nat.zero_add]
    queue := by rw [hqueue, hrow, List.range_eq_range']
    above := by simp [RestoredBelow, hrow] }
  obtain ⟨t, ht, hend, hwidth, hheight⟩ := times_feLine_of_restoring hstart
  have hall : t.fe.row = s.fe.height := hend.rows.trans hheight
  have hrestored := hend.above
  rw [hall, hwidth] at hrestored
  exact ⟨t, ht, hall, hend.queue, hrestored⟩

end Sys2Proof.Proofs
end

section
/-! PROOFS. The Chunk Packer (spec/45_chunk_packer.md). What an operation can do to an encode session, said once, and from it
the two invariants of the encoded stream: what the packer has emitted, and what the transform has been given. Then the
packer's steps, the layout of a chunk, and the start of an encode. -/

namespace Sys2Proof.Proofs

open Sys2Proof.Machine Sys2Proof.Safety Sys2Proof.Laws

/-! ### When the steps of an encode are enabled -/

theorem packing_iff (phase : PkPhase) (s : State) :
    packing phase s = true ↔ s.kind = .encode ∧ s.err = none ∧ s.pk = phase := by
  simp only [packing, Bool.and_eq_true, beq_iff_eq, Option.isNone_iff_eq_none, and_assoc]

/-- 44_filter_encode.md R300: the next row can be filtered while the transform's input is open. -/
theorem enclineEnabled_iff (s : State) : enclineEnabled s = true ↔ packing .data s = true ∧ s.fe.live = true ∧
    s.fe.mode = .encode ∧ s.fe.row < s.fe.height ∧ s.defl.ended = false ∧ s.defl.live = true := by
  simp only [enclineEnabled, Bool.and_eq_true, beq_iff_eq, decide_eq_true_eq, Bool.not_eq_true', and_assoc]

/-- 20_memory.md R77: the transform is done once its input has ended and all its output has been handed over. -/
theorem deflDoneEnabled_iff (s : State) : deflDoneEnabled s = true ↔ packing .data s = true ∧ s.defl.live = true ∧
    s.defl.ended = true ∧ s.defl.emitted = (deflateStream s.par s.cfg s.defl.input true).length := by
  simp only [deflDoneEnabled, Bool.and_eq_true, decide_eq_true_eq, and_assoc]

theorem defilterLive_kind {s : State} (h : defilterLive s = true) : s.kind = .decode := by
  simp only [defilterLive, Bool.and_eq_true, beq_iff_eq, and_assoc] at h
  exact h.1

theorem startPending_kind {s : State} (h : startPending s = true) : s.kind = .decode := by
  simp only [startPending, Bool.and_eq_true, beq_iff_eq, and_assoc] at h
  exact h.1

/-! ### What an operation does to an encode session -/

/-- What an operation leaves of an encode session: nothing of the stream changed; the session stopped; or a step of
`ENC.START`, of the packer or of `FE.ENCLINE`, with the conditions that the stream's invariants rest on. -/
inductive EncodeStep (s : State) : State → Prop
  | wait : EncodeStep s s
  | value (v : Result) : EncodeStep s (reply v s)
  | chunk (ty : Word) (payload : List Byte) (v : Result) : EncodeStep s (reply v (chunkCrc ty payload s))
  | stopped (t : State) : t.pk = .failed → EncodeStep s t
  | start (w h : Word) (pixels : List Byte) : s.pk = .idle → h ≠ 0 →
      EncodeStep s (startEncode w h pixels { s with started := true })
  | signature : s.pk = .sig → EncodeStep s (emit (.data signature) { s with pk := .ihdr })
  | header : s.pk = .ihdr → EncodeStep s (emitChunk tyIHDR (headerPayload s) { s with pk := .data })
  | row (f : FilterType) : s.pk = .data → s.fe.row < s.fe.height → s.defl.ended = false → EncodeStep s (commitRow f s)
  | block (b : List Byte) : s.pk = .data → b ≠ [] → b = (deflPending s).take b.length → EncodeStep s (emitBlock b s)
  | finish : s.pk = .data → s.defl.ended = true →
      s.defl.emitted = (deflateStream s.par s.cfg s.defl.input true).length → EncodeStep s (emitEnd s)

theorem teardown_pk_of_encode {s : State} (hk : s.kind = .encode) (e : ErrorKind) (info : List Word) :
    (teardown e info s).pk = .failed := by
  rw [teardown, stop_of_encode (by exact hk)]

/-- An encode session has no Demand Buffer, no parser and no defiltering engine: what is left of `Did` is `EncodeStep`. -/
theorem did_encodeStep {i : Instr} {s t : State} (hk : s.kind = .encode) (h : Did i s t) : EncodeStep s t := by
  have hnoBuffer : hasBuffer s.kind ≠ true := by simp [hk, hasBuffer]
  have hnoDecode : s.kind ≠ .decode := by simp [hk]
  cases h with
  | delivery | push | pushLate | close | closeWith | closeLate | dispose | finalized | pending =>
    exact absurd ‹hasBuffer s.kind = true› hnoBuffer
  | request | requestLate => exact nomatch hk.symm.trans ‹s.kind = .buffer›
  | crcInit | crcUpdate | crcFinal => exact nomatch hk.symm.trans ‹s.kind = .crc›
  | decDispose => exact absurd ‹s.kind = .decode› hnoDecode
  | pStart _ hp => exact absurd (startPending_kind hp) hnoDecode
  | fed _ _ hl => exact absurd (defilterLive_kind hl) hnoDecode
  | line _ _ hl => exact absurd (defilterLive_kind ((lineEnabled_iff s).1 hl).1) hnoDecode
  | finish _ _ hf => exact absurd (defilterLive_kind ((finishEnabled_iff s).1 hf).1) hnoDecode
  | wait _ => exact .wait
  | value v _ => exact .value v
  | chunk ty payload v => exact .chunk ty payload v
  | encDispose => exact .stopped _ (by rw [stop_of_encode (by exact hk)])
  | teardown e info => exact .stopped _ (teardown_pk_of_encode hk e info)
  | encStart w height pixels _ _ _ hp _ hheight => exact .start w height pixels hp hheight
  | pkSig _ hp =>
    obtain ⟨_, _, hp⟩ := (packing_iff .sig s).1 hp
    exact .signature hp
  | pkIhdr _ hp =>
    obtain ⟨_, _, hp⟩ := (packing_iff .ihdr s).1 hp
    exact .header hp
  | encline f _ he =>
    obtain ⟨hp, _, _, hrow, hopen, _⟩ := (enclineEnabled_iff s).1 he
    obtain ⟨_, _, hp⟩ := (packing_iff .data s).1 hp
    exact .row f hp hrow hopen
  | block b _ hp _ hne hb =>
    obtain ⟨_, _, hp⟩ := (packing_iff .data s).1 hp
    exact .block b hp hne hb
  | finishOutput _ hd =>
    obtain ⟨hp, _, hended, hall⟩ := (deflDoneEnabled_iff s).1 hd
    obtain ⟨_, _, hp⟩ := (packing_iff .data s).1 hp
    exact .finish hp hended hall

/-- A session that is an encode session after an operation was one before it, and took an `EncodeStep`. -/
theorem exec_encodeStep {i : Instr} {s t : State} (h : exec i s = .next t) (hk : t.kind = .encode) :
    s.kind = .encode ∧ EncodeStep s t := by
  have hkind : t.kind = s.kind := writersOnly .kind i s t h rfl
  have hk : s.kind = .encode := hkind.symm.trans hk
  exact ⟨hk, did_encodeStep hk (exec_did h)⟩

/-! ### The compressed blocks -/

theorem blocksOk_nil {s : State} (h : s.defl.emitted = 0) : BlocksOk [] s :=
  ⟨nofun, h.symm, fun _ => by rw [h, List.take_zero, List.flatten_nil]⟩

/-- A further row only adds to the transform's output, so the blocks handed over are still its front (20_memory.md R77). -/
theorem blocksOk_commitRow {blocks : List (List Byte)} {s : State} (h : BlocksOk blocks s) (hopen : s.defl.ended = false)
    (f : FilterType) : BlocksOk blocks (commitRow f s) := by
  obtain ⟨hne, hlength, hfront⟩ := h
  refine ⟨hne, hlength, fun hm => ?_⟩
  have hgrows : deflateStream s.par s.cfg s.defl.input s.defl.ended <+:
      deflateStream s.par s.cfg (commitRow f s).defl.input (commitRow f s).defl.ended := by
    rw [hopen]
    exact hm _ _ _
  have hold : blocks.flatten <+: deflateStream s.par s.cfg s.defl.input s.defl.ended := by
    rw [hfront hm]
    exact List.take_prefix _ _
  obtain ⟨rest, hnew⟩ := hold.trans hgrows
  exact (List.take_left' hlength).symm.trans (congrArg _ hnew)

/-- The next block continues where the ones before it end (20_memory.md R74). -/
theorem blocksOk_emitBlock {blocks : List (List Byte)} {b : List Byte} {s : State} (h : BlocksOk blocks s) (hb : b ≠ [])
    (hnext : b = (deflPending s).take b.length) : BlocksOk (blocks ++ [b]) (emitBlock b s) := by
  obtain ⟨hne, hlength, hfront⟩ := h
  refine ⟨List.forall_mem_append.2 ⟨hne, List.forall_mem_singleton.2 hb⟩, ?_, fun hm => ?_⟩
  · simp [hlength]
  · have hflatten : (blocks ++ [b]).flatten = blocks.flatten ++ b := by simp
    rw [hflatten, hfront hm, emitBlock_defl, List.take_add]
    exact congrArg _ hnext

/-! ### The pieces of the output -/

@[simp] theorem dataOf_append (a b : List Event) : dataOf (a ++ b) = dataOf a ++ dataOf b := List.filterMap_append

@[simp] theorem dataOf_nil : dataOf [] = [] := rfl

@[simp] theorem dataOf_data (b : List Byte) (log : List Event) : dataOf (.data b :: log) = b :: dataOf log := rfl

@[simp] theorem dataOf_endOfStream (log : List Event) : dataOf (.endOfStream :: log) = dataOf log := rfl

@[simp] theorem headerChunk_emitBlock (b : List Byte) (s : State) : headerChunk (emitBlock b s) = headerChunk s := rfl

@[simp] theorem headerChunk_emitEnd (s : State) : headerChunk (emitEnd s) = headerChunk s := rfl

theorem outputOk_of_failed {s : State} (h : s.pk = .failed) : OutputOk s := by
  intro _
  rw [h]
  trivial

/-- 45_chunk_packer.md R331, phase `Data`. -/
theorem outputOk_data_iff {s : State} (hk : s.kind = .encode) (hp : s.pk = .data) : OutputOk s ↔ s.started = true ∧
    ∃ blocks, BlocksOk blocks s ∧ dataOf s.log = signature :: headerChunk s :: blocks.map (chunkBytes tyIDAT) := by
  simp only [OutputOk, hk, hp, forall_const]

/-- Before the session's first command the packer is idle or has failed, and neither looks at the configuration. -/
theorem outputOk_with_cfg {s : State} (hs : OutputOk s) (hstart : s.started = false) (c : Cfg) (rest : List Input) :
    OutputOk { s with cfg := c, agenda := rest } := by
  intro hk
  have h := hs hk
  cases hp : s.pk with
  | idle | failed => rw [hp] at h; exact h
  | sig | ihdr | data | done =>
    rw [hp] at h
    exact absurd (hstart.symm.trans h.1) nofun

theorem encodeStep_outputOk {s t : State} (h : EncodeStep s t) (hk : s.kind = .encode) (hs : OutputOk s) :
    OutputOk t := by
  have hphase := hs hk
  cases h with
  | wait | value | chunk => exact hs
  | stopped _ hp => exact outputOk_of_failed hp
  | start _ _ _ hp =>
    rw [hp] at hphase
    exact fun _ => ⟨rfl, hphase⟩
  | signature hp =>
    rw [hp] at hphase
    obtain ⟨hstart, hlog, hemitted⟩ := hphase
    exact fun _ => ⟨hstart, by simp [hlog], hemitted⟩
  | header hp =>
    rw [hp] at hphase
    obtain ⟨hstart, hlog, hemitted⟩ := hphase
    exact fun _ => ⟨hstart, [], blocksOk_nil hemitted, by rw [emitChunk_log, dataOf_append, hlog]; rfl⟩
  | row f hp _ hopen =>
    obtain ⟨hstart, blocks, hblocks, hlog⟩ := (outputOk_data_iff hk hp).1 hs
    exact (outputOk_data_iff (s := commitRow f s) hk hp).2 ⟨hstart, blocks, blocksOk_commitRow hblocks hopen f, hlog⟩
  | block b hp hne hnext =>
    obtain ⟨hstart, blocks, hblocks, hlog⟩ := (outputOk_data_iff hk hp).1 hs
    refine (outputOk_data_iff (s := emitBlock b s) hk hp).2
      ⟨hstart, blocks ++ [b], blocksOk_emitBlock hblocks hne hnext, ?_⟩
    simp [hlog]
  | finish hp hended hall =>
    obtain ⟨hstart, blocks, hblocks, hlog⟩ := (outputOk_data_iff hk hp).1 hs
    exact fun _ => ⟨hstart, blocks, hblocks, hended, hall, by simp [hlog], by simp⟩

theorem step_keeps_outputOk {s t : State} (hs : OutputOk s) (h : step s = .next t) : OutputOk t := by
  refine step_keeps (fun _ _ hs => hs) (fun _ c rest hstart hs => outputOk_with_cfg hs hstart c rest)
    (fun k par rest _ => outputOk_construct k par rest) ?_ hs h
  intro i s t hs h hk
  obtain ⟨hk', hstep⟩ := exec_encodeStep h hk
  exact encodeStep_outputOk hstep hk' hs hk

/-! ### The filtered rows -/

/-- One more row, filtered with `f`: the same choices for the rows before it. -/
theorem flatMap_range_update {α β : Type} (row : α → Nat → List β) (choice : Nat → α) (n : Nat) (f : α) :
    (List.range (n + 1)).flatMap (fun y => row (Function.update choice n f y) y) =
      (List.range n).flatMap (fun y => row (choice y) y) ++ row f n := by
  have hbefore : (List.range n).flatMap (fun y => row (Function.update choice n f y) y) =
      (List.range n).flatMap (fun y => row (choice y) y) :=
    List.flatMap_congr fun y hy => by rw [Function.update_of_ne (List.mem_range.1 hy).ne]
  rw [List.range_succ, List.flatMap_append, hbefore, List.flatMap_singleton, Function.update_self]

theorem encoding_of_phase {s : State} (h : s.pk = .sig ∨ s.pk = .ihdr ∨ s.pk = .data ∨ s.pk = .done) :
    encoding s = true := by
  simpa [encoding, or_assoc] using h

theorem rowsOk_of_failed {s : State} (h : s.pk = .failed) : RowsOk s where
  idle _ hp := nomatch h.symm.trans hp
  rows _ he := by simp [encoding, h] at he

/-- 45_chunk_packer.md R321: an encode starts before its first row, with an image that has one. -/
theorem rowsOk_startEncode {s : State} (hs : RowsOk s) (hk : s.kind = .encode) (hp : s.pk = .idle) (w : Word) {h : Word}
    (hh : h ≠ 0) (pixels : List Byte) : RowsOk (startEncode w h pixels { s with started := true }) where
  idle _ hp := nomatch hp
  rows _ _ := by
    obtain ⟨hinput, hopen⟩ := hs.idle hk hp
    have hpos : 0 < h.toNat := Nat.pos_of_ne_zero fun hz => hh (BitVec.eq_of_toNat_eq hz)
    exact ⟨rfl, Nat.zero_le _, hpos, ⟨fun _ => .none, hinput⟩, hopen.trans (decide_eq_false hpos.ne).symm⟩

/-- 44_filter_encode.md R300, R304: the row's filtered bytes, and the end of input exactly after the last row. -/
theorem rowsOk_commitRow {s : State} (hs : RowsOk s) (hk : s.kind = .encode) (hp : s.pk = .data)
    (hrow : s.fe.row < s.fe.height) (hopen : s.defl.ended = false) (f : FilterType) : RowsOk (commitRow f s) where
  idle _ hidle := nomatch hp.symm.trans hidle
  rows _ _ := by
    obtain ⟨hmode, _, hpos, ⟨choice, hinput⟩, _⟩ := hs.rows hk (encoding_of_phase (by simp [hp]))
    refine ⟨hmode, hrow, hpos, ⟨Function.update choice s.fe.row f, ?_⟩, ?_⟩
    · rw [commitRow_defl, commitRow_fe, commitRow_pix, hinput]
      exact (flatMap_range_update (fun g => filteredRow g (4 * s.fe.width) s.pix) choice s.fe.row f).symm
    · rw [commitRow_defl, commitRow_fe, hopen, Bool.false_or]

theorem encodeStep_rowsOk {s t : State} (h : EncodeStep s t) (hk : s.kind = .encode) (hs : RowsOk s) : RowsOk t := by
  cases h with
  | wait | value | chunk | block => exact ⟨hs.idle, hs.rows⟩
  | stopped _ hp => exact rowsOk_of_failed hp
  | start w height pixels hp hheight => exact rowsOk_startEncode hs hk hp w hheight pixels
  | row f hp hrow hopen => exact rowsOk_commitRow hs hk hp hrow hopen f
  | signature hp | header hp | finish hp =>
    exact ⟨fun _ hidle => (nomatch hidle), fun _ _ => hs.rows hk (encoding_of_phase (by simp [hp]))⟩

theorem step_keeps_rowsOk {s t : State} (hs : RowsOk s) (h : step s = .next t) : RowsOk t := by
  refine step_keeps (fun _ _ hs => ⟨hs.idle, hs.rows⟩) (fun _ _ _ _ hs => ⟨hs.idle, hs.rows⟩)
    (fun k par rest _ => rowsOk_construct k par rest) ?_ hs h
  intro i s t hs h
  refine ⟨fun hk => ?_, fun hk => ?_⟩ <;> obtain ⟨hk', hstep⟩ := exec_encodeStep h hk
  · exact (encodeStep_rowsOk hstep hk' hs).idle hk
  · exact (encodeStep_rowsOk hstep hk' hs).rows hk

/-! ### A finished output has a block -/

/-- 20_memory.md R76, R77: what decompresses to something is not empty, if what decompresses to nothing can extend it. -/
theorem deflateStream_ne_nil {par : Config.Params} {cfg : Cfg} {d : List Byte} (hm : InflMonotone par)
    (hempty : RoundTrip par cfg []) (hd : RoundTrip par cfg d) (hne : d ≠ []) : deflateStream par cfg d true ≠ [] := by
  intro hnil
  have hgrows := hm [] (deflateStream par cfg [] true)
  rw [RoundTrip, hnil] at hd
  rw [RoundTrip] at hempty
  rw [List.nil_append, hd, hempty] at hgrows
  exact hne (List.eq_nil_of_length_eq_zero (Nat.le_zero.1 hgrows.length_le))

/-- 44_filter_encode.md R300: once its input has ended, the transform has been given at least the first row. -/
theorem defl_input_ne_nil {s : State} (hs : RowsOk s) (hk : s.kind = .encode) (he : encoding s = true)
    (hend : s.defl.ended = true) : s.defl.input ≠ [] := by
  obtain ⟨_, _, hpos, ⟨choice, hinput⟩, hended⟩ := hs.rows hk he
  have hlast : s.fe.row = s.fe.height := of_decide_eq_true (hended.symm.trans hend)
  intro hnil
  have hrows := List.flatMap_eq_nil_iff.1 (hinput.symm.trans hnil)
  exact List.cons_ne_nil _ _ (hrows 0 (List.mem_range.2 (hlast ▸ hpos)))

/-- Settles O15: the two invariants step by step; and without a block, the compressed stream of the rows would be empty. -/
theorem outputKept : Obligations.OutputKept := by
  refine ⟨fun _ _ => step_keeps_outputOk, fun _ _ => step_keeps_rowsOk, fun s hs hrows hk hp hm hempty hround => ?_⟩
  have hphase := hs hk
  rw [hp] at hphase
  obtain ⟨_, blocks, hblocks, hended, hall, hlog, _⟩ := hphase
  refine ⟨blocks, ?_, hblocks, hlog⟩
  rintro rfl
  obtain ⟨_, hemitted, _⟩ := hblocks
  have hinput := defl_input_ne_nil hrows hk (encoding_of_phase (by simp [hp])) hended
  exact deflateStream_ne_nil hm hempty hround hinput (List.length_eq_zero_iff.1 (hall.symm.trans hemitted.symm))

/-! ### Signature, IHDR and IEND -/

theorem execPkSig_of_sig {s : State} (hk : s.kind = .encode) (he : s.err = none) (hp : s.pk = .sig) :
    execPkSig s = .next (emit (.data signature) { s with pk := .ihdr }) := by
  rw [execPkSig, (packing_iff .sig s).2 ⟨hk, he, hp⟩, whenEnabled_true]

theorem execPkIhdr_of_ihdr {s : State} (hk : s.kind = .encode) (he : s.err = none) (hp : s.pk = .ihdr) :
    execPkIhdr s = .next (emitChunk tyIHDR (headerPayload s) { s with pk := .data }) := by
  rw [execPkIhdr, (packing_iff .ihdr s).2 ⟨hk, he, hp⟩, whenEnabled_true]

/-- The CRC of an empty IEND chunk. -/
theorem crcOf_iend : crcOf (bytes32 tyIEND ++ []) = 0xAE426082 := by decide +kernel

theorem chunkBytes_iend :
    chunkBytes tyIEND [] = [0, 0, 0, 0, 0x49, 0x45, 0x4E, 0x44, 0xAE, 0x42, 0x60, 0x82] := by
  rw [chunkBytes, crcOf_iend]
  rfl

theorem emitEnd_eq (s : State) : emitEnd s = { s with
    crc := chunkSum tyIEND []
    log := s.log ++ [.data [0, 0, 0, 0, 0x49, 0x45, 0x4E, 0x44, 0xAE, 0x42, 0x60, 0x82], .endOfStream]
    pk := .done } := by
  simp only [emitEnd, emitChunk, emit, chunkBytes_iend, List.append_assoc]
  rfl

/-- 45_chunk_packer.md R325: a finished encode session has no enabled step. -/
theorem autoPick_done {s : State} (hk : s.kind = .encode) (hp : s.pk = .done) : autoPick s = none := by
  have hserving : serving s = false := by simp [serving, hk, hasBuffer]
  have hengine : defilterLive s = false := by simp [defilterLive, hk]
  have hpacking (phase : PkPhase) (h : PkPhase.done ≠ phase) : packing phase s = false := by simp [packing, hp, h]
  exact autoPick_of_nothingEnabled {
    serve := by simp [serveEnabled, hserving]
    drain := by simp [drainEnabled, hk, hasBuffer]
    inflOut := by simp [inflOutEnabled, hengine]
    line := by simp [lineEnabled, hengine]
    finish := by simp [finishEnabled, hengine]
    sig := hpacking _ nofun
    ihdr := hpacking _ nofun
    encline := by simp [enclineEnabled, hpacking]
    deflOut := by simp [deflOutEnabled, hpacking]
    deflDone := by simp [deflDoneEnabled, hpacking] }

/-- Settles O55: each step is enabled in its phase; `PK.IEND` is the `DEFL.DONE` that runs it (log 5). -/
theorem packerEnds : Obligations.PackerEnds := by
  refine ⟨fun s hk he => ⟨execPkSig_of_sig hk he, execPkIhdr_of_ihdr hk he⟩, fun s hk he hp hlive hended hall => ?_⟩
  have henabled : deflDoneEnabled s = true :=
    (deflDoneEnabled_iff s).2 ⟨(packing_iff .data s).2 ⟨hk, he, hp⟩, hlive, hended, hall⟩
  have hdone : execDeflDone s = .next (emitEnd s) := by rw [execDeflDone, henabled, whenEnabled_true]
  rw [emitEnd_eq] at hdone
  exact ⟨hdone, hdone, autoPick_done hk rfl⟩

/-! ### The layout of a chunk -/

@[simp] theorem length_bytes32 (v : Word) : (bytes32 v).length = 4 := rfl

theorem length_chunkBytes (ty : Word) (payload : List Byte) : (chunkBytes ty payload).length = 12 + payload.length := by
  simp only [chunkBytes, List.length_append, length_bytes32]
  omega

/-- 45_chunk_packer.md R327: behind length, type and payload stands the CRC of type and payload. -/
theorem drop_chunkBytes (ty : Word) (payload : List Byte) :
    (chunkBytes ty payload).drop (8 + payload.length) = bytes32 (crcOf (bytes32 ty ++ payload)) :=
  List.drop_left' (by simp only [List.length_append, length_bytes32])

theorem execPkChunk_of_fits {ty : Word} {payload : List Byte} {s : State} (he : s.err = none) (hk : s.kind = .encode)
    (hlen : payload.length < 2 ^ 32) :
    execPkChunk ty payload s = .next (reply (.bytes (chunkBytes ty payload)) (chunkCrc ty payload s)) := by
  rw [execPkChunk, if_neg (by simp [he]), if_neg (not_not.2 hk), if_neg hlen.not_ge]

theorem execPkChunk_of_tooLong {ty : Word} {payload : List Byte} {s : State} (he : s.err = none) (hk : s.kind = .encode)
    (hlen : 2 ^ 32 ≤ payload.length) : execPkChunk ty payload s = .refused .chunkTooLong := by
  rw [execPkChunk, if_neg (by simp [he]), if_neg (not_not.2 hk), if_pos hlen]

/-- Settles O56: the fields of `chunkBytes`; and the CRC field holds the value that the parser has computed (O45). -/
theorem chunkLayout : Obligations.ChunkLayout := by
  refine ⟨fun ty payload s he hk => ⟨fun hlen => ⟨chunkBytes ty payload, execPkChunk_of_fits he hk hlen,
    length_chunkBytes ty payload, rfl, rfl, List.take_left, drop_chunkBytes ty payload⟩, execPkChunk_of_tooLong he hk⟩,
    fun ty payload s hd hacc hend hroom => ?_⟩
  rw [drop_chunkBytes] at hd ⊢
  have hvalue : crcOf (bytes32 ty ++ payload) = crcValue s.crc.acc := by
    rw [hacc, ← crcFold_append]
    rfl
  obtain ⟨hnext, _⟩ := (crcCheck _ s hd).1 (.inr hvalue)
  exact hnext hend hroom

/-! ### The start of an encode -/

/-- Settles O54: none of the refusals applies, and the memory is loaded from address 0. -/
theorem encodeStart : Obligations.EncodeStart := by
  intro width height pixels s hk he hp hw hh hmax hlen hc
  refine ⟨Memory.writeBytes [] 0 pixels, ?_, fun a => ?_⟩
  · rw [exec_encStart, execEncStart, encCommand_of_encode he hk, if_neg (not_not.2 hp), if_neg (not_or.2 ⟨hw, hh⟩),
      if_neg (ne_true_of_eq_false hmax), if_neg (not_not.2 hlen), if_neg hc]
    rfl
  · rw [read_writeBytes, Nat.zero_add, Nat.sub_zero, read_nil]
    split
    · rfl
    · next h => exact (List.getElem?_eq_none (by omega)).symm

end Sys2Proof.Proofs
end

section
/-! PROOFS. Errors (spec/60_exceptions.md): what taking an error writes, that a dead session does nothing, and that the
error channel carries at most one event, the last one. -/

namespace Sys2Proof.Proofs

open Sys2Proof.Machine Sys2Proof.Safety Sys2Proof.Laws

/-! ### Taking an error -/

/-- Stopping a session leaves its units as teardown does; a CRC Engine on its own has none to stop (40_crc.md R130). -/
theorem stopped_stop {s : State} (hk : s.kind ≠ .crc) : Stopped (stop s) := by
  unfold Stopped
  rw [stop_kind]
  cases hkind : s.kind with
  | decode => rw [stop_of_decode hkind]; exact ⟨rfl, rfl, rfl, rfl, rfl, rfl⟩
  | encode => rw [stop_of_encode hkind]; exact ⟨rfl, rfl, rfl⟩
  | buffer => rw [stop_of_buffer hkind]; exact ⟨rfl, rfl, rfl⟩
  | crc => exact absurd hkind hk

theorem execTeardown_live {s : State} (he : s.err = none) (hk : s.kind ≠ .crc) (e : ErrorKind) (info : List Word) :
    execTeardown e info s = .next (teardown e info s) := by
  rw [execTeardown, if_neg (by simp [he]), if_neg hk, raise]

theorem execTeardown_absent {s : State} (he : s.err = none) (hk : s.kind = .crc) (e : ErrorKind) (info : List Word) :
    execTeardown e info s = .refused .unitAbsent := by
  rw [execTeardown, if_neg (by simp [he]), if_pos hk]

/-- Settles O58: the latch and the event, then the writes of `stop` for the session's kind. -/
protected theorem teardown : Obligations.Teardown := by
  refine fun e info s he => ⟨fun hk => ?_, fun hk => ?_, fun hk => ?_, fun hk => execTeardown_absent he hk e info⟩
  all_goals rw [exec_teardown, execTeardown_live he (by simp [hk])]
  · rw [teardown, stop_of_decode (by exact hk)]; rfl
  · rw [teardown, stop_of_encode (by exact hk)]; rfl
  · rw [teardown, stop_of_buffer (by exact hk)]; rfl

/-! ### A dead session -/

section Dead

variable {s : State} (hd : s.err ≠ none)
include hd

theorem serving_of_dead : serving s = false :=
  Bool.eq_false_iff.2 fun h => hd ((serving_iff s).1 h).2.1

theorem drainEnabled_of_dead : drainEnabled s = false :=
  Bool.eq_false_iff.2 fun h => hd ((drainEnabled_iff s).1 h).2.1

theorem defilterLive_of_dead : defilterLive s = false := by simp [defilterLive, hd]

theorem packing_of_dead (phase : PkPhase) : packing phase s = false :=
  Bool.eq_false_iff.2 fun h => hd ((packing_iff phase s).1 h).2.1

/-- 60_exceptions.md R373: no agent of a dead session can move. -/
theorem autoPick_of_dead : autoPick s = none :=
  autoPick_of_idle (serving_of_dead hd) (drainEnabled_of_dead hd) (defilterLive_of_dead hd) fun phase _ =>
    packing_of_dead hd phase

theorem delivers_of_dead (tag : Tag) (data : List Byte) : delivers tag data s = false := by
  simp [delivers, serving_of_dead hd]

theorem lineEnabled_of_dead : lineEnabled s = false := by simp [lineEnabled, defilterLive_of_dead hd]

theorem inflOutEnabled_of_dead (k : Nat) : inflOutEnabled k s = false := by
  simp [inflOutEnabled, defilterLive_of_dead hd]

theorem enclineEnabled_of_dead : enclineEnabled s = false := by simp [enclineEnabled, packing_of_dead hd]

theorem deflOutEnabled_of_dead (k : Nat) : deflOutEnabled k s = false := by
  simp [deflOutEnabled, packing_of_dead hd]

theorem deflDoneEnabled_of_dead : deflDoneEnabled s = false := by simp [deflDoneEnabled, packing_of_dead hd]

theorem parserStep_of_dead (tag : Tag) (rule : List Byte → State → Out) (data : List Byte) :
    parserStep tag rule data s = .next s :=
  whenEnabled_of_not (by simp [delivers_of_dead hd])

theorem userStep_of_dead (tag : Tag) (data : List Byte) : userStep tag data s = .next s :=
  whenEnabled_of_not (delivers_of_dead hd tag data)

theorem chunkStep_of_dead (ty length : Word) : chunkStep ty length s = .next s := parserStep_of_dead hd _ _ _

/-- The row of an unknown chunk waits where its type is of another class, and where nothing is delivered. -/
theorem whenEnabled_chunkStep_of_dead (b : Bool) (ty length : Word) :
    whenEnabled b s (chunkStep ty length s) = .next s := by
  cases b
  · rfl
  · exact chunkStep_of_dead hd ty length

theorem defiltStep_of_dead (f : FilterType) (data : List Byte) : defiltStep f data s = .next s :=
  whenEnabled_of_not (by simp [lineEnabled_of_dead hd])

theorem filtStep_of_dead (f : FilterType) (y : Nat) : filtStep f y s = .next s :=
  whenEnabled_of_not (by simp [enclineEnabled_of_dead hd])

end Dead

/-- The four pure functions: they touch no state of the session, and a dead one runs them too (log 9). -/
def isPure : Instr → Bool
  | .crc32 _ | .tbl _ | .paeth _ _ _ | .pred _ _ _ _ => true
  | _ => false

theorem exec_of_isPure {i : Instr} (hi : isPure i = true) (s : State) : ∃ v, exec i s = .next (reply v s) := by
  cases i
  case crc32 | tbl | paeth | pred => exact ⟨_, rfl⟩
  all_goals cases hi

/-- 60_exceptions.md R373: a dead session ignores every command, and every step of it waits. -/
theorem exec_of_dead {s : State} (hd : s.err ≠ none) {i : Instr} (hi : isPure i = false) : exec i s = .next s := by
  -- the commands, `PK.CHUNK` and teardown look at the latch first
  have hsome : s.err.isSome = true := Option.isSome_iff_ne_none.2 hd
  cases i with
  | crc32 | tbl | paeth | pred => cases hi
  | dbPush | dbRequest | dbClose | dbDispose | crcInit | crcUpdate | crcFinal | decPush | decClose | decDispose | encStart
  | encDispose | pkChunk | teardown => exact if_pos hsome
  | kSig | kHdr | kIhdr | kPlte | kTrns | kGama | kIdat | kIend | kSkip | kCrc => exact parserStep_of_dead hd _ _ _
  | kUser0 | kUser1 | kUser2 | kUser3 | kUser4 | kUser5 => exact userStep_of_dead hd _ _
  | chunkIhdr | chunkPlte | chunkTrns | chunkGama | chunkIdat | chunkIend => exact chunkStep_of_dead hd _ _
  | chunkAncillaryUnknown | chunkCriticalUnknown => exact whenEnabled_chunkStep_of_dead hd _ _ _
  | defiltNone | defiltSub | defiltUp | defiltAvg | defiltPaeth => exact defiltStep_of_dead hd _ _
  | filtNone | filtSub | filtUp | filtAvg | filtPaeth => exact filtStep_of_dead hd _ _
  | pStart => exact whenEnabled_of_not (by simp [startPending, hd])
  | dbServe => exact whenEnabled_of_not (by simp [serveEnabled, serving_of_dead hd])
  | dbDrainend => exact whenEnabled_of_not (drainEnabled_of_dead hd)
  | finalize => exact whenEnabled_of_not (by simp [serving_of_dead hd])
  | inflOut k => exact whenEnabled_of_not (inflOutEnabled_of_dead hd k)
  | feFeed bytes => exact whenEnabled_of_not (by simp [inflOutEnabled_of_dead hd])
  | feLine => exact whenEnabled_of_not (lineEnabled_of_dead hd)
  | feFinish => exact whenEnabled_of_not (by simp [finishEnabled, defilterLive_of_dead hd])
  | pkSig | pkIhdr => exact whenEnabled_of_not (packing_of_dead hd _)
  | feEncline => exact whenEnabled_of_not (enclineEnabled_of_dead hd)
  | deflOut k => exact whenEnabled_of_not (deflOutEnabled_of_dead hd k)
  | pkIdat block => exact whenEnabled_of_not (by simp [deflOutEnabled_of_dead hd])
  | deflDone | pkIend => exact whenEnabled_of_not (deflDoneEnabled_of_dead hd)

/-- On a dead session an operation changes nothing, or returns the value of a pure function. -/
theorem exec_next_of_dead {s : State} (hd : s.err ≠ none) {i : Instr} {t : State} (h : exec i s = .next t) :
    t = s ∨ ∃ v, t = reply v s := by
  cases hi : isPure i with
  | false => rw [exec_of_dead hd hi] at h; exact .inl (Host.Outcome.next.inj h).symm
  | true =>
    obtain ⟨v, hv⟩ := exec_of_isPure hi s
    rw [hv] at h
    exact .inr ⟨v, (Host.Outcome.next.inj h).symm⟩

/-- Settles O16: every operation but the pure functions waits, and those only reply. -/
theorem deadSession : Obligations.DeadSession := by
  refine fun s hd => ⟨fun i hcrc32 htbl hpaeth hpred => exec_of_dead hd ?_, fun i t h => ?_, autoPick_of_dead hd⟩
  · cases i
    case crc32 => exact absurd rfl (hcrc32 _)
    case tbl => exact absurd rfl (htbl _)
    case paeth => exact absurd rfl (hpaeth _ _ _)
    case pred => exact absurd rfl (hpred _ _ _ _)
    all_goals rfl
  · obtain rfl | ⟨v, rfl⟩ := exec_next_of_dead hd h <;> rfl

/-! ### The error channel -/

/-- What an operation of a session that is not dead leaves of the error channel, `log` being the events before it: no error
and events of other kinds, or an error taken in a state that has emitted nothing (60_exceptions.md R371). -/
inductive ErrorStep (log : List Event) : State → Prop
  | quiet {t : State} (events : List Event) : t.err = none → t.log = log ++ events →
      (∀ e ∈ events, isError e = false) → ErrorStep log t
  | raised {s : State} (e : ErrorKind) (info : List Word) : s.kind ≠ .crc → s.log = log →
      ErrorStep log (teardown e info s)

/-- Where no error has been signalled before, the step leaves the error channel as it has to be. -/
theorem ErrorStep.errorOk {log : List Event} {t : State} (h : ErrorStep log t) (hlog : ∀ e ∈ log, isError e = false) :
    ErrorOk t := by
  cases h with
  | quiet events he ht hq =>
    exact ⟨fun _ => by rw [ht]; exact List.forall_mem_append.2 ⟨hlog, hq⟩, fun k hk => nomatch he.symm.trans hk⟩
  | raised e info hk hs =>
    refine ⟨fun hn => (nomatch (teardown_err e info _).symm.trans hn), fun k hk' => ?_⟩
    obtain rfl : e = k := Option.some.inj ((teardown_err e info _).symm.trans hk')
    exact ⟨stopped_stop hk, log, info, by rw [teardown_log, hs], hlog⟩

/-- A rule that emits nothing. -/
theorem ErrorStep.silent {log : List Event} {t : State} (he : t.err = none) (hlog : t.log = log) : ErrorStep log t :=
  .quiet [] he (by rw [hlog, List.append_nil]) nofun

/-- A rule that emits one event. -/
theorem ErrorStep.emitted {log : List Event} {t : State} (e : Event) (he : t.err = none) (hlog : t.log = log ++ [e])
    (hq : isError e = false := by rfl) : ErrorStep log t :=
  .quiet [e] he hlog (by simpa using hq)

theorem drainIf_not_error (s : State) : ∀ e ∈ drainIf s, isError e = false := by
  unfold drainIf
  split <;> simp [isError]

/-- A read queued by a rule that has emitted `events` so far. -/
theorem withRead_errorStep {log : List Event} {s : State} {n : Nat} {al : Bool} {tag : Tag} (events : List Event)
    (he : s.err = none) (hlog : s.log = log ++ events) (hq : ∀ e ∈ events, isError e = false := by simp [isError]) :
    ErrorStep log (withRead n al tag s) :=
  .quiet (events ++ drainIf s) he (by simp only [withRead, hlog, List.append_assoc])
    (List.forall_mem_append.2 ⟨hq, drainIf_not_error s⟩)

theorem closeOpen_errorStep {log : List Event} {s : State} (he : s.err = none) (hlog : s.log = log) :
    ErrorStep log (closeOpen s) := by
  refine .quiet _ (by rw [closeOpen_err, he]) (by rw [closeOpen_log, hlog]) ?_
  split <;> simp [isError]

theorem stop_errorStep {log : List Event} {s : State} (he : s.err = none) (hlog : s.log = log) :
    ErrorStep log (stop s) :=
  .silent (by rw [stop_err, he]) (by rw [stop_log, hlog])

theorem delivered_errorStep {tag : Tag} {data : List Byte} {s t : State} (h : Delivered tag data s t) (he : s.err = none) :
    ErrorStep s.log t := by
  cases h with
  | user => exact .emitted (.deliver tag data) he rfl
  | error e info _ _ _ hk => exact .raised e info (by simp [hk]) rfl
  | ihdr w h => exact withRead_errorStep [.metadata w h _ _ _] he rfl
  | gama v => exact withRead_errorStep [.gamma v] he rfl
  | finish => exact closeOpen_errorStep he rfl
  | closed => exact .silent he rfl
  | header | dispatch | emptyIdat | plte | patch | ignore | more | last | iend =>
    exact withRead_errorStep [] he (List.append_nil _).symm

theorem kind_ne_crc_of_hasBuffer {k : Kind} (h : hasBuffer k = true) : k ≠ .crc := by
  rintro rfl; cases h

theorem did_errorStep {i : Instr} {s t : State} (h : Did i s t) (he : s.err = none) : ErrorStep s.log t := by
  cases h with
  | delivery _ _ k _ _ _ _ _ _ _ _ _ _ _ hx => exact delivered_errorStep (s := served k s) hx he
  | pushLate _ _ _ hb => exact .raised _ _ (kind_ne_crc_of_hasBuffer hb) rfl
  | requestLate _ _ _ _ _ hk => exact .raised _ _ (by simp [hk]) rfl
  | pending _ _ hb => exact .raised _ _ (kind_ne_crc_of_hasBuffer hb) rfl
  | teardown e info _ _ hk => exact .raised e info hk rfl
  | close | closeWith => exact closeOpen_errorStep he rfl
  | request | pStart => exact withRead_errorStep [] he (List.append_nil _).symm
  | decDispose | encDispose => exact stop_errorStep he rfl
  | finalized => exact .emitted .finished he rfl
  | finish | pkSig | pkIhdr | block => exact .emitted _ he rfl
  | finishOutput =>
    exact .quiet [.data (chunkBytes tyIEND []), .endOfStream] he (List.append_assoc _ _ _) (by simp [isError])
  | wait | push | closeLate | dispose | crcInit | crcUpdate | crcFinal | encStart | fed | line | encline | value | chunk =>
    exact .silent he rfl

/-- A dead session keeps its error, since it changes nothing but the returned value; another one takes an `ErrorStep`. -/
theorem exec_keeps_errorOk {i : Instr} {s t : State} (hs : ErrorOk s) (h : exec i s = .next t) : ErrorOk t := by
  by_cases he : s.err = none
  · exact (did_errorStep (exec_did h) he).errorOk (hs.quiet he)
  · obtain rfl | ⟨v, rfl⟩ := exec_next_of_dead he h
    · exact hs
    · exact ⟨hs.quiet, hs.latched⟩

/-- Settles O14: no operation breaks the invariant, which looks neither at the agenda nor at the configuration. -/
theorem errorKept : Obligations.ErrorKept := fun _ _ hs h =>
  step_keeps (fun _ _ hs => ⟨hs.quiet, hs.latched⟩) (fun _ _ _ _ hs => ⟨hs.quiet, hs.latched⟩)
    (fun k par rest _ => errorOk_construct k par rest) (fun _ _ _ hs h => exec_keeps_errorOk hs h) hs h

end Sys2Proof.Proofs
end

section
/-! PROOFS. What the host does that is no operation (spec/70_reset_and_hazards.md): the configuration writes and the
construction of a session, as the step takes them from the agenda. -/

namespace Sys2Proof.Proofs

open Sys2Proof.Machine

/-- An entry that runs no operation: `fetch` has done the whole step. -/
theorem step_of_fetch_done {s : State} {o : Host.Outcome State Fault Refusal} (h : fetch s = .done o) : step s = o := by
  simp [step, h]

/-- On an instance of the kind that has the configuration, only an earlier command refuses the write. -/
theorem configure_of_kind {k : Kind} {s : State} (c : Cfg) (hk : s.kind = k) :
    configure k c s = if s.started then .refused .lateConfiguration else .next { s with cfg := c } := by
  simp [configure, hk]

/-- Whichever part of the configuration the oldest entry writes, the step is decided by whether a command came before. -/
theorem step_of_fetch_configure {s : State} {k : Kind} {c : Cfg} {rest : List Input}
    (hf : fetch s = .done (configure k c { s with agenda := rest })) (hk : s.kind = k) :
    step s = if s.started then .refused .lateConfiguration else .next { s with cfg := c, agenda := rest } :=
  (step_of_fetch_done hf).trans (configure_of_kind c hk)

theorem step_of_construct {s : State} {kind : Kind} {par : Config.Params} {rest : List Input}
    (ha : s.agenda = .construct kind par :: rest) :
    step s = if exceeds par.maxReads (firstReads kind).length then .refused .readsFull
      else .next { State.construct kind par with agenda := rest } :=
  step_of_fetch_done (o := constructSession kind par { s with agenda := rest }) (by simp [fetch, ha])

/-- Settles O5: the three configuration writes are one rule about `configure`, and the construction is
`constructSession`. -/
theorem hostEntries : Obligations.HostEntries := by
  refine fun s rest => ⟨fun on ha hk => ?checkCRC, fun l ha hk => ?candidates, fun a b c ha hk => ?transform,
    fun _ _ => step_of_construct⟩
  all_goals exact step_of_fetch_configure (by simp only [fetch, ha]) hk

end Sys2Proof.Proofs
end
